-- ==== Sys2Proof/Word.lean ====
section
/-! DEFINITION. The widths of HTB's values (rule R7 of 00_scope.md). Every value is unsigned (R11): no
rule sign-extends anything, so no sign extension is defined. -/

namespace Sys2Proof

/-- A register, and the data of a host transaction: 32 bits (R7, R71). -/
abbrev Word := BitVec 32

/-- One channel of a pixel (R7). -/
abbrev Byte := BitVec 8

/-- A byte offset in the register window (R7, R70). -/
abbrev Offset := BitVec 12

/-- A host transaction word, HTW: WR at [44], OFF at [43:32], DATA at [31:0] (R90). -/
abbrev Htw := BitVec 45

/-- A symbol: the 24-bit colour key 0xRRGGBB (R7, R111). -/
abbrev Key := BitVec 24

/-- A frequency (R7). -/
abbrev Freq := BitVec 32

/-- A slot or node index as a register holds it (R7). -/
abbrev Index := BitVec 25

/-- The nine event bits of EV_PENDING and EV_ENABLE (R33, R34). -/
abbrev Events := BitVec 9

/-- A 64-bit result or the bits of a codeword (R35..R37, R53). -/
abbrev Quad := BitVec 64

end Sys2Proof
end

