-- ==== Sys2Proof/Config.lean ====
section
/-! DEFINITION. What is fixed for one HTB and is no state (rules R7, R8 and R56): the implementation
parameters, and the values the spec leaves unspecified, which have no body here. -/

namespace Sys2Proof

/-- The parameters of one HTB. The field is POOL_CAP − 1, so that every value of the type is a legal
capacity, 1 ≤ POOL_CAP ≤ 2^24 (R7, D5). -/
structure Config where
  poolCapPred : Fin 0x1000000
deriving DecidableEq, Repr

/-- POOL_CAP, the symbol pool capacity (R7). -/
abbrev Config.poolCap (c : Config) : Nat := c.poolCapPred.val + 1

/-- NODE_CAP = 2·POOL_CAP − 1 (R7). -/
abbrev Config.nodeCap (c : Config) : Nat := 2 * c.poolCap - 1

/-- CW_MAX, the longest codeword the code table holds (R7, D6). -/
abbrev Config.cwMax : Nat := 64

/-- The capacity State.reset carries: POOL_CAP = 2^24, the start state of the programs of
95_test_vectors.md. POOL_CAP itself is OPEN (D5). DESIGN CHOICE, log 1. -/
def Config.full : Config := ⟨0xFFFFFF⟩

/-- HTB_BASE, where the window stands in the host's own address space: OPEN (D3, R77). No rule of HTB
depends on it. DESIGN CHOICE, log 10: the constant has no body. -/
opaque Config.htbBase : Nat

/-! The unspecified contents of the arrays and of `root_i` after reset (R58, U10, D29). The first
argument counts the resets, the second is the index; no value of any of them can be proved. log 2. -/

opaque Config.freeRoot : Nat → Index
opaque Config.freePoolKey : Nat → Nat → Key
opaque Config.freePoolFreq : Nat → Nat → Freq
opaque Config.freeNodeIsLeaf : Nat → Nat → Bool
opaque Config.freeNodeFreq : Nat → Nat → Freq
opaque Config.freeNodeLeft : Nat → Nat → Index
opaque Config.freeNodeRight : Nat → Nat → Index
opaque Config.freeCodeLen : Nat → Nat → BitVec 7
opaque Config.freeCodeBits : Nat → Nat → Quad

end Sys2Proof
end

