-- ==== Sys2Proof/Machine/RegMap.lean ====
section
/-! DEFINITION. The register map (rule R20 of 10_state.md): the registers, their offsets and their
access types. -/

namespace Sys2Proof

/-- The registers of the window, in the order of the table of R20. -/
inductive Reg where
  | id
  | param
  | cmd
  | status
  | err
  | dim
  | pixel
  | pixCount
  | symCount
  | mergeCount
  | progInterval
  | evPending
  | evEnable
  | origLo
  | origHi
  | compLo
  | compHi
  | tbitsLo
  | tbitsHi
  | root
  | slotSel
  | slotKey
  | slotFreq
  | slotClen
  | slotCbitsLo
  | slotCbitsHi
  | nodeSel
  | nodeKind
  | nodeFreq
  | nodeLeft
  | nodeRight
deriving DecidableEq, Repr

/-- The access types of 10_state.md: read-only, write-only, read-write, write-one-to-clear. -/
inductive Access where
  | ro
  | wo
  | rw
  | rw1c
deriving DecidableEq, Repr

/-- The registers, each once. -/
def Reg.all : List Reg :=
  [.id, .param, .cmd, .status, .err, .dim, .pixel, .pixCount] ++
  [.symCount, .mergeCount, .progInterval, .evPending, .evEnable, .origLo, .origHi, .compLo] ++
  [.compHi, .tbitsLo, .tbitsHi, .root, .slotSel, .slotKey, .slotFreq, .slotClen] ++
  [.slotCbitsLo, .slotCbitsHi, .nodeSel, .nodeKind, .nodeFreq, .nodeLeft, .nodeRight]

/-- The offset of each register (R20). -/
def Reg.offset : Reg → Offset
  | .id => 0x000
  | .param => 0x004
  | .cmd => 0x008
  | .status => 0x00C
  | .err => 0x010
  | .dim => 0x014
  | .pixel => 0x018
  | .pixCount => 0x01C
  | .symCount => 0x020
  | .mergeCount => 0x024
  | .progInterval => 0x028
  | .evPending => 0x02C
  | .evEnable => 0x030
  | .origLo => 0x034
  | .origHi => 0x038
  | .compLo => 0x03C
  | .compHi => 0x040
  | .tbitsLo => 0x044
  | .tbitsHi => 0x048
  | .root => 0x04C
  | .slotSel => 0x050
  | .slotKey => 0x054
  | .slotFreq => 0x058
  | .slotClen => 0x05C
  | .slotCbitsLo => 0x060
  | .slotCbitsHi => 0x064
  | .nodeSel => 0x068
  | .nodeKind => 0x06C
  | .nodeFreq => 0x070
  | .nodeLeft => 0x074
  | .nodeRight => 0x078

/-- The access type of each register (R20). -/
def Reg.access : Reg → Access
  | .id => .ro
  | .param => .ro
  | .cmd => .wo
  | .status => .ro
  | .err => .ro
  | .dim => .rw
  | .pixel => .wo
  | .pixCount => .ro
  | .symCount => .ro
  | .mergeCount => .ro
  | .progInterval => .rw
  | .evPending => .rw1c
  | .evEnable => .rw
  | .origLo => .ro
  | .origHi => .ro
  | .compLo => .ro
  | .compHi => .ro
  | .tbitsLo => .ro
  | .tbitsHi => .ro
  | .root => .ro
  | .slotSel => .rw
  | .slotKey => .ro
  | .slotFreq => .ro
  | .slotClen => .ro
  | .slotCbitsLo => .ro
  | .slotCbitsHi => .ro
  | .nodeSel => .rw
  | .nodeKind => .ro
  | .nodeFreq => .ro
  | .nodeLeft => .ro
  | .nodeRight => .ro

/-- The name of each register in the table of R20. -/
def Reg.name : Reg → String
  | .id => "ID"
  | .param => "PARAM"
  | .cmd => "CMD"
  | .status => "STATUS"
  | .err => "ERR"
  | .dim => "DIM"
  | .pixel => "PIXEL"
  | .pixCount => "PIX_COUNT"
  | .symCount => "SYM_COUNT"
  | .mergeCount => "MERGE_COUNT"
  | .progInterval => "PROG_INTERVAL"
  | .evPending => "EV_PENDING"
  | .evEnable => "EV_ENABLE"
  | .origLo => "ORIG_LO"
  | .origHi => "ORIG_HI"
  | .compLo => "COMP_LO"
  | .compHi => "COMP_HI"
  | .tbitsLo => "TBITS_LO"
  | .tbitsHi => "TBITS_HI"
  | .root => "ROOT"
  | .slotSel => "SLOT_SEL"
  | .slotKey => "SLOT_KEY"
  | .slotFreq => "SLOT_FREQ"
  | .slotClen => "SLOT_CLEN"
  | .slotCbitsLo => "SLOT_CBITS_LO"
  | .slotCbitsHi => "SLOT_CBITS_HI"
  | .nodeSel => "NODE_SEL"
  | .nodeKind => "NODE_KIND"
  | .nodeFreq => "NODE_FREQ"
  | .nodeLeft => "NODE_LEFT"
  | .nodeRight => "NODE_RIGHT"

/-- The register at an offset; none where the offset is reserved or misaligned (R49, R72). -/
def Reg.at? (off : Offset) : Option Reg :=
  Reg.all.find? fun r => r.offset == off

/-- A write to this register does something: it is not read-only (R91 tests 1 and 2, R175). -/
def Reg.takesWrite (r : Reg) : Bool := r.access != .ro

/-- A read of this register returns it: it is not write-only (R91 test 4, R205). -/
def Reg.givesRead (r : Reg) : Bool := r.access != .wo

/-- A write to this offset is one of the operations of tests 1 and 2 of R91. -/
def writableOffset (off : Offset) : Bool :=
  match Reg.at? off with
  | some r => r.takesWrite
  | none => false

/-- A read of this offset is one of the operations of test 4 of R91. -/
def readableOffset (off : Offset) : Bool :=
  match Reg.at? off with
  | some r => r.givesRead
  | none => false

end Sys2Proof
end

