-- ==== Sys2Proof/Syntax.lean ====
section
/-! DEFINITION. The host operations (rule R100 of 30_encoding.md), one constructor for each row of
opcode_table.json. A write keeps its 32 bits of DATA whole; a meaning takes the fields it uses. -/

namespace Sys2Proof

/-- The 41 host operations of R100. DATA is not examined in a read (opcode_table.json), so a read
carries none; WR_IGNORED and RD_ZERO stand for many offsets and carry theirs. -/
inductive Instr where
  | cmdStart
  | cmdAbort
  | rsvdCmd (data : Word)
  | wrDim (data : Word)
  | wrPixel (data : Word)
  | wrProgInterval (data : Word)
  | wrEvPending (data : Word)
  | wrEvEnable (data : Word)
  | wrSlotSel (data : Word)
  | wrNodeSel (data : Word)
  | wrIgnored (off : Offset) (data : Word)
  | rdId
  | rdParam
  | rdStatus
  | rdErr
  | rdDim
  | rdPixCount
  | rdSymCount
  | rdMergeCount
  | rdProgInterval
  | rdEvPending
  | rdEvEnable
  | rdOrigLo
  | rdOrigHi
  | rdCompLo
  | rdCompHi
  | rdTbitsLo
  | rdTbitsHi
  | rdRoot
  | rdSlotSel
  | rdSlotKey
  | rdSlotFreq
  | rdSlotClen
  | rdSlotCbitsLo
  | rdSlotCbitsHi
  | rdNodeSel
  | rdNodeKind
  | rdNodeFreq
  | rdNodeLeft
  | rdNodeRight
  | rdZero (off : Offset)
deriving DecidableEq, Repr

end Sys2Proof
end

