-- ==== Sys2Proof/WellFormed.lean ====
section
/-! DEFINITION. Which terms of Instr a host transaction word stands for: the operations that share an
offset with others carry only the operands R91 and R93 leave to them. -/

namespace Sys2Proof

/-- Every other constructor takes every value of its operands (R94, R95, R96). -/
def Instr.wf : Instr → Bool
  | .rsvdCmd data => data != 0x00000001 && data != 0x00000002
  | .wrIgnored off _ => !writableOffset off
  | .rdZero off => !readableOffset off
  | .cmdStart | .cmdAbort | .wrDim _ | .wrPixel _ | .wrProgInterval _ | .wrEvPending _
  | .wrEvEnable _ | .wrSlotSel _ | .wrNodeSel _ => true
  | .rdId | .rdParam | .rdStatus | .rdErr | .rdDim | .rdPixCount | .rdSymCount | .rdMergeCount | .rdProgInterval
  | .rdEvPending | .rdEvEnable | .rdOrigLo | .rdOrigHi | .rdCompLo | .rdCompHi | .rdTbitsLo | .rdTbitsHi | .rdRoot | .rdSlotSel
  | .rdSlotKey | .rdSlotFreq | .rdSlotClen | .rdSlotCbitsLo | .rdSlotCbitsHi | .rdNodeSel | .rdNodeKind | .rdNodeFreq | .rdNodeLeft | .rdNodeRight => true

end Sys2Proof
end

