-- ==== Sys2Proof/Decode.lean ====
section
/-! DEFINITION. Decoding and encoding of host transactions (rules R90..R100 of 30_encoding.md). -/

namespace Sys2Proof

/-- Bit [44], WR (R90). -/
def htwWr (w : Htw) : Bool := w.getLsbD 44

/-- Bits [43:32], OFF (R90). -/
def htwOff (w : Htw) : Offset := w.extractLsb' 32 12

/-- Bits [31:0], DATA (R90). -/
def htwData (w : Htw) : Word := w.extractLsb' 0 32

/-- The HTW of the three fields (R90). -/
def htw (wr : Bool) (off : Offset) (data : Word) : Htw := BitVec.ofBool wr ++ off ++ data

/-- The command opcode map: DATA is matched as a whole 32-bit value (R93, R150). -/
def decodeCmd (data : Word) : Instr :=
  if data = 0x00000001 then .cmdStart
  else if data = 0x00000002 then .cmdAbort
  else .rsvdCmd data

/-- A write, WR = 1: tests 1 to 3 of R91. -/
def decodeWrite (off : Offset) (data : Word) : Instr :=
  match Reg.at? off with
  | some .cmd => decodeCmd data
  | some .dim => .wrDim data
  | some .pixel => .wrPixel data
  | some .progInterval => .wrProgInterval data
  | some .evPending => .wrEvPending data
  | some .evEnable => .wrEvEnable data
  | some .slotSel => .wrSlotSel data
  | some .nodeSel => .wrNodeSel data
  | some .id => .wrIgnored off data
  | some .param => .wrIgnored off data
  | some .status => .wrIgnored off data
  | some .err => .wrIgnored off data
  | some .pixCount => .wrIgnored off data
  | some .symCount => .wrIgnored off data
  | some .mergeCount => .wrIgnored off data
  | some .origLo => .wrIgnored off data
  | some .origHi => .wrIgnored off data
  | some .compLo => .wrIgnored off data
  | some .compHi => .wrIgnored off data
  | some .tbitsLo => .wrIgnored off data
  | some .tbitsHi => .wrIgnored off data
  | some .root => .wrIgnored off data
  | some .slotKey => .wrIgnored off data
  | some .slotFreq => .wrIgnored off data
  | some .slotClen => .wrIgnored off data
  | some .slotCbitsLo => .wrIgnored off data
  | some .slotCbitsHi => .wrIgnored off data
  | some .nodeKind => .wrIgnored off data
  | some .nodeFreq => .wrIgnored off data
  | some .nodeLeft => .wrIgnored off data
  | some .nodeRight => .wrIgnored off data
  | none => .wrIgnored off data

/-- A read, WR = 0: tests 4 and 5 of R91. -/
def decodeRead (off : Offset) : Instr :=
  match Reg.at? off with
  | some .id => .rdId
  | some .param => .rdParam
  | some .status => .rdStatus
  | some .err => .rdErr
  | some .dim => .rdDim
  | some .pixCount => .rdPixCount
  | some .symCount => .rdSymCount
  | some .mergeCount => .rdMergeCount
  | some .progInterval => .rdProgInterval
  | some .evPending => .rdEvPending
  | some .evEnable => .rdEvEnable
  | some .origLo => .rdOrigLo
  | some .origHi => .rdOrigHi
  | some .compLo => .rdCompLo
  | some .compHi => .rdCompHi
  | some .tbitsLo => .rdTbitsLo
  | some .tbitsHi => .rdTbitsHi
  | some .root => .rdRoot
  | some .slotSel => .rdSlotSel
  | some .slotKey => .rdSlotKey
  | some .slotFreq => .rdSlotFreq
  | some .slotClen => .rdSlotClen
  | some .slotCbitsLo => .rdSlotCbitsLo
  | some .slotCbitsHi => .rdSlotCbitsHi
  | some .nodeSel => .rdNodeSel
  | some .nodeKind => .rdNodeKind
  | some .nodeFreq => .rdNodeFreq
  | some .nodeLeft => .rdNodeLeft
  | some .nodeRight => .rdNodeRight
  | some .cmd => .rdZero off
  | some .pixel => .rdZero off
  | none => .rdZero off

/-- Every one of the 2^45 words is exactly one host operation (R91). -/
def decode (w : Htw) : Instr :=
  if htwWr w then decodeWrite (htwOff w) (htwData w) else decodeRead (htwOff w)

/-- Why a number is no host transaction word. -/
inductive DecodeError where
  /-- It has a bit above bit 44, and an HTW has 45 bits (R90). Safe: nothing runs. -/
  | widerThanHtw
deriving DecidableEq, Repr

/-- Decoding of any number at all: a number wider than an HTW is rejected by name. log 5. -/
def decodeNat (n : Nat) : Except DecodeError Instr :=
  if n < 0x200000000000 then .ok (decode (BitVec.ofNat 45 n)) else .error .widerThanHtw

/-- The operation whose bits are `w`, numbered as opcode_table.json numbers them. HTB stores no
instruction and has no byte order (R70, R73), so the word is the HTW itself. log 5. -/
def decodeTableWord (nbits w : Nat) : Option Instr :=
  match decodeNat (w % 2 ^ nbits) with
  | .ok i => some i
  | .error _ => none

/-- The HTW of an operation; the DATA of a read is 0 (R90). -/
def encode : Instr → Htw
  | .cmdStart => htw true Reg.cmd.offset 0x00000001
  | .cmdAbort => htw true Reg.cmd.offset 0x00000002
  | .rsvdCmd data => htw true Reg.cmd.offset data
  | .wrDim data => htw true Reg.dim.offset data
  | .wrPixel data => htw true Reg.pixel.offset data
  | .wrProgInterval data => htw true Reg.progInterval.offset data
  | .wrEvPending data => htw true Reg.evPending.offset data
  | .wrEvEnable data => htw true Reg.evEnable.offset data
  | .wrSlotSel data => htw true Reg.slotSel.offset data
  | .wrNodeSel data => htw true Reg.nodeSel.offset data
  | .wrIgnored off data => htw true off data
  | .rdId => htw false Reg.id.offset 0
  | .rdParam => htw false Reg.param.offset 0
  | .rdStatus => htw false Reg.status.offset 0
  | .rdErr => htw false Reg.err.offset 0
  | .rdDim => htw false Reg.dim.offset 0
  | .rdPixCount => htw false Reg.pixCount.offset 0
  | .rdSymCount => htw false Reg.symCount.offset 0
  | .rdMergeCount => htw false Reg.mergeCount.offset 0
  | .rdProgInterval => htw false Reg.progInterval.offset 0
  | .rdEvPending => htw false Reg.evPending.offset 0
  | .rdEvEnable => htw false Reg.evEnable.offset 0
  | .rdOrigLo => htw false Reg.origLo.offset 0
  | .rdOrigHi => htw false Reg.origHi.offset 0
  | .rdCompLo => htw false Reg.compLo.offset 0
  | .rdCompHi => htw false Reg.compHi.offset 0
  | .rdTbitsLo => htw false Reg.tbitsLo.offset 0
  | .rdTbitsHi => htw false Reg.tbitsHi.offset 0
  | .rdRoot => htw false Reg.root.offset 0
  | .rdSlotSel => htw false Reg.slotSel.offset 0
  | .rdSlotKey => htw false Reg.slotKey.offset 0
  | .rdSlotFreq => htw false Reg.slotFreq.offset 0
  | .rdSlotClen => htw false Reg.slotClen.offset 0
  | .rdSlotCbitsLo => htw false Reg.slotCbitsLo.offset 0
  | .rdSlotCbitsHi => htw false Reg.slotCbitsHi.offset 0
  | .rdNodeSel => htw false Reg.nodeSel.offset 0
  | .rdNodeKind => htw false Reg.nodeKind.offset 0
  | .rdNodeFreq => htw false Reg.nodeFreq.offset 0
  | .rdNodeLeft => htw false Reg.nodeLeft.offset 0
  | .rdNodeRight => htw false Reg.nodeRight.offset 0
  | .rdZero off => htw false off 0

/-- The window offset of an address of the host's own space: the window is the 4096 bytes from
HTB_BASE on (R70, R77); none outside it. -/
def windowOffset? (addr : Nat) : Option Offset :=
  if Config.htbBase ≤ addr ∧ addr < Config.htbBase + 0x1000 then
    some (BitVec.ofNat 12 (addr - Config.htbBase))
  else none

/-- Where the host finds an offset of the window (R77). -/
def hostAddress (off : Offset) : Nat := Config.htbBase + off.toNat

end Sys2Proof
end

