-- ==== Sys2Proof/Machine/State.lean ====
section
/-! DEFINITION. The state of HTB (10_state.md), what the outside world does next, the reasons a step
can stop, and reset (rules R58 and R250). -/

namespace Sys2Proof.Machine

/-- STATE, the sequencer state (R25). The encoding 7 is never taken, so it is no value of the type. -/
inductive Phase where
  | idle
  | hist
  | build
  | walk
  | size
  | done
  | error
deriving DecidableEq, Repr

/-- ERR_CODE (R26, R221). The codes 4..15 are never written, so they are no values of the type. -/
inductive ErrCode where
  | noError
  | emptyInput
  | poolOverflow
  | codeLength
deriving DecidableEq, Repr

/-- An entry of the symbol pool (R50). -/
structure PoolEntry where
  key  : Key
  freq : Freq
deriving DecidableEq, Repr

/-- The kind of a node (R51). -/
inductive NodeKind where
  | leaf
  | internal
deriving DecidableEq, Repr

/-- An entry of the node pool (R51); `left` and `right` mean something for an internal node only. -/
structure NodeEntry where
  kind  : NodeKind
  freq  : Freq
  left  : Index
  right : Index
deriving DecidableEq, Repr

/-- An entry of the code table (R53): the codeword packed by R133. -/
structure CodeEntry where
  len  : BitVec 7
  bits : Quad
deriving DecidableEq, Repr

/-- An internal array: its written entries by index, indices strictly rising. An index not listed has
not been written since reset. log 7. -/
abbrev Table (α : Type) := List (Nat × α)

/-- The whole state of the block: the registers of R20 that hold state, and the hidden state of
R50..R54. STATUS, ROOT and the windows are functions of it. -/
structure Htb where
  phase        : Phase
  err          : ErrCode
  dim          : Word
  pixCount     : Word
  symCount     : Index
  mergeCount   : Index
  progInterval : Word
  evPending    : Events
  evEnable     : Events
  orig         : Quad
  comp         : Quad
  tbits        : Quad
  slotSel      : Index
  nodeSel      : Index
  rootI        : Index
  pool         : Table PoolEntry
  node         : Table NodeEntry
  code         : Table CodeEntry
  /-- LIVE, a set of node indices (R52), held as a strictly rising list. log 13. -/
  live         : List Nat
  /-- How many resets there have been: the model's own counter, which the free values of the
  unspecified arrays are applied to. log 2. -/
  epoch        : Nat
deriving DecidableEq, Repr

/-- One thing the outside world or the engine does (R9). -/
inductive Event where
  /-- A host transaction (R90). -/
  | host (w : Htw)
  /-- The engine takes its enabled step, if it has one (R233). -/
  | engine
  /-- The reset input (R250). -/
  | reset
deriving DecidableEq, Repr

/-- The block, its configuration, and the model's own record of the outside world. -/
structure State where
  /-- POOL_CAP (R7); no step changes it. log 1. -/
  config : Config
  htb    : Htb
  /-- What happens next, first first; when it is used up the engine goes on alone. log 3. -/
  agenda : List Event
  /-- The result of the latest host transaction: the value a read returned, none for a write (R90).
  log 4. -/
  reply  : Option Word
deriving DecidableEq, Repr

/-- Why the machine stops. -/
inductive Fault where
  /-- Raised by ENG_WALK alone, in a state where the node pool below `root_i` unfolds to no finite tree,
  or to one that misses a slot: that slot has no path. No run reaches such a state. Safe: the model
  stops. log 8. -/
  | treeUndefined
deriving DecidableEq, Repr

/-- Why an operation has no meaning. -/
inductive Refusal where
  /-- Raised by `exec` for an operation that has no meaning yet; there is none. Safe. -/
  | notModelled (mnemonic : String)
deriving DecidableEq, Repr

/-- The block after its `epoch`-th reset (R58, R250). `root_i` is unspecified: it holds a free value;
the arrays have no written entry. log 2. -/
def Htb.reset (epoch : Nat) : Htb where
  phase        := .idle
  err          := .noError
  dim          := 0
  pixCount     := 0
  symCount     := 0
  mergeCount   := 0
  progInterval := 500
  evPending    := 0
  evEnable     := 0
  orig         := 0
  comp         := 0
  tbits        := 0
  slotSel      := 0
  nodeSel      := 0
  rootI        := Config.freeRoot epoch
  pool         := []
  node         := []
  code         := []
  live         := []
  epoch        := epoch

/-- A machine of the given configuration at power-on, which is the state after reset (R252). -/
def State.resetWith (c : Config) : State where
  config := c
  htb    := Htb.reset 0
  agenda := []
  reply  := none

/-- The machine right after reset, with POOL_CAP = 2^24. log 1. -/
def State.reset : State := State.resetWith Config.full

end Sys2Proof.Machine
end

