-- ==== Sys2Proof/Machine/Operands.lean ====
section
/-! DEFINITION. The fields of the DATA word of each write (rules R92..R97 of 30_encoding.md) and of the
DIM register, zero extension (R11), and the halves of a 64-bit value (R74). Every field is unsigned;
nothing is scaled or sign-extended (R97). -/

namespace Sys2Proof.Machine

/-- `zext_32(v)` of rule R11. -/
abbrev zext32 {w : Nat} (v : BitVec w) : Word := v.setWidth 32

/-- Bits [31:0] of a 64-bit value: the `*_LO` half (R74). -/
abbrev lowHalf (q : Quad) : Word := q.extractLsb' 0 32

/-- Bits [63:32] of a 64-bit value: the `*_HI` half (R74). -/
abbrev highHalf (q : Quad) : Word := q.extractLsb' 32 32

/-- R, bits [7:0] of a pixel word (R94). -/
def pixelR (data : Word) : Byte := data.extractLsb' 0 8

/-- G, bits [15:8] of a pixel word (R94). -/
def pixelG (data : Word) : Byte := data.extractLsb' 8 8

/-- B, bits [23:16] of a pixel word (R94). -/
def pixelB (data : Word) : Byte := data.extractLsb' 16 8

/-- A, bits [31:24] of a pixel word (R94); it takes no part in the symbol (R115). -/
def pixelA (data : Word) : Byte := data.extractLsb' 24 8

/-- The symbol of a pixel word: {R, G, B}, R in bits [23:16] (R111). -/
def key (data : Word) : Key := pixelR data ++ pixelG data ++ pixelB data

/-- The nine event bits of an EV_PENDING or EV_ENABLE write; DATA[31:9] is ignored (R96). -/
def eventMask (data : Word) : Events := data.setWidth 9

/-- The index of a SLOT_SEL or NODE_SEL write; DATA[31:25] is dropped (R97, R173, R174). -/
def selIndex (data : Word) : Index := data.setWidth 25

/-- WIDTH, bits [15:0] of DIM (R27, R95). -/
def dimWidth (dim : Word) : BitVec 16 := dim.extractLsb' 0 16

/-- HEIGHT, bits [31:16] of DIM (R27, R95). -/
def dimHeight (dim : Word) : BitVec 16 := dim.extractLsb' 16 16

/-- W·H, over the unbounded naturals (R11, R13). -/
def rasterSize (dim : Word) : Nat := (dimWidth dim).toNat * (dimHeight dim).toNat

end Sys2Proof.Machine
end

