-- ==== Sys2Proof/Machine/Flags.lean ====
section
/-! DEFINITION. The event bits, the interrupt output and the STATUS word (rules R24, R25, R33, R230 and
R231). HTB has no other flags. -/

namespace Sys2Proof.Machine

/-- The events, in the order of their bits (R33). -/
inductive Ev where
  | histDone
  | buildStart
  | progress
  | buildDone
  | walkStart
  | sizeStart
  | done
  | error
  | accErr
deriving DecidableEq, Repr

/-- The bit of each event in EV_PENDING and EV_ENABLE (R33). -/
def evBit : Ev → Nat
  | .histDone => 0
  | .buildStart => 1
  | .progress => 2
  | .buildDone => 3
  | .walkStart => 4
  | .sizeStart => 5
  | .done => 6
  | .error => 7
  | .accErr => 8

/-- The mask with the event's one bit. -/
def evMask (e : Ev) : Events := 1#9 <<< evBit e

/-- Whether the event's bit is set. -/
def evIn (v : Events) (e : Ev) : Bool := v.getLsbD (evBit e)

/-- `signal E`: set bit E of EV_PENDING; setting a bit already 1 changes nothing (R230). -/
def Htb.signal (e : Ev) (h : Htb) : Htb := { h with evPending := h.evPending ||| evMask e }

/-- Write-one-to-clear (R155). -/
def Htb.ack (m : Events) (h : Htb) : Htb := { h with evPending := h.evPending &&& ~~~m }

/-- The encoding of STATE (R25). -/
def phaseCode : Phase → BitVec 3
  | .idle => 0
  | .hist => 1
  | .build => 2
  | .walk => 3
  | .size => 4
  | .done => 5
  | .error => 6

/-- The encoding of ERR_CODE (R26, R221). -/
def errCode : ErrCode → BitVec 4
  | .noError => 0
  | .emptyInput => 1
  | .poolOverflow => 2
  | .codeLength => 3

/-- BUSY is 1 when STATE ∈ {HIST, BUILD, WALK, SIZE} (R24). -/
def phaseBusy : Phase → Bool
  | .hist | .build | .walk | .size => true
  | .idle | .done | .error => false

/-- STATUS.BUSY (R24). -/
def Htb.busy (h : Htb) : Bool := phaseBusy h.phase

/-- STATUS.RESULT_VALID: 1 when STATE = DONE (R24). -/
def Htb.resultValid (h : Htb) : Bool := h.phase == .done

/-- The interrupt output: some event is both pending and enabled (R231). -/
def Htb.irq (h : Htb) : Bool := h.evPending &&& h.evEnable != 0

/-- The STATUS word: {IRQ, RESULT_VALID, BUSY, STATE} (R24, R178). -/
def Htb.statusWord (h : Htb) : Word :=
  zext32 (BitVec.ofBool h.irq ++ BitVec.ofBool h.resultValid ++ BitVec.ofBool h.busy ++
    phaseCode h.phase)

end Sys2Proof.Machine
end

