-- ==== Sys2Proof/Machine/Table.lean ====
section
/-! DEFINITION. The operations over the internal arrays (rules R50, R51 and R53). HTB has no memory
with addresses (R70), so there are no byte operations. -/

namespace Sys2Proof.Machine

/-- The entry written at an index; none where nothing was written since reset. -/
def Table.read? {α : Type} : Table α → Nat → Option α
  | [], _ => none
  | (k, v) :: t, i => if k = i then some v else Table.read? t i

/-- Writing one entry, in its place in the rising order. -/
def Table.write {α : Type} : Table α → Nat → α → Table α
  | [], i, v => [(i, v)]
  | (k, w) :: t, i, v =>
    if i < k then (i, v) :: (k, w) :: t
    else if i = k then (i, v) :: t
    else (k, w) :: Table.write t i v

/-- Writing the entries 0 .. n−1. -/
def Table.fill {α : Type} (t : Table α) (f : Nat → α) : Nat → Table α
  | 0 => t
  | n + 1 => Table.write (Table.fill t f n) n (f n)

/-- The canonical form: indices strictly rising. -/
abbrev Table.wf {α : Type} (t : Table α) : Prop :=
  (t.map Prod.fst).Pairwise (· < ·)

end Sys2Proof.Machine
end

