-- ==== Sys2Proof/Machine/Ops.lean ====
section
/-! DEFINITION. The named operations the meanings share: reading the internal arrays, entering an error,
clearing a run, counting a pixel, and answering the host. -/

namespace Sys2Proof.Machine

/-! ### The internal arrays (R50, R51, R53) -/

/-- What a pool entry holds that nothing has written since reset: free values (U10). log 2. -/
def freePool (epoch i : Nat) : PoolEntry :=
  ⟨Config.freePoolKey epoch i, Config.freePoolFreq epoch i⟩

/-- What a node entry holds that nothing has written since reset: free values (U10). log 2. -/
def freeNode (epoch i : Nat) : NodeEntry :=
  ⟨if Config.freeNodeIsLeaf epoch i then .leaf else .internal, Config.freeNodeFreq epoch i,
    Config.freeNodeLeft epoch i, Config.freeNodeRight epoch i⟩

/-- What a code entry holds that nothing has written since reset: free values (U10). log 2. -/
def freeCode (epoch i : Nat) : CodeEntry :=
  ⟨Config.freeCodeLen epoch i, Config.freeCodeBits epoch i⟩

/-- `pool[i]` (R50). -/
def Htb.poolAt (h : Htb) (i : Nat) : PoolEntry := (Table.read? h.pool i).getD (freePool h.epoch i)

/-- `node[i]` (R51). -/
def Htb.nodeAt (h : Htb) (i : Nat) : NodeEntry := (Table.read? h.node i).getD (freeNode h.epoch i)

/-- `code[i]` (R53). -/
def Htb.codeAt (h : Htb) (i : Nat) : CodeEntry := (Table.read? h.code i).getD (freeCode h.epoch i)

/-- n, the number of distinct symbols: SYM_COUNT (R13, R30). -/
abbrev Htb.n (h : Htb) : Nat := h.symCount.toNat

/-- k, the number of merges: MERGE_COUNT (R13, R31). -/
abbrev Htb.k (h : Htb) : Nat := h.mergeCount.toNat

/-! ### Errors and the end of a run -/

/-- EnterError(code), the whole effect of `raise Error(code)` (R227). It saves nothing and there is no
return from it: START, ABORT and reset leave ERROR (R229, R239). -/
def Htb.enterError (code : ErrCode) (h : Htb) : Htb :=
  Htb.signal .error { h with phase := .error, err := code }

/-- ClearRun() (R152). DIM, PROG_INTERVAL, EV_ENABLE, the SEL registers, `root_i` and the arrays keep
what they hold. -/
def Htb.clearRun (h : Htb) : Htb :=
  { h with
    phase := .idle, err := .noError, pixCount := 0, symCount := 0, mergeCount := 0
    orig := 0, comp := 0, tbits := 0, live := [], evPending := 0 }

/-! ### The histogram counter (40_histogram.md) -/

/-- The slot below n that holds the symbol: at most one does (R114); the lowest, in a state that no
run reaches where several do. log 12. -/
def Htb.findSlot (h : Htb) (sym : Key) : Option Nat :=
  (List.range h.n).find? fun s => (h.poolAt s).key == sym

/-- CountPixel, first case: the symbol is at slot `s` already (R112). -/
def Htb.countKnown (s : Nat) (h : Htb) : Htb :=
  { h with
    pool := Table.write h.pool s { h.poolAt s with freq := (h.poolAt s).freq + 1 }
    pixCount := h.pixCount + 1 }

/-- CountPixel, second case: the symbol gets slot n (R112). -/
def Htb.countNew (sym : Key) (h : Htb) : Htb :=
  { h with
    pool := Table.write h.pool h.n ⟨sym, 1⟩
    symCount := h.symCount + 1
    pixCount := h.pixCount + 1 }

/-- CountPixel(sym) (R112). -/
def Htb.countPixel (c : Config) (sym : Key) (h : Htb) : Htb :=
  match h.findSlot sym with
  | some s => h.countKnown s
  | none => if h.n < c.poolCap then h.countNew sym else h.enterError .poolOverflow

/-- The leaf of slot `s` as BuildInit makes it (R120). -/
def Htb.leafOf (h : Htb) (s : Nat) : NodeEntry := ⟨.leaf, (h.poolAt s).freq, 0, 0⟩

/-- BuildInit() (R120). -/
def Htb.buildInit (h : Htb) : Htb :=
  { h with node := Table.fill h.node h.leafOf h.n, live := List.range h.n }

/-- EndHist() (R113). -/
def Htb.endHist (h : Htb) : Htb :=
  let h := ((h.signal .histDone).signal .buildStart).buildInit
  { h with phase := .build }

/-! ### Window validity (R170) -/

/-- SlotValid: in DONE, an index below n. -/
def Htb.slotValid (h : Htb) : Bool := h.phase == .done && decide (h.slotSel.toNat < h.n)

/-- NodeValid: in DONE, an index below 2n − 1. -/
def Htb.nodeValid (h : Htb) : Bool := h.phase == .done && decide (h.nodeSel.toNat < 2 * h.n - 1)

/-- The selected slot's pool entry, where the window is valid. -/
def Htb.slotPool? (h : Htb) : Option PoolEntry :=
  if h.slotValid then some (h.poolAt h.slotSel.toNat) else none

/-- The selected slot's code entry, where the window is valid. -/
def Htb.slotCode? (h : Htb) : Option CodeEntry :=
  if h.slotValid then some (h.codeAt h.slotSel.toNat) else none

/-- The selected node, where the window is valid. -/
def Htb.node? (h : Htb) : Option NodeEntry :=
  if h.nodeValid then some (h.nodeAt h.nodeSel.toNat) else none

/-! ### Answering the host -/

/-- The outcome of an operation or step of this machine. -/
abbrev Result := Host.Outcome State Fault Refusal

/-- A read returns a value and changes nothing else (R76). -/
def State.answer (s : State) (v : Word) : Result := .next { s with reply := some v }

/-- A write returns nothing and gives the block its new state. -/
def State.commit (s : State) (h : Htb) : Result := .next { s with htb := h, reply := none }

end Sys2Proof.Machine
end

