-- ==== Sys2Proof/Machine/Commands.lean ====
section
/-! DEFINITION. The commands and the event register writes (44_commands.md). WR_CMD's dispatch (rule
R150) is the decoder's (R93). -/

namespace Sys2Proof.Machine

/-- The block after CMD_START (R151). -/
def Htb.start (h : Htb) : Htb :=
  let c := h.clearRun
  if rasterSize c.dim = 0 then c.enterError .emptyInput else { c with phase := .hist }

/-- CMD_START: accepted in every state (R151). -/
def execCmdStart (s : State) : Result := s.commit s.htb.start

/-- CMD_ABORT: accepted in every state (R153). -/
def execCmdAbort (s : State) : Result := s.commit s.htb.clearRun

/-- RSVD_CMD: an access error and nothing else, whatever the DATA (R154). -/
def execRsvdCmd (_data : Word) (s : State) : Result := s.commit (s.htb.signal .accErr)

/-- WR_EV_PENDING: write-one-to-clear, in every state (R155). -/
def execWrEvPending (data : Word) (s : State) : Result := s.commit (s.htb.ack (eventMask data))

/-- WR_EV_ENABLE: in every state (R156). -/
def execWrEvEnable (data : Word) (s : State) : Result :=
  s.commit { s.htb with evEnable := eventMask data }

end Sys2Proof.Machine
end

