-- ==== Sys2Proof/Machine/ConfigWrites.lean ====
section
/-! DEFINITION. The configuration writes and the ignored write (45_register_access.md, section 1). -/

namespace Sys2Proof.Machine

/-- A write that is refused with ACCERR while BUSY (R171, R172). -/
def Htb.unlessBusy (h written : Htb) : Htb := if h.busy then h.signal .accErr else written

/-- WR_DIM (R171). -/
def execWrDim (data : Word) (s : State) : Result :=
  s.commit (s.htb.unlessBusy { s.htb with dim := data })

/-- WR_PROG_INTERVAL (R172). -/
def execWrProgInterval (data : Word) (s : State) : Result :=
  s.commit (s.htb.unlessBusy { s.htb with progInterval := data })

/-- WR_SLOT_SEL: in every state (R173). -/
def execWrSlotSel (data : Word) (s : State) : Result :=
  s.commit { s.htb with slotSel := selIndex data }

/-- WR_NODE_SEL: in every state (R174). -/
def execWrNodeSel (data : Word) (s : State) : Result :=
  s.commit { s.htb with nodeSel := selIndex data }

/-- WR_IGNORED: no state of the block changes (R175). -/
def execWrIgnored (_off : Offset) (_data : Word) (s : State) : Result := s.commit s.htb

end Sys2Proof.Machine
end

