-- ==== Sys2Proof/Machine/Histogram.lean ====
section
/-! DEFINITION. The histogram counter: the PIXEL write (40_histogram.md). -/

namespace Sys2Proof.Machine

/-- The end of a PIXEL write: EndHist when the pixel just counted was the last (R110, R113). -/
def Htb.endHistIfLast (h : Htb) : Htb :=
  if h.phase = .hist ∧ h.pixCount.toNat = rasterSize h.dim then h.endHist else h

/-- The block after a PIXEL write (R110). -/
def Htb.pixel (c : Config) (data : Word) (h : Htb) : Htb :=
  if h.phase = .hist then (h.countPixel c (key data)).endHistIfLast else h.signal .accErr

/-- WR_PIXEL (R110). -/
def execWrPixel (data : Word) (s : State) : Result := s.commit (s.htb.pixel s.config data)

end Sys2Proof.Machine
end

