-- ==== Sys2Proof/Machine/Reads.lean ====
section
/-! DEFINITION. The register reads (45_register_access.md, section 2). A read has no side effect (rule
R76): it only answers. -/

namespace Sys2Proof.Machine

/-- A window register: the field of the selected entry where the window is valid, else 0 (R170). -/
def windowWord {α : Type} (entry : Option α) (field : α → Word) : Word :=
  match entry with
  | some e => field e
  | none => 0

/-- NODE_KIND of a valid node: 1 for a leaf, 2 for an internal node (R45, R201). -/
def kindCode : NodeKind → Word
  | .leaf => 1
  | .internal => 2

/-- A child index as NODE_LEFT and NODE_RIGHT read it: 0 for a leaf (R203, R204). -/
def childWord (e : NodeEntry) (child : Index) : Word :=
  match e.kind with
  | .leaf => 0
  | .internal => zext32 child

/-- RD_ID (R176). -/
def execRdId (s : State) : Result := s.answer 0x48544231

/-- RD_PARAM (R177). -/
def execRdParam (s : State) : Result :=
  s.answer (BitVec.ofNat 7 Config.cwMax ++ BitVec.ofNat 25 s.config.poolCap)

/-- RD_STATUS (R178). -/
def execRdStatus (s : State) : Result := s.answer s.htb.statusWord

/-- RD_ERR (R179). -/
def execRdErr (s : State) : Result := s.answer (zext32 (errCode s.htb.err))

/-- RD_DIM (R180). -/
def execRdDim (s : State) : Result := s.answer s.htb.dim

/-- RD_PIX_COUNT (R181). -/
def execRdPixCount (s : State) : Result := s.answer s.htb.pixCount

/-- RD_SYM_COUNT (R182). -/
def execRdSymCount (s : State) : Result := s.answer (zext32 s.htb.symCount)

/-- RD_MERGE_COUNT (R183). -/
def execRdMergeCount (s : State) : Result := s.answer (zext32 s.htb.mergeCount)

/-- RD_PROG_INTERVAL (R184). -/
def execRdProgInterval (s : State) : Result := s.answer s.htb.progInterval

/-- RD_EV_PENDING (R185). -/
def execRdEvPending (s : State) : Result := s.answer (zext32 s.htb.evPending)

/-- RD_EV_ENABLE (R186). -/
def execRdEvEnable (s : State) : Result := s.answer (zext32 s.htb.evEnable)

/-- RD_ORIG_LO (R187). -/
def execRdOrigLo (s : State) : Result := s.answer (lowHalf s.htb.orig)

/-- RD_ORIG_HI (R188). -/
def execRdOrigHi (s : State) : Result := s.answer (highHalf s.htb.orig)

/-- RD_COMP_LO (R189). -/
def execRdCompLo (s : State) : Result := s.answer (lowHalf s.htb.comp)

/-- RD_COMP_HI (R190). -/
def execRdCompHi (s : State) : Result := s.answer (highHalf s.htb.comp)

/-- RD_TBITS_LO (R191). -/
def execRdTbitsLo (s : State) : Result := s.answer (lowHalf s.htb.tbits)

/-- RD_TBITS_HI (R192). -/
def execRdTbitsHi (s : State) : Result := s.answer (highHalf s.htb.tbits)

/-- RD_ROOT: 0 unless STATE = DONE (R193). -/
def execRdRoot (s : State) : Result :=
  s.answer (if s.htb.phase = .done then zext32 s.htb.rootI else 0)

/-- RD_SLOT_SEL (R194). -/
def execRdSlotSel (s : State) : Result := s.answer (zext32 s.htb.slotSel)

/-- RD_SLOT_KEY (R195). -/
def execRdSlotKey (s : State) : Result :=
  s.answer (windowWord s.htb.slotPool? fun e => zext32 e.key)

/-- RD_SLOT_FREQ (R196). -/
def execRdSlotFreq (s : State) : Result :=
  s.answer (windowWord s.htb.slotPool? fun e => e.freq)

/-- RD_SLOT_CLEN (R197). -/
def execRdSlotClen (s : State) : Result :=
  s.answer (windowWord s.htb.slotCode? fun e => zext32 e.len)

/-- RD_SLOT_CBITS_LO (R198). -/
def execRdSlotCbitsLo (s : State) : Result :=
  s.answer (windowWord s.htb.slotCode? fun e => lowHalf e.bits)

/-- RD_SLOT_CBITS_HI (R199). -/
def execRdSlotCbitsHi (s : State) : Result :=
  s.answer (windowWord s.htb.slotCode? fun e => highHalf e.bits)

/-- RD_NODE_SEL (R200). -/
def execRdNodeSel (s : State) : Result := s.answer (zext32 s.htb.nodeSel)

/-- RD_NODE_KIND (R201). -/
def execRdNodeKind (s : State) : Result :=
  s.answer (windowWord s.htb.node? fun e => kindCode e.kind)

/-- RD_NODE_FREQ (R202). -/
def execRdNodeFreq (s : State) : Result := s.answer (windowWord s.htb.node? fun e => e.freq)

/-- RD_NODE_LEFT (R203). -/
def execRdNodeLeft (s : State) : Result :=
  s.answer (windowWord s.htb.node? fun e => childWord e e.left)

/-- RD_NODE_RIGHT (R204). -/
def execRdNodeRight (s : State) : Result :=
  s.answer (windowWord s.htb.node? fun e => childWord e e.right)

/-- RD_ZERO: 0 at every offset it stands for (R205). -/
def execRdZero (_off : Offset) (s : State) : Result := s.answer 0

end Sys2Proof.Machine
end

