-- ==== Sys2Proof/Machine/Dispatch.lean ====
section
/-! DEFINITION. What each host operation does (rule R100 of 30_encoding.md). -/

namespace Sys2Proof.Machine

def exec (i : Instr) (s : State) : Host.Outcome State Fault Refusal :=
  match i with
  | .cmdStart => Sys2Proof.Machine.execCmdStart s
  | .cmdAbort => Sys2Proof.Machine.execCmdAbort s
  | .rsvdCmd data => Sys2Proof.Machine.execRsvdCmd data s
  | .wrDim data => Sys2Proof.Machine.execWrDim data s
  | .wrPixel data => Sys2Proof.Machine.execWrPixel data s
  | .wrProgInterval data => Sys2Proof.Machine.execWrProgInterval data s
  | .wrEvPending data => Sys2Proof.Machine.execWrEvPending data s
  | .wrEvEnable data => Sys2Proof.Machine.execWrEvEnable data s
  | .wrSlotSel data => Sys2Proof.Machine.execWrSlotSel data s
  | .wrNodeSel data => Sys2Proof.Machine.execWrNodeSel data s
  | .wrIgnored off data => Sys2Proof.Machine.execWrIgnored off data s
  | .rdId => Sys2Proof.Machine.execRdId s
  | .rdParam => Sys2Proof.Machine.execRdParam s
  | .rdStatus => Sys2Proof.Machine.execRdStatus s
  | .rdErr => Sys2Proof.Machine.execRdErr s
  | .rdDim => Sys2Proof.Machine.execRdDim s
  | .rdPixCount => Sys2Proof.Machine.execRdPixCount s
  | .rdSymCount => Sys2Proof.Machine.execRdSymCount s
  | .rdMergeCount => Sys2Proof.Machine.execRdMergeCount s
  | .rdProgInterval => Sys2Proof.Machine.execRdProgInterval s
  | .rdEvPending => Sys2Proof.Machine.execRdEvPending s
  | .rdEvEnable => Sys2Proof.Machine.execRdEvEnable s
  | .rdOrigLo => Sys2Proof.Machine.execRdOrigLo s
  | .rdOrigHi => Sys2Proof.Machine.execRdOrigHi s
  | .rdCompLo => Sys2Proof.Machine.execRdCompLo s
  | .rdCompHi => Sys2Proof.Machine.execRdCompHi s
  | .rdTbitsLo => Sys2Proof.Machine.execRdTbitsLo s
  | .rdTbitsHi => Sys2Proof.Machine.execRdTbitsHi s
  | .rdRoot => Sys2Proof.Machine.execRdRoot s
  | .rdSlotSel => Sys2Proof.Machine.execRdSlotSel s
  | .rdSlotKey => Sys2Proof.Machine.execRdSlotKey s
  | .rdSlotFreq => Sys2Proof.Machine.execRdSlotFreq s
  | .rdSlotClen => Sys2Proof.Machine.execRdSlotClen s
  | .rdSlotCbitsLo => Sys2Proof.Machine.execRdSlotCbitsLo s
  | .rdSlotCbitsHi => Sys2Proof.Machine.execRdSlotCbitsHi s
  | .rdNodeSel => Sys2Proof.Machine.execRdNodeSel s
  | .rdNodeKind => Sys2Proof.Machine.execRdNodeKind s
  | .rdNodeFreq => Sys2Proof.Machine.execRdNodeFreq s
  | .rdNodeLeft => Sys2Proof.Machine.execRdNodeLeft s
  | .rdNodeRight => Sys2Proof.Machine.execRdNodeRight s
  | .rdZero off => Sys2Proof.Machine.execRdZero off s

end Sys2Proof.Machine
end

