-- ==== Sys2Proof/Machine/Engine.lean ====
section
/-! DEFINITION. The engine steps ENG_MERGE, ENG_BUILD_END, ENG_WALK and ENG_SIZE (41_tree_build.md,
42_code_walk.md, 43_size_estimate.md), and which of them is enabled (rule R233 of 60_exceptions.md). -/

namespace Sys2Proof.Machine

/-! ### Selection (R121) -/

/-- `i ≺ j`: by frequency, then by index (R121). -/
def Htb.precedes (h : Htb) (i j : Nat) : Bool :=
  decide ((h.nodeAt i).freq.toNat < (h.nodeAt j).freq.toNat) ||
    ((h.nodeAt i).freq == (h.nodeAt j).freq && decide (i < j))

/-- The ≺-least element of a set of node indices; none where it is empty (R121). -/
def Htb.least (h : Htb) : List Nat → Option Nat
  | [] => none
  | i :: l =>
    match h.least l with
    | none => some i
    | some j => if h.precedes j i then some j else some i

/-- The set without one element. -/
def liveWithout (a : Nat) (l : List Nat) : List Nat := l.filter fun i => i != a

/-- The set with one element more, in its place in the rising order; nothing where it is there. -/
def liveWith (m : Nat) : List Nat → List Nat
  | [] => [m]
  | i :: l => if m < i then m :: i :: l else if m = i then i :: l else i :: liveWith m l

/-! ### ENG_MERGE (R122) -/

/-- The index of the node a merge makes: its insertion sequence number (R122). -/
def Htb.newNode (h : Htb) : Nat := h.n + h.k

/-- ProgressCheck(), after the increment of MERGE_COUNT (R123). -/
def Htb.progressCheck (h : Htb) : Htb :=
  if h.progInterval ≠ 0 ∧ h.k % h.progInterval.toNat = 0 then h.signal .progress else h

/-- The internal node over `a` and `b` (R122). -/
def Htb.parentOf (h : Htb) (a b : Nat) : NodeEntry :=
  ⟨.internal, (h.nodeAt a).freq + (h.nodeAt b).freq, BitVec.ofNat 25 a, BitVec.ofNat 25 b⟩

/-- ENG_MERGE of the first-selected `a` and the second-selected `b` (R122). -/
def Htb.engMerge (a b : Nat) (h : Htb) : Htb :=
  Htb.progressCheck
    { h with
      node := Table.write h.node h.newNode (h.parentOf a b)
      live := liveWith h.newNode (liveWithout b (liveWithout a h.live))
      mergeCount := h.mergeCount + 1 }

/-! ### ENG_BUILD_END (R124) -/

/-- ENG_BUILD_END, with the single element `r` of LIVE (R124). It is the one step that writes `root_i`
(R54). log 17. -/
def Htb.engBuildEnd (r : Nat) (h : Htb) : Htb :=
  { ((h.signal .buildDone).signal .walkStart) with rootI := BitVec.ofNat 25 r, phase := .walk }

/-! ### ENG_WALK (R130..R136) -/

/-- The tree of a run, read out of the node pool (R125). -/
inductive Tree where
  | leaf (slot : Nat)
  | node (left right : Tree)
deriving DecidableEq, Repr

/-- The tree below node `i`; none where `fuel` levels do not suffice. A node that two nodes share is read
out twice, once below each. log 18. -/
def Htb.treeBelow (h : Htb) : (fuel i : Nat) → Option Tree
  | 0, _ => none
  | fuel + 1, i =>
    let e := h.nodeAt i
    match e.kind with
    | .leaf => some (.leaf i)
    | .internal =>
      match h.treeBelow fuel e.left.toNat, h.treeBelow fuel e.right.toNat with
      | some l, some r => some (.node l r)
      | _, _ => none

/-- The tree below `root_i`. A child's index is lower than its parent's (R125), so a tree with root
`r` has at most r + 1 levels. log 14. -/
def Htb.tree? (h : Htb) : Option Tree := h.treeBelow (h.rootI.toNat + 1) h.rootI.toNat

/-- path(s) of the leaf of slot `s`: left = 0, right = 1, the bit nearest the root first (R130). R130
rests on every node having one parent (R125); where a node is shared and a slot has several paths, this
is the leftmost of them. DESIGN CHOICE, log 18. -/
def Tree.path? (s : Nat) : Tree → Option (List Bool)
  | .leaf i => if i = s then some [] else none
  | .node l r =>
    match l.path? s with
    | some p => some (false :: p)
    | none =>
      match r.path? s with
      | some p => some (true :: p)
      | none => none

/-- Whether the tree has every slot below `n` as a leaf, so that R130 gives each of them a path. -/
def Tree.covers (n : Nat) (t : Tree) : Bool := (List.range n).all fun s => (t.path? s).isSome

/-- path(s) in a tree that covers slot `s` (R130). -/
def Tree.path (t : Tree) (s : Nat) : List Bool := (t.path? s).getD []

/-- The codeword as an L-digit binary number, b_1 the highest digit (R133). -/
def codewordValue (p : List Bool) : Nat := p.foldl (fun v b => 2 * v + b.toNat) 0

/-- The code entry of a codeword of at most 64 bits (R133). -/
def pack (p : List Bool) : CodeEntry :=
  ⟨BitVec.ofNat 7 p.length, BitVec.ofNat 64 (codewordValue p)⟩

/-- Some slot's path is longer than CW_MAX (R131). -/
def Tree.tooDeep (n : Nat) (t : Tree) : Bool :=
  (List.range n).any fun s => decide (Config.cwMax < (t.path s).length)

/-- ENG_WALK over the tree of the run (R131). -/
def Htb.engWalkTree (t : Tree) (h : Htb) : Htb :=
  if t.tooDeep h.n then h.enterError .codeLength
  else
    { ({ h with code := Table.fill h.code (fun s => pack (t.path s)) h.n }.signal .sizeStart) with
      phase := .size }

/-- The tree ENG_WALK walks: none where the pool below `root_i` unfolds to no finite tree, or to one
that misses a slot. log 8; a pool in which nodes are shared does unfold, log 18. -/
def Htb.runTree? (h : Htb) : Option Tree :=
  match h.tree? with
  | some t => if t.covers h.n then some t else none
  | none => none

/-! ### ENG_SIZE (R140..R144) -/

/-- Σ f(s) over s < n. -/
def sumBelow (f : Nat → Nat) : Nat → Nat
  | 0 => 0
  | n + 1 => sumBelow f n + f n

/-- Σ pool[s].freq · code[s].len over the slots (R141). -/
def Htb.totalBits (h : Htb) : Nat :=
  sumBelow (fun s => (h.poolAt s).freq.toNat * (h.codeAt s).len.toNat) h.n

/-- ceil(t / 8) (R142). -/
def compressedBytes (t : Nat) : Nat := (t + 7) / 8

/-- 4·W·H (R143). -/
def originalBytes (dim : Word) : Nat := 4 * rasterSize dim

/-- ENG_SIZE: the four writes of R140 and the event. R79 counts a write of `root_i` into this step too;
R140's pseudocode has none, and R54 and R124 give that write to ENG_BUILD_END, so `root_i` keeps here
what ENG_BUILD_END wrote. DESIGN CHOICE, log 17. -/
def Htb.engSize (h : Htb) : Htb :=
  Htb.signal .done
    { h with
      tbits := BitVec.ofNat 64 h.totalBits
      comp := BitVec.ofNat 64 (compressedBytes h.totalBits)
      orig := BitVec.ofNat 64 (originalBytes h.dim)
      phase := .done }

/-! ### Which step is enabled (R233) -/

/-- The engine steps, a merge and a build end with the live nodes they take. -/
inductive EngineStep where
  | merge (a b : Nat)
  | buildEnd (r : Nat)
  | walk
  | size
deriving DecidableEq, Repr

/-- In BUILD: ENG_MERGE of the two ≺-least elements of LIVE where it has two, ENG_BUILD_END where it
has one (R122, R124, R233). -/
def Htb.enabledInBuild (h : Htb) : Option EngineStep :=
  match h.least h.live with
  | none => none
  | some a =>
    match h.least (liveWithout a h.live) with
    | some b => some (.merge a b)
    | none => some (.buildEnd a)

/-- The one engine step enabled in a state, if any (R233). -/
def Htb.enabled (h : Htb) : Option EngineStep :=
  match h.phase with
  | .build => h.enabledInBuild
  | .walk => some .walk
  | .size => some .size
  | .idle | .hist | .done | .error => none

/-- The block after an engine step; ENG_WALK stops where some slot has no path. log 8. -/
def Htb.engine (h : Htb) : EngineStep → Except Fault Htb
  | .merge a b => .ok (h.engMerge a b)
  | .buildEnd r => .ok (h.engBuildEnd r)
  | .walk =>
    match h.runTree? with
    | some t => .ok (h.engWalkTree t)
    | none => .error .treeUndefined
  | .size => .ok h.engSize

/-- The engine's move: its enabled step, or nothing where none is enabled. It is no transaction, so
the host's last reply stays. -/
def State.engineMove (s : State) : Result :=
  match s.htb.enabled with
  | none => .next s
  | some e =>
    match s.htb.engine e with
    | .ok h => .next { s with htb := h }
    | .error f => .fault f

end Sys2Proof.Machine
end

