-- ==== Sys2Proof/Machine/Agenda.lean ====
section
/-! DEFINITION. What each event of the agenda does (rules R9, R78 and R250), and how a transaction is
put at its front. -/

namespace Sys2Proof.Machine

/-- Reset: every piece of state at its reset value, whatever the state (R250). The configuration and
what happens next stay. log 11. -/
def State.afterReset (s : State) : State :=
  { State.resetWith s.config with htb := Htb.reset (s.htb.epoch + 1), agenda := s.agenda }

/-- What an event does, once it is taken off the agenda. -/
def State.happen (s : State) : Event → Result
  | .host w => exec (decode w) s
  | .engine => s.engineMove
  | .reset => .next s.afterReset

/-- The HTW whose low `nbits` bits are those of `w`; it is no bytes in a memory (R82). log 6. -/
def htwOfBits (nbits w : Nat) : Htw := BitVec.ofNat 45 (w % 2 ^ nbits)

/-- `s` with a host transaction as the next event. -/
def State.withTransaction (s : State) (w : Htw) : State :=
  { s with agenda := .host w :: s.agenda }

end Sys2Proof.Machine
end

