-- ==== Sys2Proof/Machine/Step.lean ====
section
/-! DEFINITION. One step of HTB with the outside world (rules R9, R78, R233, R250 and R260): the next
event of the agenda, and when the agenda is used up the engine alone. -/

namespace Sys2Proof.Machine

/-- One atomic transition (R9). -/
def step (s : State) : Host.Outcome State Fault Refusal :=
  match s.agenda with
  | [] => s.engineMove
  | e :: rest => State.happen { s with agenda := rest } e

/-- `s` with a host transaction as the next event. HTB fetches no instruction (R82): a program comes
from the host. log 6. -/
def State.withFetchWord (s : State) (nbits w : Nat) : State :=
  s.withTransaction (htwOfBits nbits w)

end Sys2Proof.Machine
end

