-- ==== Sys2Proof/Machine/Assembler.lean ====
section
/-! DEFINITION. The lines and pseudo-operations of a host program (rules R101..R103 of
30_encoding.md), as data. A loop or a condition belongs to the host's program, not to HTB. -/

namespace Sys2Proof

/-- What a line accesses: a register by its name, or an offset directly (R101). -/
inductive Target where
  | named (r : Reg)
  | at (off : Offset)
deriving DecidableEq, Repr

/-- One host program line, one transaction (R101). -/
inductive AsmLine where
  /-- `wr REG, imm` or `wr @0xOFF, imm` -/
  | wr (t : Target) (imm : Word)
  /-- `rd REG` or `rd @0xOFF` -/
  | rd (t : Target)
deriving DecidableEq, Repr

/-- The offset a target stands for. -/
def targetOffset : Target → Offset
  | .named r => r.offset
  | .at off => off

/-- The HTW of a line (R101). -/
def assemble : AsmLine → Htw
  | .wr t imm => htw true (targetOffset t) imm
  | .rd t => htw false (targetOffset t) 0

/-- A name where the offset has one, else the offset (R103). -/
def targetAt (off : Offset) : Target :=
  match Reg.at? off with
  | some r => .named r
  | none => .at off

/-- The line a disassembler prints for an HTW (R103). -/
def disassemble (w : Htw) : AsmLine :=
  if htwWr w then .wr (targetAt (htwOff w)) (htwData w) else .rd (targetAt (htwOff w))

/-- The three 64-bit results (R102). -/
inductive Wide where
  | orig
  | comp
  | tbits
deriving DecidableEq, Repr

/-- The pseudo-operations (R102). -/
inductive Pseudo where
  | start
  | abort
  | dim (w h : BitVec 16)
  | push (r g b a : Byte)
  /-- `push r, g, b`: alpha is 0xFF. -/
  | pushOpaque (r g b : Byte)
  | ack (m : Word)
  | irqen (m : Word)
  | slot (i : Word)
  | node (i : Word)
  | rd64 (x : Wide)
  /-- One round of `wait`: it reads STATUS; whether to go round again is the host's (R102). -/
  | wait
deriving DecidableEq, Repr

/-- The lines a pseudo-operation stands for (R102). -/
def expand : Pseudo → List AsmLine
  | .start => [.wr (.named .cmd) 0x00000001]
  | .abort => [.wr (.named .cmd) 0x00000002]
  | .dim w h => [.wr (.named .dim) (h ++ w)]
  | .push r g b a => [.wr (.named .pixel) (a ++ b ++ g ++ r)]
  | .pushOpaque r g b => [.wr (.named .pixel) (0xFF#8 ++ b ++ g ++ r)]
  | .ack m => [.wr (.named .evPending) m]
  | .irqen m => [.wr (.named .evEnable) m]
  | .slot i => [.wr (.named .slotSel) i]
  | .node i => [.wr (.named .nodeSel) i]
  | .rd64 .orig => [.rd (.named .origLo), .rd (.named .origHi)]
  | .rd64 .comp => [.rd (.named .compLo), .rd (.named .compHi)]
  | .rd64 .tbits => [.rd (.named .tbitsLo), .rd (.named .tbitsHi)]
  | .wait => [.rd (.named .status)]

/-- The value of an `rd64` from its two reads: hi·2^32 + lo (R102). -/
def rd64Value (lo hi : Word) : Quad := hi ++ lo

/-- Whether `wait` goes round again on this STATUS: bit 3, BUSY, is 1 (R102). -/
def waitAgain (status : Word) : Bool := status &&& 0x8 != 0

/-- The transactions of a list of pseudo-operations. -/
def assembleAll (ps : List Pseudo) : List Htw := (ps.flatMap expand).map assemble

end Sys2Proof
end

