-- ==== Sys2Proof/Machine/OpcodeTable.lean ====
section
/-! DEFINITION. The rows of opcode_table.json (rule R91): each operation's match and mask, in the order
of the table's priorities. -/

namespace Sys2Proof

/-- A row of opcode_table.json. -/
structure OpRow where
  mnemonic : String
  pattern  : Htw
  mask     : Htw
  priority : Nat
deriving DecidableEq, Repr

/-- The word has the row's pattern under the row's mask. -/
def OpRow.hits (r : OpRow) (w : Htw) : Bool := w &&& r.mask == r.pattern

/-- The rows, those of lower priority number first (R91). -/
def opcodeRows : List OpRow :=
 [⟨"CMD_START", 0x100800000001, 0x1FFFFFFFFFFF, 1⟩,
  ⟨"CMD_ABORT", 0x100800000002, 0x1FFFFFFFFFFF, 1⟩,
  ⟨"RSVD_CMD", 0x100800000000, 0x1FFF00000000, 2⟩,
  ⟨"WR_DIM", 0x101400000000, 0x1FFF00000000, 3⟩,
  ⟨"WR_PIXEL", 0x101800000000, 0x1FFF00000000, 3⟩,
  ⟨"WR_PROG_INTERVAL", 0x102800000000, 0x1FFF00000000, 3⟩,
  ⟨"WR_EV_PENDING", 0x102C00000000, 0x1FFF00000000, 3⟩,
  ⟨"WR_EV_ENABLE", 0x103000000000, 0x1FFF00000000, 3⟩] ++
 [⟨"WR_SLOT_SEL", 0x105000000000, 0x1FFF00000000, 3⟩,
  ⟨"WR_NODE_SEL", 0x106800000000, 0x1FFF00000000, 3⟩,
  ⟨"RD_ID", 0x000000000000, 0x1FFF00000000, 3⟩,
  ⟨"RD_PARAM", 0x000400000000, 0x1FFF00000000, 3⟩,
  ⟨"RD_STATUS", 0x000C00000000, 0x1FFF00000000, 3⟩,
  ⟨"RD_ERR", 0x001000000000, 0x1FFF00000000, 3⟩,
  ⟨"RD_DIM", 0x001400000000, 0x1FFF00000000, 3⟩,
  ⟨"RD_PIX_COUNT", 0x001C00000000, 0x1FFF00000000, 3⟩] ++
 [⟨"RD_SYM_COUNT", 0x002000000000, 0x1FFF00000000, 3⟩,
  ⟨"RD_MERGE_COUNT", 0x002400000000, 0x1FFF00000000, 3⟩,
  ⟨"RD_PROG_INTERVAL", 0x002800000000, 0x1FFF00000000, 3⟩,
  ⟨"RD_EV_PENDING", 0x002C00000000, 0x1FFF00000000, 3⟩,
  ⟨"RD_EV_ENABLE", 0x003000000000, 0x1FFF00000000, 3⟩,
  ⟨"RD_ORIG_LO", 0x003400000000, 0x1FFF00000000, 3⟩,
  ⟨"RD_ORIG_HI", 0x003800000000, 0x1FFF00000000, 3⟩,
  ⟨"RD_COMP_LO", 0x003C00000000, 0x1FFF00000000, 3⟩] ++
 [⟨"RD_COMP_HI", 0x004000000000, 0x1FFF00000000, 3⟩,
  ⟨"RD_TBITS_LO", 0x004400000000, 0x1FFF00000000, 3⟩,
  ⟨"RD_TBITS_HI", 0x004800000000, 0x1FFF00000000, 3⟩,
  ⟨"RD_ROOT", 0x004C00000000, 0x1FFF00000000, 3⟩,
  ⟨"RD_SLOT_SEL", 0x005000000000, 0x1FFF00000000, 3⟩,
  ⟨"RD_SLOT_KEY", 0x005400000000, 0x1FFF00000000, 3⟩,
  ⟨"RD_SLOT_FREQ", 0x005800000000, 0x1FFF00000000, 3⟩,
  ⟨"RD_SLOT_CLEN", 0x005C00000000, 0x1FFF00000000, 3⟩] ++
 [⟨"RD_SLOT_CBITS_LO", 0x006000000000, 0x1FFF00000000, 3⟩,
  ⟨"RD_SLOT_CBITS_HI", 0x006400000000, 0x1FFF00000000, 3⟩,
  ⟨"RD_NODE_SEL", 0x006800000000, 0x1FFF00000000, 3⟩,
  ⟨"RD_NODE_KIND", 0x006C00000000, 0x1FFF00000000, 3⟩,
  ⟨"RD_NODE_FREQ", 0x007000000000, 0x1FFF00000000, 3⟩,
  ⟨"RD_NODE_LEFT", 0x007400000000, 0x1FFF00000000, 3⟩,
  ⟨"RD_NODE_RIGHT", 0x007800000000, 0x1FFF00000000, 3⟩,
  ⟨"WR_IGNORED", 0x100000000000, 0x100000000000, 4⟩] ++
 [⟨"RD_ZERO", 0x000000000000, 0x100000000000, 4⟩]

/-- The row a word is decoded by: the first that it hits (R91). -/
def rowOf? (w : Htw) : Option OpRow := opcodeRows.find? fun r => r.hits w

/-- The mnemonic of each operation in opcode_table.json (R103). -/
def mnemonic : Instr → String
  | .cmdStart => "CMD_START"
  | .cmdAbort => "CMD_ABORT"
  | .rsvdCmd _ => "RSVD_CMD"
  | .wrDim _ => "WR_DIM"
  | .wrPixel _ => "WR_PIXEL"
  | .wrProgInterval _ => "WR_PROG_INTERVAL"
  | .wrEvPending _ => "WR_EV_PENDING"
  | .wrEvEnable _ => "WR_EV_ENABLE"
  | .wrSlotSel _ => "WR_SLOT_SEL"
  | .wrNodeSel _ => "WR_NODE_SEL"
  | .wrIgnored _ _ => "WR_IGNORED"
  | .rdId => "RD_ID"
  | .rdParam => "RD_PARAM"
  | .rdStatus => "RD_STATUS"
  | .rdErr => "RD_ERR"
  | .rdDim => "RD_DIM"
  | .rdPixCount => "RD_PIX_COUNT"
  | .rdSymCount => "RD_SYM_COUNT"
  | .rdMergeCount => "RD_MERGE_COUNT"
  | .rdProgInterval => "RD_PROG_INTERVAL"
  | .rdEvPending => "RD_EV_PENDING"
  | .rdEvEnable => "RD_EV_ENABLE"
  | .rdOrigLo => "RD_ORIG_LO"
  | .rdOrigHi => "RD_ORIG_HI"
  | .rdCompLo => "RD_COMP_LO"
  | .rdCompHi => "RD_COMP_HI"
  | .rdTbitsLo => "RD_TBITS_LO"
  | .rdTbitsHi => "RD_TBITS_HI"
  | .rdRoot => "RD_ROOT"
  | .rdSlotSel => "RD_SLOT_SEL"
  | .rdSlotKey => "RD_SLOT_KEY"
  | .rdSlotFreq => "RD_SLOT_FREQ"
  | .rdSlotClen => "RD_SLOT_CLEN"
  | .rdSlotCbitsLo => "RD_SLOT_CBITS_LO"
  | .rdSlotCbitsHi => "RD_SLOT_CBITS_HI"
  | .rdNodeSel => "RD_NODE_SEL"
  | .rdNodeKind => "RD_NODE_KIND"
  | .rdNodeFreq => "RD_NODE_FREQ"
  | .rdNodeLeft => "RD_NODE_LEFT"
  | .rdNodeRight => "RD_NODE_RIGHT"
  | .rdZero _ => "RD_ZERO"

end Sys2Proof
end

