-- ==== Sys2Proof/Safety.lean ====
section
/-! DEFINITION. The terms claims use: what a safe step is, and the invariants of 10_state.md rule R59,
40_histogram.md rule R114, 41_tree_build.md rule R125 and 42_code_walk.md rule R134. -/

namespace Sys2Proof.Machine

/-! ### Safe steps -/

/-- The machine goes on: neither a fault nor a refusal. -/
def goesOn (r : Result) : Prop := ∃ t, r = .next t

/-- The next event is this host operation. -/
def State.nextIs (s : State) (i : Instr) : Prop :=
  ∃ w rest, s.agenda = .host w :: rest ∧ decode w = i

/-- The engine moves next: the agenda says so, or is used up. -/
def State.engineNext (s : State) : Prop := s.agenda = [] ∨ ∃ rest, s.agenda = .engine :: rest

/-- Reset comes next. -/
def State.resetNext (s : State) : Prop := ∃ rest, s.agenda = .reset :: rest

/-! ### Histogram invariants (R114) -/

/-- Σ pool[s].freq over the slots. -/
def Htb.freqSum (h : Htb) : Nat := sumBelow (fun s => (h.poolAt s).freq.toNat) h.n

/-- What the symbol pool and PIX_COUNT keep (R50, R59, R114). -/
structure Htb.HistInv (c : Config) (h : Htb) : Prop where
  keysDistinct : ∀ j, j < h.n → ∀ i, i < j → (h.poolAt i).key ≠ (h.poolAt j).key
  freqPositive : ∀ s, s < h.n → 1 ≤ (h.poolAt s).freq.toNat
  freqSum : h.freqSum = h.pixCount.toNat
  poolFits : h.n ≤ c.poolCap
  pixBounded : h.pixCount.toNat ≤ 65535 * 65535

/-! ### Tree invariants (R125) -/

/-- The phases in which the node pool holds the forest or tree of the run (R51). -/
def Phase.hasNodes : Phase → Bool
  | .build | .walk | .size | .done => true
  | .idle | .hist | .error => false

/-- The phases in which the tree is complete (R125). -/
def Phase.hasTree : Phase → Bool
  | .walk | .size | .done => true
  | .idle | .hist | .build | .error => false

/-- The phases in which the code table is that of the run (R134). -/
def Phase.hasCodes : Phase → Bool
  | .size | .done => true
  | .idle | .hist | .build | .walk | .error => false

/-- Node `p` is an internal node of this run with child `j`. -/
abbrev Htb.IsParent (h : Htb) (p j : Nat) : Prop :=
  h.n ≤ p ∧ p < h.n + h.k ∧ ((h.nodeAt p).left.toNat = j ∨ (h.nodeAt p).right.toNat = j)

/-- An internal node over two lower nodes, left ≺ right, with the sum of their frequencies (R125). -/
abbrev Htb.IsMerge (h : Htb) (i : Nat) : Prop :=
  (h.nodeAt i).kind = .internal ∧ (h.nodeAt i).left.toNat < i ∧ (h.nodeAt i).right.toNat < i ∧
  (h.nodeAt i).freq.toNat = (h.nodeAt (h.nodeAt i).left.toNat).freq.toNat +
    (h.nodeAt (h.nodeAt i).right.toNat).freq.toNat ∧
  h.precedes (h.nodeAt i).left.toNat (h.nodeAt i).right.toNat = true

/-- What the node pool and LIVE keep from BuildInit on (R51, R52, R59, R125). -/
structure Htb.ForestInv (h : Htb) : Prop where
  someSlot : 1 ≤ h.n
  leaves : ∀ i, i < h.n → h.nodeAt i = h.leafOf i
  merges : ∀ i, i < h.n + h.k → h.n ≤ i → h.IsMerge i
  liveRising : h.live.Pairwise (· < ·)
  liveBelow : ∀ i ∈ h.live, i < h.n + h.k
  liveCount : h.live.length + h.k = h.n
  liveSum : (h.live.map fun i => (h.nodeAt i).freq.toNat).sum = h.pixCount.toNat
  liveIffNoParent : ∀ j, j < h.n + h.k → (j ∈ h.live ↔ ∀ p, p < h.n + h.k → ¬ h.IsParent p j)
  oneParent : ∀ j, j < h.n + h.k → ∀ p, p < h.n + h.k → h.IsParent p j →
    ∀ q, q < h.n + h.k → h.IsParent q j → p = q

/-- What holds of the complete tree besides (R125). -/
structure Htb.RootInv (h : Htb) : Prop where
  merges : h.k + 1 = h.n
  root : h.rootI.toNat + 2 = 2 * h.n

/-! ### Code invariants (R131, R134) -/

/-- The code table is the packed paths of the run's tree, none of them too long (R131). -/
def Htb.CodeInv (h : Htb) : Prop :=
  ∃ t, h.runTree? = some t ∧ t.tooDeep h.n = false ∧
    ∀ s, s < h.n → h.codeAt s = pack (t.path s)

/-! ### The whole block -/

/-- The arrays keep their canonical form and stay within their capacities (R50, R51, R53). -/
structure Htb.TablesInv (c : Config) (h : Htb) : Prop where
  pool : Table.wf h.pool
  node : Table.wf h.node
  code : Table.wf h.code
  poolBound : ∀ e ∈ h.pool, e.1 < c.poolCap
  nodeBound : ∀ e ∈ h.node, e.1 < c.nodeCap
  codeBound : ∀ e ∈ h.code, e.1 < c.poolCap

/-- The results that ENG_SIZE leaves (R59, R140). -/
structure Htb.ResultInv (h : Htb) : Prop where
  orig : h.orig.toNat = 4 * h.pixCount.toNat
  tbits : h.tbits.toNat = h.totalBits
  comp : h.comp.toNat = compressedBytes h.totalBits

/-- The invariant of the block: R59, R114, R125 and R134, phase by phase, and the bound on MERGE_COUNT
in every phase that R144 rests on. -/
structure Htb.Inv (c : Config) (h : Htb) : Prop where
  tables : h.TablesInv c
  hist : h.HistInv c
  errIffError : h.err ≠ .noError ↔ h.phase = .error
  noResult : h.phase ≠ .done → h.orig = 0 ∧ h.comp = 0 ∧ h.tbits = 0
  idleEmpty : h.phase = .idle → h.pixCount = 0 ∧ h.symCount = 0
  noMergeYet : h.phase = .idle ∨ h.phase = .hist → h.mergeCount = 0 ∧ h.live = []
  mergesBelow : h.k = 0 ∨ h.k < h.n
  moreToCome : h.phase = .hist → h.pixCount.toNat < rasterSize h.dim
  allCounted : h.phase = .build ∨ h.phase = .walk ∨ h.phase = .size →
    h.pixCount.toNat = rasterSize h.dim
  forest : h.phase.hasNodes = true → h.ForestInv
  root : h.phase.hasTree = true → h.RootInv
  codes : h.phase.hasCodes = true → h.CodeInv
  results : h.phase = .done → h.ResultInv

/-- The invariant of the machine. -/
def State.Inv (s : State) : Prop := s.htb.Inv s.config

/-! ### What the host can tell apart (R57) -/

/-- Two blocks agree on everything a rule reads: every register, the pool entries below n, the nodes
0 .. n+k−1 where they are defined, the codes below n where they are written, and `root_i` where it is
(R57). What reset left unspecified, and stale entries of an earlier run, are not compared. -/
structure Htb.Agree (g h : Htb) : Prop where
  phase : g.phase = h.phase
  err : g.err = h.err
  dim : g.dim = h.dim
  pixCount : g.pixCount = h.pixCount
  symCount : g.symCount = h.symCount
  mergeCount : g.mergeCount = h.mergeCount
  progInterval : g.progInterval = h.progInterval
  evPending : g.evPending = h.evPending
  evEnable : g.evEnable = h.evEnable
  orig : g.orig = h.orig
  comp : g.comp = h.comp
  tbits : g.tbits = h.tbits
  slotSel : g.slotSel = h.slotSel
  nodeSel : g.nodeSel = h.nodeSel
  live : g.live = h.live
  pool : ∀ i, i < h.n → g.poolAt i = h.poolAt i
  node : h.phase.hasNodes = true → ∀ i, i < h.n + h.k → g.nodeAt i = h.nodeAt i
  code : h.phase.hasCodes = true → ∀ i, i < h.n → g.codeAt i = h.codeAt i
  root : h.phase.hasTree = true → g.rootI = h.rootI

/-- Two machines that agree: equal but for what no rule reads. -/
structure State.Agree (s t : State) : Prop where
  config : s.config = t.config
  htb : Htb.Agree s.htb t.htb
  agenda : s.agenda = t.agenda
  reply : s.reply = t.reply

end Sys2Proof.Machine
end

