-- ==== Sys2Proof/Certificates/Slice0/Obligations.lean ====
section
/-! DEFINITION. The statements for the provers. Each is about every state, so about every agenda: every
interleaving of host, engine and reset (rule R78). -/

open Sys2Proof Sys2Proof.Machine

/-! ### Encoding (30_encoding.md) -/

/-- R91, R93 on words that 95_test_vectors.md and opcode_table.json write out. -/
def Obligations.SpecWordsDecodeToTheirOperations : Prop :=
  decode 0x100800000001 = .cmdStart ∧ decode 0x100800000002 = .cmdAbort ∧
  decode 0x100800000011 = .rsvdCmd 0x11 ∧ decode 0x101400010002 = .wrDim 0x00010002 ∧
  decode 0x1018FF0A0A0A = .wrPixel 0xFF0A0A0A ∧ decode 0x102800000002 = .wrProgInterval 2 ∧
  decode 0x102C00000040 = .wrEvPending 0x40 ∧ decode 0x1030000000C0 = .wrEvEnable 0xC0 ∧
  decode 0x1050FFFFFFFF = .wrSlotSel 0xFFFFFFFF ∧ decode 0x106800000007 = .wrNodeSel 7 ∧
  decode 0x100900000001 = .wrIgnored 0x009 1 ∧ decode 0x100C00000005 = .wrIgnored 0x00C 5 ∧
  decode 0x000C00000000 = .rdStatus ∧ decode 0x007800000000 = .rdNodeRight ∧
  decode 0x000800000000 = .rdZero 0x008 ∧ decode 0x010000000000 = .rdZero 0x100

/-- No bit of an encoding is dropped: every well-formed operation is what its word decodes to. -/
def Obligations.DecodeInvertsEncode : Prop :=
  ∀ i : Instr, i.wf = true → decode (encode i) = i

/-- Every word decodes to a well-formed operation, and a word that is a write, or a read with DATA 0
(R90), is the encoding of the operation it decodes to. -/
def Obligations.EncodeInvertsDecode : Prop :=
  ∀ w : Htw, (decode w).wf = true ∧
    (htwWr w = true ∨ htwData w = 0 → encode (decode w) = w)

/-- R91: the operation a word decodes to is that of the first row of opcode_table.json it matches, the
rows of lower priority number tried first; every word matches some row. -/
def Obligations.FirstMatchingRowDecides : Prop :=
  opcodeRows.Pairwise (fun r q => r.priority ≤ q.priority) ∧
  ∀ w : Htw, ∃ r, rowOf? w = some r ∧ r.mnemonic = mnemonic (decode w)

/-- R103: a disassembled line assembles to the word it came from, and it names the register where the
offset has one. -/
def Obligations.DisassembledLinesAssembleBack : Prop :=
  (∀ w : Htw, htwWr w = true ∨ htwData w = 0 → assemble (disassemble w) = w) ∧
  (∀ r : Reg, ∀ d : Word, disassemble (htw true r.offset d) = .wr (.named r) d ∧
    disassemble (htw false r.offset d) = .rd (.named r))

/-- R102: what the pseudo-operations stand for. -/
def Obligations.PseudoOperationsExpand : Prop :=
  (assembleAll [.start]).map decode = [.cmdStart] ∧
  (assembleAll [.abort]).map decode = [.cmdAbort] ∧
  (∀ w h : BitVec 16, ∃ d : Word, d.toNat = h.toNat * 2 ^ 16 + w.toNat ∧
    dimWidth d = w ∧ dimHeight d = h ∧ (assembleAll [.dim w h]).map decode = [.wrDim d]) ∧
  (∀ r g b a : Byte, ∃ d : Word,
    d.toNat = a.toNat * 2 ^ 24 + b.toNat * 2 ^ 16 + g.toNat * 2 ^ 8 + r.toNat ∧
    pixelR d = r ∧ pixelG d = g ∧ pixelB d = b ∧ pixelA d = a ∧
    (assembleAll [.push r g b a]).map decode = [.wrPixel d]) ∧
  (∀ r g b : Byte, assembleAll [.pushOpaque r g b] = assembleAll [.push r g b 0xFF]) ∧
  (∀ m : Word, (assembleAll [.ack m]).map decode = [.wrEvPending m] ∧
    (assembleAll [.irqen m]).map decode = [.wrEvEnable m] ∧
    (assembleAll [.slot m]).map decode = [.wrSlotSel m] ∧
    (assembleAll [.node m]).map decode = [.wrNodeSel m]) ∧
  (assembleAll [.rd64 .orig]).map decode = [.rdOrigLo, .rdOrigHi] ∧
  (assembleAll [.rd64 .comp]).map decode = [.rdCompLo, .rdCompHi] ∧
  (assembleAll [.rd64 .tbits]).map decode = [.rdTbitsLo, .rdTbitsHi] ∧
  (∀ lo hi : Word, (rd64Value lo hi).toNat = hi.toNat * 2 ^ 32 + lo.toNat) ∧
  (assembleAll [.wait]).map decode = [.rdStatus] ∧
  (∀ h : Htb, waitAgain h.statusWord = h.busy)

/-- R70, R77: the window is 4096 bytes from HTB_BASE on, whatever HTB_BASE is. -/
def Obligations.WindowIsTheBytesFromTheBase : Prop :=
  (∀ off : Offset, windowOffset? (hostAddress off) = some off) ∧
  (∀ addr off, windowOffset? addr = some off → addr = hostAddress off)

/-! ### Steps, reset and the invariant -/

/-- R9, R78: one step is the next event of the agenda, a host transaction being the operation it
decodes to; with the agenda used up the engine moves alone (log 3). -/
def Obligations.StepRunsTheNextEvent : Prop :=
  (∀ s w i rest, s.agenda = .host w :: rest → decode w = i →
    step s = exec i { s with agenda := rest }) ∧
  (∀ s rest, s.agenda = .engine :: rest → step s = State.engineMove { s with agenda := rest }) ∧
  (∀ s rest, s.agenda = .reset :: rest →
    step s = .next (State.afterReset { s with agenda := rest })) ∧
  (∀ s, s.agenda = [] → step s = s.engineMove)

/-- R233: which engine step is enabled in each state. Where none is, the engine's turn changes nothing
but the agenda it is taken off, which is the model's form (log 3). -/
def Obligations.OneEngineStepIsEnabledPerState : Prop :=
  (∀ (c : Config) (h : Htb), h.Inv c →
    (h.phase = .idle ∨ h.phase = .hist ∨ h.phase = .done ∨ h.phase = .error →
      h.enabled = none) ∧
    (h.phase = .build → 1 ≤ h.live.length) ∧
    (h.phase = .build → 2 ≤ h.live.length → ∃ a b, h.enabled = some (.merge a b)) ∧
    (h.phase = .build → h.live.length = 1 → ∃ r, h.live = [r] ∧ h.enabled = some (.buildEnd r)) ∧
    (h.phase = .walk → h.enabled = some .walk) ∧
    (h.phase = .size → h.enabled = some .size)) ∧
  (∀ s : State, s.engineNext → s.htb.enabled = none →
    step s = .next { s with agenda := s.agenda.tail })

/-- R250, R251: a reset event, in any state. What it leaves in `root_i` and the arrays is unspecified,
so nothing is said of them. That the configuration, and the events still to come, stay as they are
is the model's form (logs 1 and 3). -/
def Obligations.ResetEventPutsEveryRegister : Prop :=
  ∀ s rest, s.agenda = .reset :: rest → ∃ t, step s = .next t ∧
    t.htb.phase = .idle ∧ t.htb.err = .noError ∧ t.htb.dim = 0 ∧ t.htb.pixCount = 0 ∧
    t.htb.symCount = 0 ∧ t.htb.mergeCount = 0 ∧ t.htb.progInterval = 500 ∧ t.htb.evPending = 0 ∧
    t.htb.evEnable = 0 ∧ t.htb.orig = 0 ∧ t.htb.comp = 0 ∧ t.htb.tbits = 0 ∧ t.htb.slotSel = 0 ∧
    t.htb.nodeSel = 0 ∧ t.htb.live = [] ∧ t.htb.irq = false ∧
    t.config = s.config ∧ t.agenda = rest

/-- R58: every value the table of R58 gives, as the host reads it after power-on, for every POOL_CAP. -/
def Obligations.PowerOnReadsTheResetTable : Prop :=
  ∀ (c : Config) (s : State), s = State.resetWith c →
    s.htb.phase = .idle ∧ s.htb.live = [] ∧ s.htb.irq = false ∧ s.htb.busy = false ∧
    s.htb.resultValid = false ∧
    exec .rdId s = .next { s with reply := some 0x48544231 } ∧
    exec .rdParam s = .next { s with reply := some (0x80000000 ||| BitVec.ofNat 32 c.poolCap) } ∧
    exec .rdProgInterval s = .next { s with reply := some 500 } ∧
    (∀ i ∈ [Instr.rdStatus, .rdErr, .rdDim, .rdPixCount, .rdSymCount, .rdMergeCount, .rdEvPending,
        .rdEvEnable, .rdOrigLo, .rdOrigHi, .rdCompLo, .rdCompHi, .rdTbitsLo, .rdTbitsHi, .rdRoot,
        .rdSlotSel, .rdSlotKey, .rdSlotFreq, .rdSlotClen, .rdSlotCbitsLo, .rdSlotCbitsHi,
        .rdNodeSel, .rdNodeKind, .rdNodeFreq, .rdNodeLeft, .rdNodeRight],
      exec i s = .next { s with reply := some 0 })

/-- The state after reset meets the invariant, for every POOL_CAP. -/
def Obligations.ResetMeetsTheInvariant : Prop :=
  (∀ c, (State.resetWith c).Inv) ∧ State.reset.Inv

/-- R59, R114, R125, R134: from every state that meets the invariant, a step gives a state that does. -/
def Obligations.EveryStepKeepsTheInvariant : Prop :=
  ∀ s t, s.Inv → step s = .next t → t.Inv

/-- From every state that meets the invariant the machine goes on: ENG_WALK always finds a path for
every slot, so the model's one fault (log 8) is never raised. -/
def Obligations.NoStepStops : Prop :=
  ∀ s, s.Inv → goesOn (step s)

/-- R76, R98: no encoding traps the host. Every host operation completes, in every state; a read, at
every offset and whatever DATA its word carries, only answers, and a write answers nothing. -/
def Obligations.HostOperationsAlwaysComplete : Prop :=
  ∀ (w : Htw) (s : State), ∃ t, exec (decode w) s = .next t ∧ t.config = s.config ∧
    t.agenda = s.agenda ∧
    (htwWr w = false → ∃ v, t = { s with reply := some v }) ∧
    (htwWr w = true → t.reply = none)

/-! ### Reads (45_register_access.md) -/

/-- R176, R177. -/
def Obligations.IdAndParamRead : Prop :=
  ∀ s : State, exec .rdId s = .next { s with reply := some 0x48544231 } ∧
    exec .rdParam s =
      .next { s with reply := some (0x80000000 ||| BitVec.ofNat 32 s.config.poolCap) }

/-- R24, R178, R231: every bit of STATUS; IRQ is the OR of the events both pending and enabled. -/
def Obligations.StatusReadGivesEveryField : Prop :=
  ∀ s : State, ∃ v : Word, exec .rdStatus s = .next { s with reply := some v } ∧
    (s.htb.phase = .idle → v.extractLsb' 0 3 = 0) ∧ (s.htb.phase = .hist → v.extractLsb' 0 3 = 1) ∧
    (s.htb.phase = .build → v.extractLsb' 0 3 = 2) ∧ (s.htb.phase = .walk → v.extractLsb' 0 3 = 3) ∧
    (s.htb.phase = .size → v.extractLsb' 0 3 = 4) ∧ (s.htb.phase = .done → v.extractLsb' 0 3 = 5) ∧
    (s.htb.phase = .error → v.extractLsb' 0 3 = 6) ∧
    (v.getLsbD 3 = true ↔ s.htb.phase = .hist ∨ s.htb.phase = .build ∨ s.htb.phase = .walk ∨
      s.htb.phase = .size) ∧
    (v.getLsbD 4 = true ↔ s.htb.phase = .done) ∧
    (v.getLsbD 5 = true ↔
      ∃ e, evIn s.htb.evPending e = true ∧ evIn s.htb.evEnable e = true) ∧
    v.getLsbD 5 = s.htb.irq ∧
    v.extractLsb' 6 26 = 0

/-- R179..R186: the registers that are read as they stand. ERR is 0 unless STATE = ERROR, and
its codes are the numbers of R26 and R221. -/
def Obligations.PlainRegistersRead : Prop :=
  ∀ s : State,
    exec .rdErr s = .next { s with reply := some (zext32 (errCode s.htb.err)) } ∧
    (s.htb.err = .noError → exec .rdErr s = .next { s with reply := some 0 }) ∧
    (s.htb.err = .emptyInput → exec .rdErr s = .next { s with reply := some 1 }) ∧
    (s.htb.err = .poolOverflow → exec .rdErr s = .next { s with reply := some 2 }) ∧
    (s.htb.err = .codeLength → exec .rdErr s = .next { s with reply := some 3 }) ∧
    (s.Inv → s.htb.phase ≠ .error → exec .rdErr s = .next { s with reply := some 0 }) ∧
    exec .rdDim s = .next { s with reply := some s.htb.dim } ∧
    exec .rdPixCount s = .next { s with reply := some s.htb.pixCount } ∧
    exec .rdSymCount s = .next { s with reply := some (zext32 s.htb.symCount) } ∧
    exec .rdMergeCount s = .next { s with reply := some (zext32 s.htb.mergeCount) } ∧
    exec .rdProgInterval s = .next { s with reply := some s.htb.progInterval } ∧
    exec .rdEvPending s = .next { s with reply := some (zext32 s.htb.evPending) } ∧
    exec .rdEvEnable s = .next { s with reply := some (zext32 s.htb.evEnable) }

/-- R74, R187..R192: each 64-bit result is read as its two halves, and reads 0 outside DONE. -/
def Obligations.ResultsReadInHalves : Prop :=
  ∀ s : State,
    (∃ lo hi : Word, hi ++ lo = s.htb.orig ∧ exec .rdOrigLo s = .next { s with reply := some lo } ∧
      exec .rdOrigHi s = .next { s with reply := some hi } ∧
      (s.Inv → s.htb.phase ≠ .done → lo = 0 ∧ hi = 0)) ∧
    (∃ lo hi : Word, hi ++ lo = s.htb.comp ∧ exec .rdCompLo s = .next { s with reply := some lo } ∧
      exec .rdCompHi s = .next { s with reply := some hi } ∧
      (s.Inv → s.htb.phase ≠ .done → lo = 0 ∧ hi = 0)) ∧
    (∃ lo hi : Word, hi ++ lo = s.htb.tbits ∧
      exec .rdTbitsLo s = .next { s with reply := some lo } ∧
      exec .rdTbitsHi s = .next { s with reply := some hi } ∧
      (s.Inv → s.htb.phase ≠ .done → lo = 0 ∧ hi = 0))

/-- R193, R194, R200. -/
def Obligations.RootAndSelectorsRead : Prop :=
  ∀ s : State,
    (s.htb.phase = .done → exec .rdRoot s = .next { s with reply := some (zext32 s.htb.rootI) }) ∧
    (s.htb.phase ≠ .done → exec .rdRoot s = .next { s with reply := some 0 }) ∧
    exec .rdSlotSel s = .next { s with reply := some (zext32 s.htb.slotSel) } ∧
    exec .rdNodeSel s = .next { s with reply := some (zext32 s.htb.nodeSel) }

/-- R170, R195..R199: the slot window, in DONE and below n, and 0 everywhere else. -/
def Obligations.SlotWindowReads : Prop :=
  ∀ s : State,
    (s.htb.phase = .done → s.htb.slotSel.toNat < s.htb.n →
      exec .rdSlotKey s =
        .next { s with reply := some (zext32 (s.htb.poolAt s.htb.slotSel.toNat).key) } ∧
      exec .rdSlotFreq s = .next { s with reply := some (s.htb.poolAt s.htb.slotSel.toNat).freq } ∧
      exec .rdSlotClen s =
        .next { s with reply := some (zext32 (s.htb.codeAt s.htb.slotSel.toNat).len) } ∧
      ∃ lo hi : Word, hi ++ lo = (s.htb.codeAt s.htb.slotSel.toNat).bits ∧
        exec .rdSlotCbitsLo s = .next { s with reply := some lo } ∧
        exec .rdSlotCbitsHi s = .next { s with reply := some hi }) ∧
    (¬ (s.htb.phase = .done ∧ s.htb.slotSel.toNat < s.htb.n) →
      ∀ i ∈ [Instr.rdSlotKey, .rdSlotFreq, .rdSlotClen, .rdSlotCbitsLo, .rdSlotCbitsHi],
        exec i s = .next { s with reply := some 0 })

/-- R170, R201..R204: the node window, in DONE and below 2n − 1, and 0 everywhere else. -/
def Obligations.NodeWindowReads : Prop :=
  ∀ (s : State) (e : NodeEntry), e = s.htb.nodeAt s.htb.nodeSel.toNat →
    (s.htb.phase = .done → s.htb.nodeSel.toNat < 2 * s.htb.n - 1 →
      exec .rdNodeFreq s = .next { s with reply := some e.freq } ∧
      (e.kind = .leaf → exec .rdNodeKind s = .next { s with reply := some 1 } ∧
        exec .rdNodeLeft s = .next { s with reply := some 0 } ∧
        exec .rdNodeRight s = .next { s with reply := some 0 }) ∧
      (e.kind = .internal → exec .rdNodeKind s = .next { s with reply := some 2 } ∧
        exec .rdNodeLeft s = .next { s with reply := some (zext32 e.left) } ∧
        exec .rdNodeRight s = .next { s with reply := some (zext32 e.right) })) ∧
    (¬ (s.htb.phase = .done ∧ s.htb.nodeSel.toNat < 2 * s.htb.n - 1) →
      ∀ i ∈ [Instr.rdNodeKind, .rdNodeFreq, .rdNodeLeft, .rdNodeRight],
        exec i s = .next { s with reply := some 0 })

/-- R205: CMD, PIXEL, every reserved and every misaligned offset read 0, whatever DATA the word
carries, and change nothing. -/
def Obligations.ZeroReads : Prop :=
  ∀ (off : Offset) (data : Word) (s : State),
    off = 0x008 ∨ off = 0x018 ∨ 0x07C ≤ off.toNat ∨ off.toNat % 4 ≠ 0 →
    decode (htw false off data) = .rdZero off ∧
    exec (.rdZero off) s = .next { s with reply := some 0 }

/-- R254: while STATE ≠ DONE, every result register and every window register reads 0. -/
def Obligations.NothingIsReadBeforeDone : Prop :=
  ∀ s : State, s.Inv → s.htb.phase ≠ .done →
    ∀ i ∈ [Instr.rdOrigLo, .rdOrigHi, .rdCompLo, .rdCompHi, .rdTbitsLo, .rdTbitsHi, .rdRoot,
        .rdSlotKey, .rdSlotFreq, .rdSlotClen, .rdSlotCbitsLo, .rdSlotCbitsHi, .rdNodeKind,
        .rdNodeFreq, .rdNodeLeft, .rdNodeRight],
      exec i s = .next { s with reply := some 0 }

/-! ### Writes of configuration and events (44_commands.md, 45_register_access.md) -/

/-- R171, R172: DIM and PROG_INTERVAL are stored while not BUSY, and refused with ACCERR while BUSY;
nothing else changes. -/
def Obligations.ConfigWritesWaitForNotBusy : Prop :=
  ∀ (data : Word) (s : State),
    (s.htb.phase = .idle ∨ s.htb.phase = .done ∨ s.htb.phase = .error →
      exec (.wrDim data) s = .next { s with htb := { s.htb with dim := data }, reply := none } ∧
      exec (.wrProgInterval data) s =
        .next { s with htb := { s.htb with progInterval := data }, reply := none }) ∧
    (s.htb.phase = .hist ∨ s.htb.phase = .build ∨ s.htb.phase = .walk ∨ s.htb.phase = .size →
      exec (.wrDim data) s =
        .next { s with
          htb := { s.htb with evPending := s.htb.evPending ||| 0x100 }, reply := none } ∧
      exec (.wrProgInterval data) s =
        .next { s with
          htb := { s.htb with evPending := s.htb.evPending ||| 0x100 }, reply := none }) ∧
    data.toNat = (dimHeight data).toNat * 2 ^ 16 + (dimWidth data).toNat

/-- R173, R174: DATA[24:0] is stored in every state and DATA[31:25] dropped; the register then reads
so, and an index out of range makes the window read 0. -/
def Obligations.SelectorWritesKeepTwentyFiveBits : Prop :=
  ∀ (data : Word) (s : State),
    (∃ v : Index, v.toNat = data.toNat % 2 ^ 25 ∧ ∃ t,
      t = { s with htb := { s.htb with slotSel := v }, reply := none } ∧
      exec (.wrSlotSel data) s = .next t ∧
      exec .rdSlotSel t = .next { t with reply := some (data &&& 0x01FFFFFF) } ∧
      (s.htb.n ≤ v.toNat →
        ∀ i ∈ [Instr.rdSlotKey, .rdSlotFreq, .rdSlotClen, .rdSlotCbitsLo, .rdSlotCbitsHi],
          exec i t = .next { t with reply := some 0 })) ∧
    (∃ v : Index, v.toNat = data.toNat % 2 ^ 25 ∧ ∃ t,
      t = { s with htb := { s.htb with nodeSel := v }, reply := none } ∧
      exec (.wrNodeSel data) s = .next t ∧
      exec .rdNodeSel t = .next { t with reply := some (data &&& 0x01FFFFFF) } ∧
      (2 * s.htb.n - 1 ≤ v.toNat →
        ∀ i ∈ [Instr.rdNodeKind, .rdNodeFreq, .rdNodeLeft, .rdNodeRight],
          exec i t = .next { t with reply := some 0 }))

/-- R175: a write to any other offset than the eight of its rule changes nothing and does not signal
ACCERR. -/
def Obligations.OtherWritesAreIgnored : Prop :=
  ∀ (off : Offset) (data : Word) (s : State),
    off ∉ [0x008, 0x014, 0x018, 0x028, 0x02C, 0x030, 0x050, 0x068] →
    decode (htw true off data) = .wrIgnored off data ∧
    exec (.wrIgnored off data) s = .next { s with reply := none }

/-- R155: a write to EV_PENDING clears exactly the bits written as 1, and changes nothing else. -/
def Obligations.AckClearsExactlyItsBits : Prop :=
  ∀ (data : Word) (s : State), ∃ v : Events,
    exec (.wrEvPending data) s =
      .next { s with htb := { s.htb with evPending := v }, reply := none } ∧
    ∀ e, evIn v e = (evIn s.htb.evPending e && !data.getLsbD (evBit e))

/-- R156: a write to EV_ENABLE stores DATA[8:0], and changes nothing else. The interrupt is up in the
next state exactly when some event already pending is written as enabled. -/
def Obligations.EnableWriteStoresItsMask : Prop :=
  ∀ (data : Word) (s : State), ∃ v : Events,
    exec (.wrEvEnable data) s =
      .next { s with htb := { s.htb with evEnable := v }, reply := none } ∧
    (∀ e, evIn v e = data.getLsbD (evBit e)) ∧
    (Htb.irq { s.htb with evEnable := v } = true ↔
      ∃ e, evIn s.htb.evPending e = true ∧ data.getLsbD (evBit e) = true)

/-! ### Commands (44_commands.md) -/

/-- R151, R152, R222: START in every state. Everything of the old run is cleared; the configuration
registers, `root_i` and the arrays keep what they hold. -/
def Obligations.StartBeginsARun : Prop :=
  ∀ s : State,
    ((dimWidth s.htb.dim).toNat * (dimHeight s.htb.dim).toNat ≠ 0 →
      exec .cmdStart s = .next { s with
        htb := { s.htb with
          phase := .hist, err := .noError, pixCount := 0, symCount := 0, mergeCount := 0, orig := 0
          comp := 0, tbits := 0, live := [], evPending := 0 }
        reply := none }) ∧
    (dimWidth s.htb.dim = 0 ∨ dimHeight s.htb.dim = 0 →
      exec .cmdStart s = .next { s with
        htb := { s.htb with
          phase := .error, err := .emptyInput, pixCount := 0, symCount := 0, mergeCount := 0
          orig := 0, comp := 0, tbits := 0, live := [], evPending := 0x080 }
        reply := none })

/-- R152, R153: ABORT in every state; in IDLE it changes only EV_PENDING. -/
def Obligations.AbortClearsTheRun : Prop :=
  ∀ s : State,
    exec .cmdAbort s = .next { s with
      htb := { s.htb with
        phase := .idle, err := .noError, pixCount := 0, symCount := 0, mergeCount := 0, orig := 0
        comp := 0, tbits := 0, live := [], evPending := 0 }
      reply := none } ∧
    (s.Inv → s.htb.phase = .idle →
      exec .cmdAbort s = .next { s with
        htb := { s.htb with evPending := 0 }, reply := none })

/-- R154: any other value written to CMD signals ACCERR (bit 8) and changes nothing else. -/
def Obligations.ReservedCommandsSignalAccErr : Prop :=
  ∀ (data : Word) (s : State), data ≠ 0x00000001 → data ≠ 0x00000002 →
    decode (htw true 0x008 data) = .rsvdCmd data ∧
    exec (.rsvdCmd data) s = .next { s with
      htb := { s.htb with evPending := s.htb.evPending ||| 0x100 }, reply := none }

/-- R56, R158: nothing a rule reads survives a START but the host's configuration registers. -/
def Obligations.StartForgetsTheOldRun : Prop :=
  ∀ g h : Htb, g.dim = h.dim → g.progInterval = h.progInterval → g.evEnable = h.evEnable →
    g.slotSel = h.slotSel → g.nodeSel = h.nodeSel → Htb.Agree g.start h.start

/-! ### The histogram counter (40_histogram.md) -/

/-- R110: a PIXEL write outside HIST is dropped with ACCERR. -/
def Obligations.PixelsOutsideHistAreDropped : Prop :=
  ∀ (data : Word) (s : State), s.htb.phase ≠ .hist →
    exec (.wrPixel data) s = .next { s with
      htb := { s.htb with evPending := s.htb.evPending ||| 0x100 }, reply := none }

/-- R111, R115: the key is {R, G, B}; two pixel words have the same symbol iff their bits [23:0] are
equal, and then they do the same in every state. -/
def Obligations.AlphaTakesNoPart : Prop :=
  (∀ d : Word, (key d).toNat =
    (pixelR d).toNat * 2 ^ 16 + (pixelG d).toNat * 2 ^ 8 + (pixelB d).toNat) ∧
  (∀ d e : Word, key d = key e ↔ d.extractLsb' 0 24 = e.extractLsb' 0 24) ∧
  (∀ (d e : Word) (s : State), d.extractLsb' 0 24 = e.extractLsb' 0 24 →
    exec (.wrPixel d) s = exec (.wrPixel e) s)

/-- R110, R112, first case: a pixel whose symbol is in the pool, not the last of the raster. -/
def Obligations.KnownPixelAddsOneToItsSlot : Prop :=
  ∀ (data : Word) (s : State) (slot : Nat), s.Inv → s.htb.phase = .hist → slot < s.htb.n →
    (s.htb.poolAt slot).key = key data →
    s.htb.pixCount.toNat + 1 < (dimWidth s.htb.dim).toNat * (dimHeight s.htb.dim).toNat →
    ∃ t, exec (.wrPixel data) s = .next t ∧
      (t.htb.poolAt slot).key = key data ∧
      (t.htb.poolAt slot).freq.toNat = (s.htb.poolAt slot).freq.toNat + 1 ∧
      (∀ i, i ≠ slot → t.htb.poolAt i = s.htb.poolAt i) ∧
      t.htb.pixCount.toNat = s.htb.pixCount.toNat + 1 ∧
      t = { s with
        htb := { s.htb with pool := t.htb.pool, pixCount := t.htb.pixCount }, reply := none }

/-- R110, R112, second case: a new symbol with room in the pool, not the last pixel of the raster. -/
def Obligations.NewPixelTakesTheNextSlot : Prop :=
  ∀ (data : Word) (s : State), s.Inv → s.htb.phase = .hist →
    (∀ i, i < s.htb.n → (s.htb.poolAt i).key ≠ key data) → s.htb.n < s.config.poolCap →
    s.htb.pixCount.toNat + 1 < (dimWidth s.htb.dim).toNat * (dimHeight s.htb.dim).toNat →
    ∃ t, exec (.wrPixel data) s = .next t ∧
      t.htb.poolAt s.htb.n = ⟨key data, 1⟩ ∧
      (∀ i, i ≠ s.htb.n → t.htb.poolAt i = s.htb.poolAt i) ∧
      t.htb.n = s.htb.n + 1 ∧ t.htb.pixCount.toNat = s.htb.pixCount.toNat + 1 ∧
      t = { s with
        htb := { s.htb with
          pool := t.htb.pool, symCount := t.htb.symCount, pixCount := t.htb.pixCount }
        reply := none }

/-- R112, R223, R227: a new symbol when the pool is full ends the run in ERROR; the pixel is not
counted. -/
def Obligations.PoolOverflowEndsTheRun : Prop :=
  ∀ (data : Word) (s : State), s.htb.phase = .hist →
    (∀ i, i < s.htb.n → (s.htb.poolAt i).key ≠ key data) → s.htb.n = s.config.poolCap →
    exec (.wrPixel data) s = .next { s with
      htb := { s.htb with
        phase := .error, err := .poolOverflow, evPending := s.htb.evPending ||| 0x080 }
      reply := none }

/-- R223: with POOL_CAP = 2^24 there is a slot for every key, and no step raises POOL_OVERFLOW. -/
def Obligations.TheFullPoolNeverOverflows : Prop :=
  ∀ s t, s.Inv → s.config.poolCap = 2 ^ 24 → s.htb.err ≠ .poolOverflow → step s = .next t →
    t.htb.err ≠ .poolOverflow

/-- R110, R113, R120: the pixel that makes PIX_COUNT = W·H, of a known symbol or of a new one with room
in the pool, ends the histogram in the same write: HIST_DONE and BUILD_START, one leaf per slot, all
of them live, and BUILD. -/
def Obligations.LastPixelStartsTheBuild : Prop :=
  ∀ (data : Word) (s : State), s.Inv → s.htb.phase = .hist →
    (∃ i, i < s.htb.n ∧ (s.htb.poolAt i).key = key data) ∨ s.htb.n < s.config.poolCap →
    s.htb.pixCount.toNat + 1 = (dimWidth s.htb.dim).toNat * (dimHeight s.htb.dim).toNat →
    ∃ t, exec (.wrPixel data) s = .next t ∧ t.htb.phase = .build ∧
      t.htb.pixCount.toNat = s.htb.pixCount.toNat + 1 ∧
      t.htb.evPending = s.htb.evPending ||| 0x003 ∧
      t.htb.live = List.range t.htb.n ∧
      (∀ i, i < t.htb.n → t.htb.nodeAt i = ⟨.leaf, (t.htb.poolAt i).freq, 0, 0⟩) ∧
      (∀ i, t.htb.n ≤ i → t.htb.nodeAt i = s.htb.nodeAt i) ∧
      (∀ i, i < s.htb.n → (s.htb.poolAt i).key ≠ key data → t.htb.poolAt i = s.htb.poolAt i) ∧
      (∀ i, i < s.htb.n → (s.htb.poolAt i).key = key data →
        t.htb.poolAt i = ⟨key data, (s.htb.poolAt i).freq + 1⟩ ∧ t.htb.n = s.htb.n ∧
        t.htb.poolAt s.htb.n = s.htb.poolAt s.htb.n) ∧
      ((∀ i, i < s.htb.n → (s.htb.poolAt i).key ≠ key data) →
        t.htb.poolAt s.htb.n = ⟨key data, 1⟩ ∧ t.htb.n = s.htb.n + 1) ∧
      (∀ i, s.htb.n < i → t.htb.poolAt i = s.htb.poolAt i) ∧
      t = { s with
        htb := { s.htb with
          phase := .build, pool := t.htb.pool, symCount := t.htb.symCount
          pixCount := t.htb.pixCount, node := t.htb.node, live := t.htb.live
          evPending := t.htb.evPending }
        reply := none }

/-! ### The engine (41_tree_build.md, 42_code_walk.md, 43_size_estimate.md) -/

/-- R121, R122: the merge enabled takes the ≺-least live node `a` and the ≺-least `b` of the others,
by frequency and then by index. -/
def Obligations.MergeTakesTheTwoLeastLiveNodes : Prop :=
  ∀ h : Htb, h.phase = .build → h.live.Nodup → 2 ≤ h.live.length →
    ∃ a b, h.enabled = some (.merge a b) ∧ a ∈ h.live ∧ b ∈ h.live ∧ a ≠ b ∧
      (∀ i ∈ h.live, i ≠ a →
        (h.nodeAt a).freq.toNat < (h.nodeAt i).freq.toNat ∨
        ((h.nodeAt a).freq = (h.nodeAt i).freq ∧ a < i)) ∧
      (∀ i ∈ h.live, i ≠ a → i ≠ b →
        (h.nodeAt b).freq.toNat < (h.nodeAt i).freq.toNat ∨
        ((h.nodeAt b).freq = (h.nodeAt i).freq ∧ b < i))

/-- R122: ENG_MERGE makes node n + k over the two, and takes them out of LIVE. -/
def Obligations.MergeStepJoinsTheTwoNodes : Prop :=
  ∀ (s : State) (a b : Nat), s.Inv → s.htb.phase = .build → s.engineNext →
    s.htb.enabled = some (.merge a b) →
    ∃ t, step s = .next t ∧
      (t.htb.nodeAt (s.htb.n + s.htb.k)).kind = .internal ∧
      (t.htb.nodeAt (s.htb.n + s.htb.k)).freq.toNat =
        (s.htb.nodeAt a).freq.toNat + (s.htb.nodeAt b).freq.toNat ∧
      (t.htb.nodeAt (s.htb.n + s.htb.k)).left.toNat = a ∧
      (t.htb.nodeAt (s.htb.n + s.htb.k)).right.toNat = b ∧
      (∀ i, i ≠ s.htb.n + s.htb.k → t.htb.nodeAt i = s.htb.nodeAt i) ∧
      (∀ i, i ∈ t.htb.live ↔ i = s.htb.n + s.htb.k ∨ (i ∈ s.htb.live ∧ i ≠ a ∧ i ≠ b)) ∧
      t.htb.k = s.htb.k + 1 ∧
      t = { s with
        agenda := s.agenda.tail
        htb := { s.htb with
          node := t.htb.node, live := t.htb.live, mergeCount := t.htb.mergeCount
          evPending := t.htb.evPending } }

/-- R123: ENG_MERGE signals PROGRESS exactly when PROG_INTERVAL ≠ 0 and the new MERGE_COUNT is a
multiple of it, and no other event. -/
def Obligations.ProgressEveryIntervalMerges : Prop :=
  ∀ (s t : State) (a b : Nat), s.Inv → s.htb.phase = .build → s.engineNext →
    s.htb.enabled = some (.merge a b) → step s = .next t →
    (s.htb.progInterval ≠ 0 ∧ (s.htb.k + 1) % s.htb.progInterval.toNat = 0 →
      t.htb.evPending = s.htb.evPending ||| 0x004) ∧
    (¬ (s.htb.progInterval ≠ 0 ∧ (s.htb.k + 1) % s.htb.progInterval.toNat = 0) →
      t.htb.evPending = s.htb.evPending)

/-- R124, R125: with one live node left, it is node 2n − 2 and becomes the root. -/
def Obligations.BuildEndFindsTheRoot : Prop :=
  ∀ s : State, s.Inv → s.htb.phase = .build → s.htb.live.length = 1 → s.engineNext →
    ∃ r : Index, r.toNat = 2 * s.htb.n - 2 ∧ s.htb.live = [r.toNat] ∧
      step s = .next { s with
        agenda := s.agenda.tail
        htb := { s.htb with
          phase := .walk, rootI := r, evPending := s.htb.evPending ||| 0x018 } }

/-- R130, R131, R224: from a state that meets the invariant ENG_WALK finds a path for every slot, and
where none is longer than 64 it writes every codeword and goes to SIZE. From any state in which the tree
below `root_i` gives every slot a path, one of them longer than 64, it ends the run with CODE_LENGTH and
writes no code; R136 argues that no run reaches such a state. Where nodes of that tree are shared, the
path meant is the model's choice, the leftmost (log 18). -/
def Obligations.WalkAssignsEveryCodeword : Prop :=
  (∀ s : State, s.Inv → s.htb.phase = .walk → s.engineNext →
    ∃ tree, s.htb.tree? = some tree ∧ (∀ i, i < s.htb.n → ∃ p, tree.path? i = some p) ∧
      ((∀ i p, i < s.htb.n → tree.path? i = some p → p.length ≤ 64) →
        ∃ t, step s = .next t ∧
          (∀ i p, i < s.htb.n → tree.path? i = some p → t.htb.codeAt i = pack p) ∧
          (∀ i, s.htb.n ≤ i → t.htb.codeAt i = s.htb.codeAt i) ∧
          t = { s with
            agenda := s.agenda.tail
            htb := { s.htb with
              phase := .size, code := t.htb.code
              evPending := s.htb.evPending ||| 0x020 } })) ∧
  (∀ (s : State) (tree : Tree), s.htb.phase = .walk → s.engineNext → s.htb.tree? = some tree →
    (∀ i, i < s.htb.n → ∃ p, tree.path? i = some p) →
    (∃ i p, i < s.htb.n ∧ tree.path? i = some p ∧ 64 < p.length) →
    step s = .next { s with
      agenda := s.agenda.tail
      htb := { s.htb with
        phase := .error, err := .codeLength, evPending := s.htb.evPending ||| 0x080 } })

/-- R130: what `treeBelow` and `path?` compute is the path of R130. A leaf's tree holds its own slot
with the empty path; an internal node's tree holds what its left child's tree holds, behind a 0, and
else what its right child's holds, behind a 1. Left before right, where both hold a slot, is the model's
choice for a pool that is no tree (log 18). -/
def Obligations.PathsFollowTheNodePool : Prop :=
  ∀ (h : Htb) (fuel i : Nat) (tree : Tree), h.treeBelow fuel i = some tree →
    ((h.nodeAt i).kind = .leaf →
      ∀ j p, tree.path? j = some p ↔ j = i ∧ p = []) ∧
    ((h.nodeAt i).kind = .internal →
      ∃ f l r, h.treeBelow f (h.nodeAt i).left.toNat = some l ∧
        h.treeBelow f (h.nodeAt i).right.toNat = some r ∧
        ∀ j p, tree.path? j = some p ↔
          (∃ q, l.path? j = some q ∧ p = false :: q) ∨
          (l.path? j = none ∧ ∃ q, r.path? j = some q ∧ p = true :: q))

/-- R133: b_i is bit L − i of the packed codeword, the bits from L up are 0, and the pair stands for
one codeword. -/
def Obligations.CodewordsArePackedFirstBitHighest : Prop :=
  ∀ p : List Bool, p.length ≤ 64 →
    (pack p).len.toNat = p.length ∧
    (∀ i b, p[i]? = some b → (pack p).bits.getLsbD (p.length - 1 - i) = b) ∧
    (∀ j, p.length ≤ j → (pack p).bits.getLsbD j = false) ∧
    (∀ q : List Bool, q.length ≤ 64 → pack q = pack p → q = p)

/-- R132, R140: one symbol is no error: the root is a leaf, its codeword is empty, and in DONE TBITS = COMP = 0. -/
def Obligations.OneSymbolGetsTheEmptyCodeword : Prop :=
  (∀ s : State, s.Inv → s.htb.phase = .walk → s.htb.n = 1 → s.engineNext →
    (s.htb.nodeAt s.htb.rootI.toNat).kind = .leaf ∧
    ∃ t, step s = .next t ∧ t.htb.phase = .size ∧ t.htb.err = .noError ∧
      t.htb.codeAt 0 = ⟨0, 0⟩) ∧
  (∀ s : State, s.Inv → s.htb.phase = .done → s.htb.n = 1 →
    (s.htb.nodeAt s.htb.rootI.toNat).kind = .leaf ∧
    s.htb.codeAt 0 = ⟨0, 0⟩ ∧ s.htb.tbits = 0 ∧ s.htb.comp = 0)

/-- R140..R144: ENG_SIZE writes TBITS, COMP = ceil(TBITS / 8) and ORIG = 4·W·H, none of them wrapped,
and goes to DONE. That `root_i` stays as ENG_BUILD_END left it, where R79 and R140 differ, is the
model's choice (log 17). -/
def Obligations.SizeStepGivesTheEstimate : Prop :=
  ∀ s : State, s.Inv → s.htb.phase = .size → s.engineNext →
    ∃ t, step s = .next t ∧
      t.htb.tbits.toNat =
        ((List.range s.htb.n).map fun i =>
          (s.htb.poolAt i).freq.toNat * (s.htb.codeAt i).len.toNat).sum ∧
      t.htb.tbits.toNat ≤ 8 * t.htb.comp.toNat ∧ 8 * t.htb.comp.toNat < t.htb.tbits.toNat + 8 ∧
      t.htb.orig.toNat = 4 * ((dimWidth s.htb.dim).toNat * (dimHeight s.htb.dim).toNat) ∧
      t = { s with
        agenda := s.agenda.tail
        htb := { s.htb with
          phase := .done, tbits := t.htb.tbits, comp := t.htb.comp, orig := t.htb.orig
          evPending := s.htb.evPending ||| 0x040 } }

/-- R144: no arithmetic wraps. Each count, frequency, sum, index and result is bounded by what its field
holds, and so is the value the next pixel or the enabled merge would store. -/
def Obligations.NoArithmeticWraps : Prop :=
  ∀ (c : Config) (h : Htb), h.Inv c →
    (h.pixCount.toNat ≤ 65535 * 65535 ∧
      (h.phase = .hist → h.pixCount.toNat + 1 ≤ 65535 * 65535) ∧
      ∀ i, i < h.n → (h.poolAt i).freq.toNat ≤ h.pixCount.toNat) ∧
    (h.n ≤ 2 ^ 24 ∧ h.n ≤ h.pixCount.toNat ∧ h.k < 2 ^ 24) ∧
    (h.phase.hasNodes = true →
      ∀ i, i < h.n + h.k → i ≤ 2 ^ 25 - 2 ∧ (h.nodeAt i).freq.toNat ≤ h.pixCount.toNat ∧
        ((h.nodeAt i).kind = .internal →
          (h.nodeAt i).left.toNat ≤ 2 ^ 25 - 2 ∧ (h.nodeAt i).right.toNat ≤ 2 ^ 25 - 2)) ∧
    (∀ a b, h.enabled = some (.merge a b) →
      h.newNode ≤ 2 ^ 25 - 2 ∧ h.k + 1 < 2 ^ 24 ∧
      (h.nodeAt a).freq.toNat + (h.nodeAt b).freq.toNat ≤ h.pixCount.toNat) ∧
    (h.phase.hasTree = true → h.rootI.toNat ≤ 2 ^ 25 - 2) ∧
    (h.phase.hasCodes = true →
      h.totalBits < 2 ^ 38 ∧ ∀ i, i < h.n → (h.codeAt i).len.toNat ≤ 64) ∧
    (originalBytes h.dim ≤ 17179344900 ∧ h.orig.toNat ≤ 17179344900 ∧
      h.tbits.toNat < 2 ^ 38 ∧ h.comp.toNat ≤ h.tbits.toNat)

/-! ### Whole-machine rules -/

/-- R134: in SIZE and DONE no codeword of the code table begins another. -/
def Obligations.NoCodewordBeginsAnother : Prop :=
  ∀ (c : Config) (h : Htb), h.Inv c → h.phase = .size ∨ h.phase = .done →
    ∀ i j, i < h.n → j < h.n → i ≠ j →
      ¬ ((h.codeAt i).len.toNat ≤ (h.codeAt j).len.toNat ∧
        (h.codeAt j).bits.toNat / 2 ^ ((h.codeAt j).len.toNat - (h.codeAt i).len.toNat) =
          (h.codeAt i).bits.toNat)

/-- R134: in SIZE and DONE the Kraft sum of the code table is exactly 1, written over 2^64. -/
def Obligations.KraftSumIsOne : Prop :=
  ∀ (c : Config) (h : Htb), h.Inv c → h.phase = .size ∨ h.phase = .done →
    ((List.range h.n).map fun i => 2 ^ (64 - (h.codeAt i).len.toNat)).sum = 2 ^ 64

/-- R125: in WALK, SIZE and DONE every node but the root is the child of exactly one internal node, the
root of none, and the root's frequency is PIX_COUNT. -/
def Obligations.TheTreeHasOneRoot : Prop :=
  ∀ (c : Config) (h : Htb), h.Inv c → h.phase.hasTree = true →
    h.k = h.n - 1 ∧ h.rootI.toNat = 2 * h.n - 2 ∧
    (∀ j, j < 2 * h.n - 2 → ∃ p, h.IsParent p j ∧ ∀ q, h.IsParent q j → q = p) ∧
    (∀ p, ¬ h.IsParent p h.rootI.toNat) ∧
    (h.nodeAt h.rootI.toNat).freq.toNat = h.pixCount.toNat

/-- R25, R55: STATE changes only by the listed transitions, each by its own cause. -/
def Obligations.StateChangesOnlyByTheListedTransitions : Prop :=
  ∀ s t, step s = .next t → s.htb.phase ≠ t.htb.phase →
    (s.nextIs .cmdStart ∧ (t.htb.phase = .hist ∨ t.htb.phase = .error)) ∨
    ((s.nextIs .cmdAbort ∨ s.resetNext) ∧ t.htb.phase = .idle) ∨
    ((∃ data, s.nextIs (.wrPixel data)) ∧ s.htb.phase = .hist ∧
      (t.htb.phase = .build ∨ t.htb.phase = .error)) ∨
    (s.engineNext ∧
      ((s.htb.phase = .build ∧ t.htb.phase = .walk) ∨
       (s.htb.phase = .walk ∧ (t.htb.phase = .size ∨ t.htb.phase = .error)) ∨
       (s.htb.phase = .size ∧ t.htb.phase = .done)))

/-- R230, and for ERROR the raise sites of R221: where a step sets an event bit that was clear, it is the
step that signals that event. -/
def Obligations.EachEventHasItsOwnSource : Prop :=
  ∀ s t, step s = .next t →
    ∀ e, evIn s.htb.evPending e = false → evIn t.htb.evPending e = true →
      match e with
      | .histDone | .buildStart =>
        (∃ data, s.nextIs (.wrPixel data)) ∧ s.htb.phase = .hist ∧ t.htb.phase = .build
      | .progress => s.htb.phase = .build ∧ s.engineNext ∧ t.htb.phase = .build
      | .buildDone | .walkStart => s.htb.phase = .build ∧ s.engineNext ∧ t.htb.phase = .walk
      | .sizeStart => s.htb.phase = .walk ∧ s.engineNext ∧ t.htb.phase = .size
      | .done => s.htb.phase = .size ∧ s.engineNext ∧ t.htb.phase = .done
      | .error =>
        t.htb.phase = .error ∧
        ((s.nextIs .cmdStart ∧ t.htb.err = .emptyInput) ∨
         ((∃ data, s.nextIs (.wrPixel data)) ∧ s.htb.phase = .hist ∧
           t.htb.err = .poolOverflow) ∨
         (s.engineNext ∧ s.htb.phase = .walk ∧ t.htb.err = .codeLength))
      | .accErr => ∃ w rest, s.agenda = .host w :: rest

/-- R225: the host operations that signal ACCERR, in the states where they do, and no others. -/
def Obligations.AccErrHasFourSources : Prop :=
  ∀ (i : Instr) (s t : State), exec i s = .next t → evIn s.htb.evPending .accErr = false →
    (evIn t.htb.evPending .accErr = true ↔
      (∃ d, i = .rsvdCmd d) ∨ ((∃ d, i = .wrPixel d) ∧ s.htb.phase ≠ .hist) ∨
      ((∃ d, i = .wrDim d) ∧ s.htb.busy = true) ∨
      ((∃ d, i = .wrProgInterval d) ∧ s.htb.busy = true))

/-- R8, R27, R256: DIM and PROG_INTERVAL keep their values through every step taken while BUSY, reset
apart; POOL_CAP through every step. -/
def Obligations.DimIsHeldWhileBusy : Prop :=
  ∀ s t, step s = .next t → t.config = s.config ∧
    (s.htb.busy = true → ¬ s.resetNext →
      t.htb.dim = s.htb.dim ∧ t.htb.progInterval = s.htb.progInterval)

/-- R145, R228, R229, R262: in DONE and ERROR, until START, ABORT or reset, no step changes STATE, ERR,
a counter, a result, LIVE, the tree or the codes, and none sets an event bit but ACCERR's. -/
def Obligations.TerminalStatesStay : Prop :=
  ∀ s t, step s = .next t → s.htb.phase = .done ∨ s.htb.phase = .error →
    ¬ s.nextIs .cmdStart → ¬ s.nextIs .cmdAbort → ¬ s.resetNext →
    t.htb.phase = s.htb.phase ∧ t.htb.err = s.htb.err ∧ t.htb.pixCount = s.htb.pixCount ∧
    t.htb.symCount = s.htb.symCount ∧ t.htb.mergeCount = s.htb.mergeCount ∧
    t.htb.orig = s.htb.orig ∧ t.htb.comp = s.htb.comp ∧ t.htb.tbits = s.htb.tbits ∧
    t.htb.rootI = s.htb.rootI ∧ t.htb.pool = s.htb.pool ∧ t.htb.node = s.htb.node ∧
    t.htb.code = s.htb.code ∧ t.htb.live = s.htb.live ∧
    ∀ e, e ≠ .accErr → evIn t.htb.evPending e = true → evIn s.htb.evPending e = true

/-- R157, R260: left to itself, the engine takes a run in BUILD to DONE or ERROR within n − k + 2 steps:
at most n − 1 merges, one BUILD_END, one WALK and one SIZE. That the engine goes on alone when the
agenda is used up is the model's form of its fairness (log 3). -/
def Obligations.TheEngineFinishesTheRun : Prop :=
  ∀ s : State, s.Inv → s.htb.phase = .build → s.agenda = [] →
    ∃ m t, m ≤ s.htb.n - s.htb.k + 2 ∧ core.run m s = .next t ∧
      (t.htb.phase = .done ∨ t.htb.phase = .error)

/-- R57: nothing reset left unspecified, and no stale entry of an earlier run, is ever observed. Two
machines that differ in nothing else stay so, step for step, and every read answers both the same. -/
def Obligations.UnspecifiedContentsAreNeverObserved : Prop :=
  ∀ s t s' : State, s.Inv → t.Inv → s.Agree t → step s = .next s' →
    ∃ t', step t = .next t' ∧ s'.Agree t'
end

