-- ==== Sys2Proof/Laws/PerInstr.lean ====
section
/-! SUPPORT. One lemma for each constructor of Instr: the WR and OFF fields of its encoding are those of
its row of opcode_table.json. -/

namespace Sys2Proof.Laws

/-- The three fields of an HTW are the fields it was made of (R90). -/
theorem htwWr_htw (wr : Bool) (off : Offset) (data : Word) : htwWr (htw wr off data) = wr := by
  simp only [htwWr, htw, BitVec.getLsbD_append]
  simp

theorem htwOff_htw (wr : Bool) (off : Offset) (data : Word) : htwOff (htw wr off data) = off := by
  apply BitVec.eq_of_getLsbD_eq
  intro i hi
  simp only [htwOff, htw, BitVec.getLsbD_extractLsb', BitVec.getLsbD_append]
  have h1 : ¬ 32 + i < 32 := by omega
  have h2 : 32 + i - 32 = i := by omega
  simp [h1, h2, hi]

theorem htwData_htw (wr : Bool) (off : Offset) (data : Word) :
    htwData (htw wr off data) = data := by
  apply BitVec.eq_of_getLsbD_eq
  intro i hi
  simp only [htwData, htw, BitVec.getLsbD_extractLsb', BitVec.getLsbD_append]
  simp [hi]

/-- The fields of the row: WR and, where the row fixes it, OFF. -/
def RowFields.wrOff : Instr → Bool × Option Offset
  | .cmdStart => (true, some 0x008)
  | .cmdAbort => (true, some 0x008)
  | .rsvdCmd _ => (true, some 0x008)
  | .wrDim _ => (true, some 0x014)
  | .wrPixel _ => (true, some 0x018)
  | .wrProgInterval _ => (true, some 0x028)
  | .wrEvPending _ => (true, some 0x02C)
  | .wrEvEnable _ => (true, some 0x030)
  | .wrSlotSel _ => (true, some 0x050)
  | .wrNodeSel _ => (true, some 0x068)
  | .wrIgnored _ _ => (true, none)
  | .rdId => (false, some 0x000)
  | .rdParam => (false, some 0x004)
  | .rdStatus => (false, some 0x00C)
  | .rdErr => (false, some 0x010)
  | .rdDim => (false, some 0x014)
  | .rdPixCount => (false, some 0x01C)
  | .rdSymCount => (false, some 0x020)
  | .rdMergeCount => (false, some 0x024)
  | .rdProgInterval => (false, some 0x028)
  | .rdEvPending => (false, some 0x02C)
  | .rdEvEnable => (false, some 0x030)
  | .rdOrigLo => (false, some 0x034)
  | .rdOrigHi => (false, some 0x038)
  | .rdCompLo => (false, some 0x03C)
  | .rdCompHi => (false, some 0x040)
  | .rdTbitsLo => (false, some 0x044)
  | .rdTbitsHi => (false, some 0x048)
  | .rdRoot => (false, some 0x04C)
  | .rdSlotSel => (false, some 0x050)
  | .rdSlotKey => (false, some 0x054)
  | .rdSlotFreq => (false, some 0x058)
  | .rdSlotClen => (false, some 0x05C)
  | .rdSlotCbitsLo => (false, some 0x060)
  | .rdSlotCbitsHi => (false, some 0x064)
  | .rdNodeSel => (false, some 0x068)
  | .rdNodeKind => (false, some 0x06C)
  | .rdNodeFreq => (false, some 0x070)
  | .rdNodeLeft => (false, some 0x074)
  | .rdNodeRight => (false, some 0x078)
  | .rdZero _ => (false, none)

/-- The encoding has the row's WR, and the row's OFF where the row fixes one. -/
def RowFields.Statement (i : Instr) : Prop :=
  htwWr (encode i) = (RowFields.wrOff i).1 ∧
    ∀ off, (RowFields.wrOff i).2 = some off → htwOff (encode i) = off

/-- The fields of an encoding whose row fixes its OFF. -/
theorem RowFields.fixed {i : Instr} {wr : Bool} {off : Offset} {data : Word}
    (he : encode i = htw wr off data) (hf : RowFields.wrOff i = (wr, some off)) :
    RowFields.Statement i := by
  refine ⟨by rw [he, htwWr_htw, hf], fun o ho => ?_⟩
  rw [hf] at ho; injection ho with ho
  rw [he, htwOff_htw, ho]

/-- The fields of an encoding whose row leaves its OFF open. -/
theorem RowFields.open_ {i : Instr} {wr : Bool} {off : Offset} {data : Word}
    (he : encode i = htw wr off data) (hf : RowFields.wrOff i = (wr, none)) :
    RowFields.Statement i := by
  refine ⟨by rw [he, htwWr_htw, hf], fun o ho => ?_⟩
  rw [hf] at ho; cases ho

theorem RowFields.cmdStart : RowFields.Statement .cmdStart := RowFields.fixed rfl rfl
theorem RowFields.cmdAbort : RowFields.Statement .cmdAbort := RowFields.fixed rfl rfl
theorem RowFields.rsvdCmd (data : Word) : RowFields.Statement (.rsvdCmd data) := RowFields.fixed rfl rfl
theorem RowFields.wrDim (data : Word) : RowFields.Statement (.wrDim data) := RowFields.fixed rfl rfl
theorem RowFields.wrPixel (data : Word) : RowFields.Statement (.wrPixel data) := RowFields.fixed rfl rfl
theorem RowFields.wrProgInterval (data : Word) : RowFields.Statement (.wrProgInterval data) := RowFields.fixed rfl rfl
theorem RowFields.wrEvPending (data : Word) : RowFields.Statement (.wrEvPending data) := RowFields.fixed rfl rfl
theorem RowFields.wrEvEnable (data : Word) : RowFields.Statement (.wrEvEnable data) := RowFields.fixed rfl rfl
theorem RowFields.wrSlotSel (data : Word) : RowFields.Statement (.wrSlotSel data) := RowFields.fixed rfl rfl
theorem RowFields.wrNodeSel (data : Word) : RowFields.Statement (.wrNodeSel data) := RowFields.fixed rfl rfl
theorem RowFields.wrIgnored (off : Offset) (data : Word) : RowFields.Statement (.wrIgnored off data) := RowFields.open_ rfl rfl
theorem RowFields.rdId : RowFields.Statement .rdId := RowFields.fixed rfl rfl
theorem RowFields.rdParam : RowFields.Statement .rdParam := RowFields.fixed rfl rfl
theorem RowFields.rdStatus : RowFields.Statement .rdStatus := RowFields.fixed rfl rfl
theorem RowFields.rdErr : RowFields.Statement .rdErr := RowFields.fixed rfl rfl
theorem RowFields.rdDim : RowFields.Statement .rdDim := RowFields.fixed rfl rfl
theorem RowFields.rdPixCount : RowFields.Statement .rdPixCount := RowFields.fixed rfl rfl
theorem RowFields.rdSymCount : RowFields.Statement .rdSymCount := RowFields.fixed rfl rfl
theorem RowFields.rdMergeCount : RowFields.Statement .rdMergeCount := RowFields.fixed rfl rfl
theorem RowFields.rdProgInterval : RowFields.Statement .rdProgInterval := RowFields.fixed rfl rfl
theorem RowFields.rdEvPending : RowFields.Statement .rdEvPending := RowFields.fixed rfl rfl
theorem RowFields.rdEvEnable : RowFields.Statement .rdEvEnable := RowFields.fixed rfl rfl
theorem RowFields.rdOrigLo : RowFields.Statement .rdOrigLo := RowFields.fixed rfl rfl
theorem RowFields.rdOrigHi : RowFields.Statement .rdOrigHi := RowFields.fixed rfl rfl
theorem RowFields.rdCompLo : RowFields.Statement .rdCompLo := RowFields.fixed rfl rfl
theorem RowFields.rdCompHi : RowFields.Statement .rdCompHi := RowFields.fixed rfl rfl
theorem RowFields.rdTbitsLo : RowFields.Statement .rdTbitsLo := RowFields.fixed rfl rfl
theorem RowFields.rdTbitsHi : RowFields.Statement .rdTbitsHi := RowFields.fixed rfl rfl
theorem RowFields.rdRoot : RowFields.Statement .rdRoot := RowFields.fixed rfl rfl
theorem RowFields.rdSlotSel : RowFields.Statement .rdSlotSel := RowFields.fixed rfl rfl
theorem RowFields.rdSlotKey : RowFields.Statement .rdSlotKey := RowFields.fixed rfl rfl
theorem RowFields.rdSlotFreq : RowFields.Statement .rdSlotFreq := RowFields.fixed rfl rfl
theorem RowFields.rdSlotClen : RowFields.Statement .rdSlotClen := RowFields.fixed rfl rfl
theorem RowFields.rdSlotCbitsLo : RowFields.Statement .rdSlotCbitsLo := RowFields.fixed rfl rfl
theorem RowFields.rdSlotCbitsHi : RowFields.Statement .rdSlotCbitsHi := RowFields.fixed rfl rfl
theorem RowFields.rdNodeSel : RowFields.Statement .rdNodeSel := RowFields.fixed rfl rfl
theorem RowFields.rdNodeKind : RowFields.Statement .rdNodeKind := RowFields.fixed rfl rfl
theorem RowFields.rdNodeFreq : RowFields.Statement .rdNodeFreq := RowFields.fixed rfl rfl
theorem RowFields.rdNodeLeft : RowFields.Statement .rdNodeLeft := RowFields.fixed rfl rfl
theorem RowFields.rdNodeRight : RowFields.Statement .rdNodeRight := RowFields.fixed rfl rfl
theorem RowFields.rdZero (off : Offset) : RowFields.Statement (.rdZero off) := RowFields.open_ rfl rfl

end Sys2Proof.Laws
end

