-- ==== Sys2Proof/Laws/Decode.lean ====
section
/-! SUPPORT. The register map is one to one (rule R20), and an HTW is its three fields (rule R90). -/

namespace Sys2Proof.Laws

theorem Reg.mem_all (r : Reg) : r ∈ Reg.all := by
  cases r <;> decide

/-- Every register is found at its own offset (R20). -/
@[simp] theorem at?_offset (r : Reg) : Reg.at? r.offset = some r := by
  cases r <;> rfl

/-- What is found at an offset is the register of that offset. -/
theorem offset_of_at? {off : Offset} {r : Reg} (hr : Reg.at? off = some r) : r.offset = off := by
  simpa using List.find?_some hr

/-- Nothing is found at an offset only where no register has it (R49). -/
theorem at?_eq_none {off : Offset} : Reg.at? off = none ↔ ∀ r : Reg, r.offset ≠ off := by
  simp only [Reg.at?, List.find?_eq_none, beq_iff_eq]
  exact ⟨fun h r => h r (Reg.mem_all r), fun h r _ => h r⟩

/-- An HTW is made of its three fields (R90). -/
theorem htw_fields (w : Htw) : htw (htwWr w) (htwOff w) (htwData w) = w := by
  apply BitVec.eq_of_getLsbD_eq
  intro i hi
  simp only [htw, htwWr, htwOff, htwData, BitVec.getLsbD_append, BitVec.getLsbD_extractLsb',
    BitVec.getLsbD_ofBool]
  by_cases h1 : i < 32
  · simp [h1]
  · by_cases h2 : i - 32 < 12
    · have : 32 + (i - 32) = i := by omega
      simp [h1, h2, this]
    · have : i = 44 := by omega
      subst this; simp

/-- What a write decodes to, register by register. -/
theorem decode_write (off : Offset) (data : Word) :
    decode (htw true off data) = decodeWrite off data := by
  simp [decode, htwWr_htw, htwOff_htw, htwData_htw]

/-- What a read decodes to: its DATA is not examined. -/
theorem decode_read (off : Offset) (data : Word) :
    decode (htw false off data) = decodeRead off := by
  simp [decode, htwWr_htw, htwOff_htw]

end Sys2Proof.Laws
end

