-- ==== Sys2Proof/Laws/State.lean ====
section
/-! SUPPORT. What each named update of the block does to each field, so that no later proof unfolds a
record update. -/

namespace Sys2Proof.Machine

variable (h : Htb)

/-! ### Htb.signal -/

@[simp] theorem Htb.signal_phase (e : Ev) : (h.signal e).phase = h.phase := rfl
@[simp] theorem Htb.signal_err (e : Ev) : (h.signal e).err = h.err := rfl
@[simp] theorem Htb.signal_dim (e : Ev) : (h.signal e).dim = h.dim := rfl
@[simp] theorem Htb.signal_pixCount (e : Ev) : (h.signal e).pixCount = h.pixCount := rfl
@[simp] theorem Htb.signal_symCount (e : Ev) : (h.signal e).symCount = h.symCount := rfl
@[simp] theorem Htb.signal_mergeCount (e : Ev) : (h.signal e).mergeCount = h.mergeCount := rfl
@[simp] theorem Htb.signal_progInterval (e : Ev) : (h.signal e).progInterval = h.progInterval := rfl
@[simp] theorem Htb.signal_evPending (e : Ev) :
    (h.signal e).evPending = h.evPending ||| evMask e := rfl
@[simp] theorem Htb.signal_evEnable (e : Ev) : (h.signal e).evEnable = h.evEnable := rfl
@[simp] theorem Htb.signal_orig (e : Ev) : (h.signal e).orig = h.orig := rfl
@[simp] theorem Htb.signal_comp (e : Ev) : (h.signal e).comp = h.comp := rfl
@[simp] theorem Htb.signal_tbits (e : Ev) : (h.signal e).tbits = h.tbits := rfl
@[simp] theorem Htb.signal_slotSel (e : Ev) : (h.signal e).slotSel = h.slotSel := rfl
@[simp] theorem Htb.signal_nodeSel (e : Ev) : (h.signal e).nodeSel = h.nodeSel := rfl
@[simp] theorem Htb.signal_rootI (e : Ev) : (h.signal e).rootI = h.rootI := rfl
@[simp] theorem Htb.signal_pool (e : Ev) : (h.signal e).pool = h.pool := rfl
@[simp] theorem Htb.signal_node (e : Ev) : (h.signal e).node = h.node := rfl
@[simp] theorem Htb.signal_code (e : Ev) : (h.signal e).code = h.code := rfl
@[simp] theorem Htb.signal_live (e : Ev) : (h.signal e).live = h.live := rfl
@[simp] theorem Htb.signal_epoch (e : Ev) : (h.signal e).epoch = h.epoch := rfl

/-! ### Htb.ack -/

@[simp] theorem Htb.ack_phase (m : Events) : (h.ack m).phase = h.phase := rfl
@[simp] theorem Htb.ack_err (m : Events) : (h.ack m).err = h.err := rfl
@[simp] theorem Htb.ack_dim (m : Events) : (h.ack m).dim = h.dim := rfl
@[simp] theorem Htb.ack_pixCount (m : Events) : (h.ack m).pixCount = h.pixCount := rfl
@[simp] theorem Htb.ack_symCount (m : Events) : (h.ack m).symCount = h.symCount := rfl
@[simp] theorem Htb.ack_mergeCount (m : Events) : (h.ack m).mergeCount = h.mergeCount := rfl
@[simp] theorem Htb.ack_progInterval (m : Events) : (h.ack m).progInterval = h.progInterval := rfl
@[simp] theorem Htb.ack_evPending (m : Events) : (h.ack m).evPending = h.evPending &&& ~~~m := rfl
@[simp] theorem Htb.ack_evEnable (m : Events) : (h.ack m).evEnable = h.evEnable := rfl
@[simp] theorem Htb.ack_orig (m : Events) : (h.ack m).orig = h.orig := rfl
@[simp] theorem Htb.ack_comp (m : Events) : (h.ack m).comp = h.comp := rfl
@[simp] theorem Htb.ack_tbits (m : Events) : (h.ack m).tbits = h.tbits := rfl
@[simp] theorem Htb.ack_slotSel (m : Events) : (h.ack m).slotSel = h.slotSel := rfl
@[simp] theorem Htb.ack_nodeSel (m : Events) : (h.ack m).nodeSel = h.nodeSel := rfl
@[simp] theorem Htb.ack_rootI (m : Events) : (h.ack m).rootI = h.rootI := rfl
@[simp] theorem Htb.ack_pool (m : Events) : (h.ack m).pool = h.pool := rfl
@[simp] theorem Htb.ack_node (m : Events) : (h.ack m).node = h.node := rfl
@[simp] theorem Htb.ack_code (m : Events) : (h.ack m).code = h.code := rfl
@[simp] theorem Htb.ack_live (m : Events) : (h.ack m).live = h.live := rfl
@[simp] theorem Htb.ack_epoch (m : Events) : (h.ack m).epoch = h.epoch := rfl

/-! ### Htb.enterError -/

@[simp] theorem Htb.enterError_phase (c : ErrCode) : (h.enterError c).phase = .error := rfl
@[simp] theorem Htb.enterError_err (c : ErrCode) : (h.enterError c).err = c := rfl
@[simp] theorem Htb.enterError_dim (c : ErrCode) : (h.enterError c).dim = h.dim := rfl
@[simp] theorem Htb.enterError_pixCount (c : ErrCode) :
    (h.enterError c).pixCount = h.pixCount := rfl
@[simp] theorem Htb.enterError_symCount (c : ErrCode) :
    (h.enterError c).symCount = h.symCount := rfl
@[simp] theorem Htb.enterError_mergeCount (c : ErrCode) :
    (h.enterError c).mergeCount = h.mergeCount := rfl
@[simp] theorem Htb.enterError_progInterval (c : ErrCode) :
    (h.enterError c).progInterval = h.progInterval := rfl
@[simp] theorem Htb.enterError_evPending (c : ErrCode) :
    (h.enterError c).evPending = h.evPending ||| evMask .error := rfl
@[simp] theorem Htb.enterError_evEnable (c : ErrCode) :
    (h.enterError c).evEnable = h.evEnable := rfl
@[simp] theorem Htb.enterError_orig (c : ErrCode) : (h.enterError c).orig = h.orig := rfl
@[simp] theorem Htb.enterError_comp (c : ErrCode) : (h.enterError c).comp = h.comp := rfl
@[simp] theorem Htb.enterError_tbits (c : ErrCode) : (h.enterError c).tbits = h.tbits := rfl
@[simp] theorem Htb.enterError_slotSel (c : ErrCode) : (h.enterError c).slotSel = h.slotSel := rfl
@[simp] theorem Htb.enterError_nodeSel (c : ErrCode) : (h.enterError c).nodeSel = h.nodeSel := rfl
@[simp] theorem Htb.enterError_rootI (c : ErrCode) : (h.enterError c).rootI = h.rootI := rfl
@[simp] theorem Htb.enterError_pool (c : ErrCode) : (h.enterError c).pool = h.pool := rfl
@[simp] theorem Htb.enterError_node (c : ErrCode) : (h.enterError c).node = h.node := rfl
@[simp] theorem Htb.enterError_code (c : ErrCode) : (h.enterError c).code = h.code := rfl
@[simp] theorem Htb.enterError_live (c : ErrCode) : (h.enterError c).live = h.live := rfl
@[simp] theorem Htb.enterError_epoch (c : ErrCode) : (h.enterError c).epoch = h.epoch := rfl

/-! ### Htb.clearRun -/

@[simp] theorem Htb.clearRun_phase : (h.clearRun).phase = .idle := rfl
@[simp] theorem Htb.clearRun_err : (h.clearRun).err = .noError := rfl
@[simp] theorem Htb.clearRun_dim : (h.clearRun).dim = h.dim := rfl
@[simp] theorem Htb.clearRun_pixCount : (h.clearRun).pixCount = 0 := rfl
@[simp] theorem Htb.clearRun_symCount : (h.clearRun).symCount = 0 := rfl
@[simp] theorem Htb.clearRun_mergeCount : (h.clearRun).mergeCount = 0 := rfl
@[simp] theorem Htb.clearRun_progInterval : (h.clearRun).progInterval = h.progInterval := rfl
@[simp] theorem Htb.clearRun_evPending : (h.clearRun).evPending = 0 := rfl
@[simp] theorem Htb.clearRun_evEnable : (h.clearRun).evEnable = h.evEnable := rfl
@[simp] theorem Htb.clearRun_orig : (h.clearRun).orig = 0 := rfl
@[simp] theorem Htb.clearRun_comp : (h.clearRun).comp = 0 := rfl
@[simp] theorem Htb.clearRun_tbits : (h.clearRun).tbits = 0 := rfl
@[simp] theorem Htb.clearRun_slotSel : (h.clearRun).slotSel = h.slotSel := rfl
@[simp] theorem Htb.clearRun_nodeSel : (h.clearRun).nodeSel = h.nodeSel := rfl
@[simp] theorem Htb.clearRun_rootI : (h.clearRun).rootI = h.rootI := rfl
@[simp] theorem Htb.clearRun_pool : (h.clearRun).pool = h.pool := rfl
@[simp] theorem Htb.clearRun_node : (h.clearRun).node = h.node := rfl
@[simp] theorem Htb.clearRun_code : (h.clearRun).code = h.code := rfl
@[simp] theorem Htb.clearRun_live : (h.clearRun).live = [] := rfl
@[simp] theorem Htb.clearRun_epoch : (h.clearRun).epoch = h.epoch := rfl

/-! ### Htb.countKnown -/

@[simp] theorem Htb.countKnown_phase (s : Nat) : (h.countKnown s).phase = h.phase := rfl
@[simp] theorem Htb.countKnown_err (s : Nat) : (h.countKnown s).err = h.err := rfl
@[simp] theorem Htb.countKnown_dim (s : Nat) : (h.countKnown s).dim = h.dim := rfl
@[simp] theorem Htb.countKnown_pixCount (s : Nat) :
    (h.countKnown s).pixCount = h.pixCount + 1 := rfl
@[simp] theorem Htb.countKnown_symCount (s : Nat) : (h.countKnown s).symCount = h.symCount := rfl
@[simp] theorem Htb.countKnown_mergeCount (s : Nat) :
    (h.countKnown s).mergeCount = h.mergeCount := rfl
@[simp] theorem Htb.countKnown_progInterval (s : Nat) :
    (h.countKnown s).progInterval = h.progInterval := rfl
@[simp] theorem Htb.countKnown_evPending (s : Nat) : (h.countKnown s).evPending = h.evPending := rfl
@[simp] theorem Htb.countKnown_evEnable (s : Nat) : (h.countKnown s).evEnable = h.evEnable := rfl
@[simp] theorem Htb.countKnown_orig (s : Nat) : (h.countKnown s).orig = h.orig := rfl
@[simp] theorem Htb.countKnown_comp (s : Nat) : (h.countKnown s).comp = h.comp := rfl
@[simp] theorem Htb.countKnown_tbits (s : Nat) : (h.countKnown s).tbits = h.tbits := rfl
@[simp] theorem Htb.countKnown_slotSel (s : Nat) : (h.countKnown s).slotSel = h.slotSel := rfl
@[simp] theorem Htb.countKnown_nodeSel (s : Nat) : (h.countKnown s).nodeSel = h.nodeSel := rfl
@[simp] theorem Htb.countKnown_rootI (s : Nat) : (h.countKnown s).rootI = h.rootI := rfl
@[simp] theorem Htb.countKnown_pool (s : Nat) :
    (h.countKnown s).pool = Table.write h.pool s { h.poolAt s with freq := (h.poolAt s).freq + 1 } := rfl
@[simp] theorem Htb.countKnown_node (s : Nat) : (h.countKnown s).node = h.node := rfl
@[simp] theorem Htb.countKnown_code (s : Nat) : (h.countKnown s).code = h.code := rfl
@[simp] theorem Htb.countKnown_live (s : Nat) : (h.countKnown s).live = h.live := rfl
@[simp] theorem Htb.countKnown_epoch (s : Nat) : (h.countKnown s).epoch = h.epoch := rfl

/-! ### Htb.countNew -/

@[simp] theorem Htb.countNew_phase (sym : Key) : (h.countNew sym).phase = h.phase := rfl
@[simp] theorem Htb.countNew_err (sym : Key) : (h.countNew sym).err = h.err := rfl
@[simp] theorem Htb.countNew_dim (sym : Key) : (h.countNew sym).dim = h.dim := rfl
@[simp] theorem Htb.countNew_pixCount (sym : Key) :
    (h.countNew sym).pixCount = h.pixCount + 1 := rfl
@[simp] theorem Htb.countNew_symCount (sym : Key) :
    (h.countNew sym).symCount = h.symCount + 1 := rfl
@[simp] theorem Htb.countNew_mergeCount (sym : Key) :
    (h.countNew sym).mergeCount = h.mergeCount := rfl
@[simp] theorem Htb.countNew_progInterval (sym : Key) :
    (h.countNew sym).progInterval = h.progInterval := rfl
@[simp] theorem Htb.countNew_evPending (sym : Key) : (h.countNew sym).evPending = h.evPending := rfl
@[simp] theorem Htb.countNew_evEnable (sym : Key) : (h.countNew sym).evEnable = h.evEnable := rfl
@[simp] theorem Htb.countNew_orig (sym : Key) : (h.countNew sym).orig = h.orig := rfl
@[simp] theorem Htb.countNew_comp (sym : Key) : (h.countNew sym).comp = h.comp := rfl
@[simp] theorem Htb.countNew_tbits (sym : Key) : (h.countNew sym).tbits = h.tbits := rfl
@[simp] theorem Htb.countNew_slotSel (sym : Key) : (h.countNew sym).slotSel = h.slotSel := rfl
@[simp] theorem Htb.countNew_nodeSel (sym : Key) : (h.countNew sym).nodeSel = h.nodeSel := rfl
@[simp] theorem Htb.countNew_rootI (sym : Key) : (h.countNew sym).rootI = h.rootI := rfl
@[simp] theorem Htb.countNew_pool (sym : Key) :
    (h.countNew sym).pool = Table.write h.pool h.n ⟨sym, 1⟩ := rfl
@[simp] theorem Htb.countNew_node (sym : Key) : (h.countNew sym).node = h.node := rfl
@[simp] theorem Htb.countNew_code (sym : Key) : (h.countNew sym).code = h.code := rfl
@[simp] theorem Htb.countNew_live (sym : Key) : (h.countNew sym).live = h.live := rfl
@[simp] theorem Htb.countNew_epoch (sym : Key) : (h.countNew sym).epoch = h.epoch := rfl

/-! ### Htb.buildInit -/

@[simp] theorem Htb.buildInit_phase : (h.buildInit).phase = h.phase := rfl
@[simp] theorem Htb.buildInit_err : (h.buildInit).err = h.err := rfl
@[simp] theorem Htb.buildInit_dim : (h.buildInit).dim = h.dim := rfl
@[simp] theorem Htb.buildInit_pixCount : (h.buildInit).pixCount = h.pixCount := rfl
@[simp] theorem Htb.buildInit_symCount : (h.buildInit).symCount = h.symCount := rfl
@[simp] theorem Htb.buildInit_mergeCount : (h.buildInit).mergeCount = h.mergeCount := rfl
@[simp] theorem Htb.buildInit_progInterval : (h.buildInit).progInterval = h.progInterval := rfl
@[simp] theorem Htb.buildInit_evPending : (h.buildInit).evPending = h.evPending := rfl
@[simp] theorem Htb.buildInit_evEnable : (h.buildInit).evEnable = h.evEnable := rfl
@[simp] theorem Htb.buildInit_orig : (h.buildInit).orig = h.orig := rfl
@[simp] theorem Htb.buildInit_comp : (h.buildInit).comp = h.comp := rfl
@[simp] theorem Htb.buildInit_tbits : (h.buildInit).tbits = h.tbits := rfl
@[simp] theorem Htb.buildInit_slotSel : (h.buildInit).slotSel = h.slotSel := rfl
@[simp] theorem Htb.buildInit_nodeSel : (h.buildInit).nodeSel = h.nodeSel := rfl
@[simp] theorem Htb.buildInit_rootI : (h.buildInit).rootI = h.rootI := rfl
@[simp] theorem Htb.buildInit_pool : (h.buildInit).pool = h.pool := rfl
@[simp] theorem Htb.buildInit_node : (h.buildInit).node = Table.fill h.node h.leafOf h.n := rfl
@[simp] theorem Htb.buildInit_code : (h.buildInit).code = h.code := rfl
@[simp] theorem Htb.buildInit_live : (h.buildInit).live = List.range h.n := rfl
@[simp] theorem Htb.buildInit_epoch : (h.buildInit).epoch = h.epoch := rfl

/-! ### Htb.endHist -/

@[simp] theorem Htb.endHist_phase : (h.endHist).phase = .build := rfl
@[simp] theorem Htb.endHist_err : (h.endHist).err = h.err := rfl
@[simp] theorem Htb.endHist_dim : (h.endHist).dim = h.dim := rfl
@[simp] theorem Htb.endHist_pixCount : (h.endHist).pixCount = h.pixCount := rfl
@[simp] theorem Htb.endHist_symCount : (h.endHist).symCount = h.symCount := rfl
@[simp] theorem Htb.endHist_mergeCount : (h.endHist).mergeCount = h.mergeCount := rfl
@[simp] theorem Htb.endHist_progInterval : (h.endHist).progInterval = h.progInterval := rfl
@[simp] theorem Htb.endHist_evPending :
    (h.endHist).evPending = h.evPending ||| evMask .histDone ||| evMask .buildStart := rfl
@[simp] theorem Htb.endHist_evEnable : (h.endHist).evEnable = h.evEnable := rfl
@[simp] theorem Htb.endHist_orig : (h.endHist).orig = h.orig := rfl
@[simp] theorem Htb.endHist_comp : (h.endHist).comp = h.comp := rfl
@[simp] theorem Htb.endHist_tbits : (h.endHist).tbits = h.tbits := rfl
@[simp] theorem Htb.endHist_slotSel : (h.endHist).slotSel = h.slotSel := rfl
@[simp] theorem Htb.endHist_nodeSel : (h.endHist).nodeSel = h.nodeSel := rfl
@[simp] theorem Htb.endHist_rootI : (h.endHist).rootI = h.rootI := rfl
@[simp] theorem Htb.endHist_pool : (h.endHist).pool = h.pool := rfl
@[simp] theorem Htb.endHist_node : (h.endHist).node = Table.fill h.node h.leafOf h.n := rfl
@[simp] theorem Htb.endHist_code : (h.endHist).code = h.code := rfl
@[simp] theorem Htb.endHist_live : (h.endHist).live = List.range h.n := rfl
@[simp] theorem Htb.endHist_epoch : (h.endHist).epoch = h.epoch := rfl

/-! ### Htb.engBuildEnd -/

@[simp] theorem Htb.engBuildEnd_phase (r : Nat) : (h.engBuildEnd r).phase = .walk := rfl
@[simp] theorem Htb.engBuildEnd_err (r : Nat) : (h.engBuildEnd r).err = h.err := rfl
@[simp] theorem Htb.engBuildEnd_dim (r : Nat) : (h.engBuildEnd r).dim = h.dim := rfl
@[simp] theorem Htb.engBuildEnd_pixCount (r : Nat) : (h.engBuildEnd r).pixCount = h.pixCount := rfl
@[simp] theorem Htb.engBuildEnd_symCount (r : Nat) : (h.engBuildEnd r).symCount = h.symCount := rfl
@[simp] theorem Htb.engBuildEnd_mergeCount (r : Nat) :
    (h.engBuildEnd r).mergeCount = h.mergeCount := rfl
@[simp] theorem Htb.engBuildEnd_progInterval (r : Nat) :
    (h.engBuildEnd r).progInterval = h.progInterval := rfl
@[simp] theorem Htb.engBuildEnd_evPending (r : Nat) :
    (h.engBuildEnd r).evPending = h.evPending ||| evMask .buildDone ||| evMask .walkStart := rfl
@[simp] theorem Htb.engBuildEnd_evEnable (r : Nat) : (h.engBuildEnd r).evEnable = h.evEnable := rfl
@[simp] theorem Htb.engBuildEnd_orig (r : Nat) : (h.engBuildEnd r).orig = h.orig := rfl
@[simp] theorem Htb.engBuildEnd_comp (r : Nat) : (h.engBuildEnd r).comp = h.comp := rfl
@[simp] theorem Htb.engBuildEnd_tbits (r : Nat) : (h.engBuildEnd r).tbits = h.tbits := rfl
@[simp] theorem Htb.engBuildEnd_slotSel (r : Nat) : (h.engBuildEnd r).slotSel = h.slotSel := rfl
@[simp] theorem Htb.engBuildEnd_nodeSel (r : Nat) : (h.engBuildEnd r).nodeSel = h.nodeSel := rfl
@[simp] theorem Htb.engBuildEnd_rootI (r : Nat) : (h.engBuildEnd r).rootI = BitVec.ofNat 25 r := rfl
@[simp] theorem Htb.engBuildEnd_pool (r : Nat) : (h.engBuildEnd r).pool = h.pool := rfl
@[simp] theorem Htb.engBuildEnd_node (r : Nat) : (h.engBuildEnd r).node = h.node := rfl
@[simp] theorem Htb.engBuildEnd_code (r : Nat) : (h.engBuildEnd r).code = h.code := rfl
@[simp] theorem Htb.engBuildEnd_live (r : Nat) : (h.engBuildEnd r).live = h.live := rfl
@[simp] theorem Htb.engBuildEnd_epoch (r : Nat) : (h.engBuildEnd r).epoch = h.epoch := rfl

/-! ### Htb.engSize -/

@[simp] theorem Htb.engSize_phase : (h.engSize).phase = .done := rfl
@[simp] theorem Htb.engSize_err : (h.engSize).err = h.err := rfl
@[simp] theorem Htb.engSize_dim : (h.engSize).dim = h.dim := rfl
@[simp] theorem Htb.engSize_pixCount : (h.engSize).pixCount = h.pixCount := rfl
@[simp] theorem Htb.engSize_symCount : (h.engSize).symCount = h.symCount := rfl
@[simp] theorem Htb.engSize_mergeCount : (h.engSize).mergeCount = h.mergeCount := rfl
@[simp] theorem Htb.engSize_progInterval : (h.engSize).progInterval = h.progInterval := rfl
@[simp] theorem Htb.engSize_evPending : (h.engSize).evPending = h.evPending ||| evMask .done := rfl
@[simp] theorem Htb.engSize_evEnable : (h.engSize).evEnable = h.evEnable := rfl
@[simp] theorem Htb.engSize_orig : (h.engSize).orig = BitVec.ofNat 64 (originalBytes h.dim) := rfl
@[simp] theorem Htb.engSize_comp :
    (h.engSize).comp = BitVec.ofNat 64 (compressedBytes h.totalBits) := rfl
@[simp] theorem Htb.engSize_tbits : (h.engSize).tbits = BitVec.ofNat 64 h.totalBits := rfl
@[simp] theorem Htb.engSize_slotSel : (h.engSize).slotSel = h.slotSel := rfl
@[simp] theorem Htb.engSize_nodeSel : (h.engSize).nodeSel = h.nodeSel := rfl
@[simp] theorem Htb.engSize_rootI : (h.engSize).rootI = h.rootI := rfl
@[simp] theorem Htb.engSize_pool : (h.engSize).pool = h.pool := rfl
@[simp] theorem Htb.engSize_node : (h.engSize).node = h.node := rfl
@[simp] theorem Htb.engSize_code : (h.engSize).code = h.code := rfl
@[simp] theorem Htb.engSize_live : (h.engSize).live = h.live := rfl
@[simp] theorem Htb.engSize_epoch : (h.engSize).epoch = h.epoch := rfl

/-! ### Htb.progressCheck and Htb.engMerge: only PROGRESS depends on the count (R123) -/

@[simp] theorem Htb.progressCheck_phase : h.progressCheck.phase = h.phase := by
  unfold Htb.progressCheck; split <;> rfl
@[simp] theorem Htb.progressCheck_err : h.progressCheck.err = h.err := by
  unfold Htb.progressCheck; split <;> rfl
@[simp] theorem Htb.progressCheck_dim : h.progressCheck.dim = h.dim := by
  unfold Htb.progressCheck; split <;> rfl
@[simp] theorem Htb.progressCheck_pixCount : h.progressCheck.pixCount = h.pixCount := by
  unfold Htb.progressCheck; split <;> rfl
@[simp] theorem Htb.progressCheck_symCount : h.progressCheck.symCount = h.symCount := by
  unfold Htb.progressCheck; split <;> rfl
@[simp] theorem Htb.progressCheck_mergeCount : h.progressCheck.mergeCount = h.mergeCount := by
  unfold Htb.progressCheck; split <;> rfl
@[simp] theorem Htb.progressCheck_progInterval : h.progressCheck.progInterval = h.progInterval := by
  unfold Htb.progressCheck; split <;> rfl
@[simp] theorem Htb.progressCheck_evEnable : h.progressCheck.evEnable = h.evEnable := by
  unfold Htb.progressCheck; split <;> rfl
@[simp] theorem Htb.progressCheck_orig : h.progressCheck.orig = h.orig := by
  unfold Htb.progressCheck; split <;> rfl
@[simp] theorem Htb.progressCheck_comp : h.progressCheck.comp = h.comp := by
  unfold Htb.progressCheck; split <;> rfl
@[simp] theorem Htb.progressCheck_tbits : h.progressCheck.tbits = h.tbits := by
  unfold Htb.progressCheck; split <;> rfl
@[simp] theorem Htb.progressCheck_slotSel : h.progressCheck.slotSel = h.slotSel := by
  unfold Htb.progressCheck; split <;> rfl
@[simp] theorem Htb.progressCheck_nodeSel : h.progressCheck.nodeSel = h.nodeSel := by
  unfold Htb.progressCheck; split <;> rfl
@[simp] theorem Htb.progressCheck_rootI : h.progressCheck.rootI = h.rootI := by
  unfold Htb.progressCheck; split <;> rfl
@[simp] theorem Htb.progressCheck_pool : h.progressCheck.pool = h.pool := by
  unfold Htb.progressCheck; split <;> rfl
@[simp] theorem Htb.progressCheck_node : h.progressCheck.node = h.node := by
  unfold Htb.progressCheck; split <;> rfl
@[simp] theorem Htb.progressCheck_code : h.progressCheck.code = h.code := by
  unfold Htb.progressCheck; split <;> rfl
@[simp] theorem Htb.progressCheck_live : h.progressCheck.live = h.live := by
  unfold Htb.progressCheck; split <;> rfl
@[simp] theorem Htb.progressCheck_epoch : h.progressCheck.epoch = h.epoch := by
  unfold Htb.progressCheck; split <;> rfl
@[simp] theorem Htb.engMerge_phase (a b : Nat) :
    (h.engMerge a b).phase = h.phase := by
  simp [Htb.engMerge]
@[simp] theorem Htb.engMerge_err (a b : Nat) :
    (h.engMerge a b).err = h.err := by
  simp [Htb.engMerge]
@[simp] theorem Htb.engMerge_dim (a b : Nat) :
    (h.engMerge a b).dim = h.dim := by
  simp [Htb.engMerge]
@[simp] theorem Htb.engMerge_pixCount (a b : Nat) :
    (h.engMerge a b).pixCount = h.pixCount := by
  simp [Htb.engMerge]
@[simp] theorem Htb.engMerge_symCount (a b : Nat) :
    (h.engMerge a b).symCount = h.symCount := by
  simp [Htb.engMerge]
@[simp] theorem Htb.engMerge_mergeCount (a b : Nat) :
    (h.engMerge a b).mergeCount = h.mergeCount + 1 := by
  simp [Htb.engMerge]
@[simp] theorem Htb.engMerge_progInterval (a b : Nat) :
    (h.engMerge a b).progInterval = h.progInterval := by
  simp [Htb.engMerge]
@[simp] theorem Htb.engMerge_evEnable (a b : Nat) :
    (h.engMerge a b).evEnable = h.evEnable := by
  simp [Htb.engMerge]
@[simp] theorem Htb.engMerge_orig (a b : Nat) :
    (h.engMerge a b).orig = h.orig := by
  simp [Htb.engMerge]
@[simp] theorem Htb.engMerge_comp (a b : Nat) :
    (h.engMerge a b).comp = h.comp := by
  simp [Htb.engMerge]
@[simp] theorem Htb.engMerge_tbits (a b : Nat) :
    (h.engMerge a b).tbits = h.tbits := by
  simp [Htb.engMerge]
@[simp] theorem Htb.engMerge_slotSel (a b : Nat) :
    (h.engMerge a b).slotSel = h.slotSel := by
  simp [Htb.engMerge]
@[simp] theorem Htb.engMerge_nodeSel (a b : Nat) :
    (h.engMerge a b).nodeSel = h.nodeSel := by
  simp [Htb.engMerge]
@[simp] theorem Htb.engMerge_rootI (a b : Nat) :
    (h.engMerge a b).rootI = h.rootI := by
  simp [Htb.engMerge]
@[simp] theorem Htb.engMerge_pool (a b : Nat) :
    (h.engMerge a b).pool = h.pool := by
  simp [Htb.engMerge]
@[simp] theorem Htb.engMerge_node (a b : Nat) :
    (h.engMerge a b).node = Table.write h.node h.newNode (h.parentOf a b) := by
  simp [Htb.engMerge]
@[simp] theorem Htb.engMerge_code (a b : Nat) :
    (h.engMerge a b).code = h.code := by
  simp [Htb.engMerge]
@[simp] theorem Htb.engMerge_live (a b : Nat) :
    (h.engMerge a b).live = liveWith h.newNode (liveWithout b (liveWithout a h.live)) := by
  simp [Htb.engMerge]
@[simp] theorem Htb.engMerge_epoch (a b : Nat) :
    (h.engMerge a b).epoch = h.epoch := by
  simp [Htb.engMerge]

/-! ### The outcomes -/

variable (s t : State)

theorem State.answer_next (v : Word) : s.answer v = .next { s with reply := some v } := rfl

theorem State.commit_next : s.commit h = .next { s with htb := h, reply := none } := rfl

end Sys2Proof.Machine
end

