-- ==== Sys2Proof/Laws/Table.lean ====
section
/-! SUPPORT. The basic laws of the internal arrays: read after write, read after fill, and that every
operation keeps the canonical form and the capacity. -/

namespace Sys2Proof.Machine.Table

variable {α : Type}

@[simp] theorem read?_nil (i : Nat) : Table.read? ([] : Table α) i = none := rfl

/-- A read after a write gives the value written at its index, and leaves every other index alone. -/
theorem read?_write (t : Table α) (i : Nat) (v : α) (j : Nat) :
    Table.read? (Table.write t i v) j = if j = i then some v else Table.read? t j := by
  induction t with
  | nil => simp [write, read?, eq_comm]
  | cons e t ih =>
    obtain ⟨k, w⟩ := e
    unfold write
    split
    · simp [read?, eq_comm]
    · split
      · subst_vars; by_cases h : j = k <;> simp [read?, h, eq_comm]
      · simp only [read?, ih]; split <;> split <;> first | rfl | omega

@[simp] theorem read?_write_same (t : Table α) (i : Nat) (v : α) :
    Table.read? (Table.write t i v) i = some v := by
  simp [read?_write]

theorem read?_write_other (t : Table α) {i j : Nat} (v : α) (h : j ≠ i) :
    Table.read? (Table.write t i v) j = Table.read? t j := by
  simp [read?_write, h]

/-- A read after a fill gives the value written below the bound, and leaves the rest alone. -/
theorem read?_fill (t : Table α) (f : Nat → α) (n j : Nat) :
    Table.read? (Table.fill t f n) j = if j < n then some (f j) else Table.read? t j := by
  induction n with
  | zero => simp [fill]
  | succ n ih =>
    rw [fill, read?_write, ih]
    by_cases h : j = n
    · simp [h]
    · have : j < n + 1 ↔ j < n := by omega
      simp [h, this]

/-- The indices a write lists: those listed before, and its own. -/
theorem mem_write {t : Table α} {i : Nat} {v : α} {e : Nat × α}
    (h : e ∈ Table.write t i v) : e ∈ t ∨ e.1 = i := by
  induction t with
  | nil => simp only [write, List.mem_singleton] at h; exact .inr (by rw [h])
  | cons x t ih =>
    obtain ⟨k, w⟩ := x
    unfold write at h
    split at h
    · rcases List.mem_cons.mp h with rfl | h
      · exact .inr rfl
      · exact .inl h
    · split at h
      · rcases List.mem_cons.mp h with rfl | h
        · exact .inr rfl
        · exact .inl (List.mem_cons_of_mem _ h)
      · rcases List.mem_cons.mp h with rfl | h
        · exact .inl (List.mem_cons_self ..)
        · exact (ih h).imp (List.mem_cons_of_mem _) id

/-- A write keeps the capacity. -/
theorem bound_write {t : Table α} {i b : Nat} {v : α} (ht : ∀ e ∈ t, e.1 < b) (hi : i < b) :
    ∀ e ∈ Table.write t i v, e.1 < b := by
  intro e he
  rcases mem_write he with h | h
  · exact ht e h
  · omega

/-- A fill keeps the capacity. -/
theorem bound_fill {t : Table α} {n b : Nat} {f : Nat → α} (ht : ∀ e ∈ t, e.1 < b) (hn : n ≤ b) :
    ∀ e ∈ Table.fill t f n, e.1 < b := by
  induction n with
  | zero => exact ht
  | succ n ih => exact bound_write (ih (by omega)) (by omega)

/-- A write keeps the canonical form. -/
theorem wf_write {t : Table α} (h : Table.wf t) (i : Nat) (v : α) :
    Table.wf (Table.write t i v) := by
  induction t with
  | nil => simp [Table.wf, write]
  | cons x t ih =>
    obtain ⟨k, w⟩ := x
    simp only [Table.wf, List.map_cons, List.pairwise_cons, List.mem_map,
      forall_exists_index, and_imp] at h ih ⊢
    obtain ⟨hk, ht⟩ := h
    unfold write
    split
    · rename_i hik
      simp only [List.map_cons, List.pairwise_cons, List.mem_cons, List.mem_map]
      refine ⟨?_, ?_, ht⟩
      · rintro a (rfl | ⟨e, he, rfl⟩)
        · exact hik
        · exact lt_trans hik (hk _ e he rfl)
      · rintro a ⟨e, he, rfl⟩; exact hk _ e he rfl
    · split
      · subst_vars
        simp only [List.map_cons, List.pairwise_cons, List.mem_map]
        exact ⟨by rintro a ⟨e, he, rfl⟩; exact hk _ e he rfl, ht⟩
      · simp only [List.map_cons, List.pairwise_cons, List.mem_map]
        refine ⟨?_, ih ht⟩
        rintro a ⟨e, he, rfl⟩
        rcases mem_write he with h | h
        · exact hk _ e h rfl
        · omega

/-- A fill keeps the canonical form. -/
theorem wf_fill {t : Table α} (h : Table.wf t) (f : Nat → α) (n : Nat) :
    Table.wf (Table.fill t f n) := by
  induction n with
  | zero => exact h
  | succ n ih => exact wf_write ih n (f n)

end Sys2Proof.Machine.Table
end

