-- ==== Sys2Proof/Laws/Ops.lean ====
section
/-! SUPPORT. One lemma for each shared operation that says everything it can do: the event bits, reading
the arrays after each update, the pool search, counting a pixel, and the outcomes. -/

namespace Sys2Proof.Machine

/-! ### Event bits (R33, R230) -/

/-- Setting an event's bit sets that bit and no other. -/
theorem evIn_or_evMask (v : Events) (e f : Ev) :
    evIn (v ||| evMask e) f = (evIn v f || decide (e = f)) := by
  cases e <;> cases f <;> simp [evIn, evMask, evBit]

/-- Clearing a mask clears the bits of the mask and no other. -/
theorem evIn_ack (v m : Events) (f : Ev) : evIn (v &&& ~~~m) f = (evIn v f && !evIn m f) := by
  cases f <;> simp [evIn, evBit]

theorem evIn_zero (f : Ev) : evIn 0 f = false := by
  cases f <;> rfl

/-- The interrupt output is up exactly when some event is both pending and enabled (R231). -/
theorem Htb.irq_iff (h : Htb) :
    h.irq = true ↔ ∃ e, evIn h.evPending e = true ∧ evIn h.evEnable e = true := by
  have bitOf : ∀ i, i < 9 → ∃ e, evBit e = i := by
    intro i hi
    interval_cases i
    exacts [⟨.histDone, rfl⟩, ⟨.buildStart, rfl⟩, ⟨.progress, rfl⟩, ⟨.buildDone, rfl⟩,
      ⟨.walkStart, rfl⟩, ⟨.sizeStart, rfl⟩, ⟨.done, rfl⟩, ⟨.error, rfl⟩, ⟨.accErr, rfl⟩]
  simp only [Htb.irq, bne_iff_ne, ne_eq, evIn]
  constructor
  · intro hne
    by_contra hc
    refine hne (BitVec.eq_of_getLsbD_eq fun i hi => ?_)
    obtain ⟨e, rfl⟩ := bitOf i hi
    simpa using fun hp => by simpa [hp] using fun he => hc ⟨e, hp, he⟩
  · rintro ⟨e, hp, he⟩ hz
    simpa [hp, he] using congrArg (fun v => v.getLsbD (evBit e)) hz

/-! ### The arrays after each update (R50, R51, R53) -/

variable (h : Htb)

@[simp] theorem Htb.poolAt_signal (e : Ev) (i : Nat) :
    (h.signal e).poolAt i = h.poolAt i := rfl
@[simp] theorem Htb.poolAt_ack (m : Events) (i : Nat) :
    (h.ack m).poolAt i = h.poolAt i := rfl
@[simp] theorem Htb.poolAt_enterError (c : ErrCode) (i : Nat) :
    (h.enterError c).poolAt i = h.poolAt i := rfl
@[simp] theorem Htb.poolAt_clearRun (i : Nat) :
    (h.clearRun).poolAt i = h.poolAt i := rfl
@[simp] theorem Htb.poolAt_buildInit (i : Nat) :
    (h.buildInit).poolAt i = h.poolAt i := rfl
@[simp] theorem Htb.poolAt_endHist (i : Nat) :
    (h.endHist).poolAt i = h.poolAt i := rfl
@[simp] theorem Htb.poolAt_engBuildEnd (r : Nat) (i : Nat) :
    (h.engBuildEnd r).poolAt i = h.poolAt i := rfl
@[simp] theorem Htb.poolAt_engSize (i : Nat) :
    (h.engSize).poolAt i = h.poolAt i := rfl
@[simp] theorem Htb.poolAt_engMerge (a b i : Nat) : (h.engMerge a b).poolAt i = h.poolAt i := by
  simp [Htb.poolAt]

@[simp] theorem Htb.nodeAt_signal (e : Ev) (i : Nat) :
    (h.signal e).nodeAt i = h.nodeAt i := rfl
@[simp] theorem Htb.nodeAt_ack (m : Events) (i : Nat) :
    (h.ack m).nodeAt i = h.nodeAt i := rfl
@[simp] theorem Htb.nodeAt_enterError (c : ErrCode) (i : Nat) :
    (h.enterError c).nodeAt i = h.nodeAt i := rfl
@[simp] theorem Htb.nodeAt_clearRun (i : Nat) :
    (h.clearRun).nodeAt i = h.nodeAt i := rfl
@[simp] theorem Htb.nodeAt_countKnown (s : Nat) (i : Nat) :
    (h.countKnown s).nodeAt i = h.nodeAt i := rfl
@[simp] theorem Htb.nodeAt_countNew (y : Key) (i : Nat) :
    (h.countNew y).nodeAt i = h.nodeAt i := rfl
@[simp] theorem Htb.nodeAt_engBuildEnd (r : Nat) (i : Nat) :
    (h.engBuildEnd r).nodeAt i = h.nodeAt i := rfl
@[simp] theorem Htb.nodeAt_engSize (i : Nat) :
    (h.engSize).nodeAt i = h.nodeAt i := rfl

@[simp] theorem Htb.codeAt_signal (e : Ev) (i : Nat) :
    (h.signal e).codeAt i = h.codeAt i := rfl
@[simp] theorem Htb.codeAt_ack (m : Events) (i : Nat) :
    (h.ack m).codeAt i = h.codeAt i := rfl
@[simp] theorem Htb.codeAt_enterError (c : ErrCode) (i : Nat) :
    (h.enterError c).codeAt i = h.codeAt i := rfl
@[simp] theorem Htb.codeAt_clearRun (i : Nat) :
    (h.clearRun).codeAt i = h.codeAt i := rfl
@[simp] theorem Htb.codeAt_countKnown (s : Nat) (i : Nat) :
    (h.countKnown s).codeAt i = h.codeAt i := rfl
@[simp] theorem Htb.codeAt_countNew (y : Key) (i : Nat) :
    (h.countNew y).codeAt i = h.codeAt i := rfl
@[simp] theorem Htb.codeAt_buildInit (i : Nat) :
    (h.buildInit).codeAt i = h.codeAt i := rfl
@[simp] theorem Htb.codeAt_endHist (i : Nat) :
    (h.endHist).codeAt i = h.codeAt i := rfl
@[simp] theorem Htb.codeAt_engBuildEnd (r : Nat) (i : Nat) :
    (h.engBuildEnd r).codeAt i = h.codeAt i := rfl
@[simp] theorem Htb.codeAt_engSize (i : Nat) :
    (h.engSize).codeAt i = h.codeAt i := rfl
@[simp] theorem Htb.codeAt_engMerge (a b i : Nat) : (h.engMerge a b).codeAt i = h.codeAt i := by
  simp [Htb.codeAt]

/-- Counting a known symbol adds one to its own frequency (R112). -/
theorem Htb.poolAt_countKnown (s i : Nat) :
    (h.countKnown s).poolAt i =
      if i = s then { h.poolAt s with freq := (h.poolAt s).freq + 1 } else h.poolAt i := by
  simp only [Htb.poolAt, Htb.countKnown_pool, Htb.countKnown_epoch, Table.read?_write]
  split <;> rfl

/-- Counting a new symbol fills slot n (R112). -/
theorem Htb.poolAt_countNew (y : Key) (i : Nat) :
    (h.countNew y).poolAt i = if i = h.n then ⟨y, 1⟩ else h.poolAt i := by
  simp only [Htb.poolAt, Htb.countNew_pool, Htb.countNew_epoch, Table.read?_write]
  split <;> rfl

/-- BuildInit makes the leaves 0 .. n−1 (R120). -/
theorem Htb.nodeAt_buildInit (i : Nat) :
    h.buildInit.nodeAt i = if i < h.n then h.leafOf i else h.nodeAt i := by
  simp only [Htb.nodeAt, Htb.buildInit_node, Htb.buildInit_epoch, Table.read?_fill]
  split <;> rfl

theorem Htb.nodeAt_endHist (i : Nat) :
    h.endHist.nodeAt i = if i < h.n then h.leafOf i else h.nodeAt i := by
  simp only [Htb.nodeAt, Htb.endHist_node, Htb.endHist_epoch, Table.read?_fill]
  split <;> rfl

/-- ENG_MERGE makes node n + k and no other (R122). -/
theorem Htb.nodeAt_engMerge (a b i : Nat) :
    (h.engMerge a b).nodeAt i = if i = h.newNode then h.parentOf a b else h.nodeAt i := by
  simp only [Htb.nodeAt, Htb.engMerge_node, Htb.engMerge_epoch, Table.read?_write]
  split <;> rfl

/-- ENG_WALK writes the codes of all slots or of none (R131). -/
theorem Htb.engWalkTree_cases (t : Tree) :
    (t.tooDeep h.n = true ∧ h.engWalkTree t = h.enterError .codeLength) ∨
    (t.tooDeep h.n = false ∧ (h.engWalkTree t).phase = .size ∧
      (∀ i, (h.engWalkTree t).codeAt i = if i < h.n then pack (t.path i) else h.codeAt i)) := by
  unfold Htb.engWalkTree
  cases ht : t.tooDeep h.n with
  | true => exact .inl ⟨rfl, rfl⟩
  | false =>
    refine .inr ⟨rfl, rfl, fun i => ?_⟩
    simp only [Htb.codeAt, Bool.false_eq_true, if_false, Htb.signal, Table.read?_fill]
    split <;> rfl

/-! ### The pool search (R112) -/

theorem Htb.findSlot_some {y : Key} {s : Nat} (hs : h.findSlot y = some s) :
    s < h.n ∧ (h.poolAt s).key = y := by
  have h1 := List.find?_some hs
  have h2 := List.mem_of_find?_eq_some hs
  exact ⟨List.mem_range.mp h2, by simpa using h1⟩

theorem Htb.findSlot_none {y : Key} :
    h.findSlot y = none ↔ ∀ s, s < h.n → (h.poolAt s).key ≠ y := by
  simp [Htb.findSlot, List.find?_eq_none]

/-- Everything CountPixel can do (R112). -/
theorem Htb.countPixel_cases (c : Config) (y : Key) :
    (∃ s, s < h.n ∧ (h.poolAt s).key = y ∧ h.countPixel c y = h.countKnown s) ∨
    ((∀ s, s < h.n → (h.poolAt s).key ≠ y) ∧
      ((h.n < c.poolCap ∧ h.countPixel c y = h.countNew y) ∨
       (¬ h.n < c.poolCap ∧ h.countPixel c y = h.enterError .poolOverflow))) := by
  unfold Htb.countPixel
  cases hs : h.findSlot y with
  | some s => exact .inl ⟨s, (h.findSlot_some hs).1, (h.findSlot_some hs).2, rfl⟩
  | none =>
    refine .inr ⟨h.findSlot_none.mp hs, ?_⟩
    by_cases hn : h.n < c.poolCap
    · exact .inl ⟨hn, by simp [hn]⟩
    · exact .inr ⟨hn, by simp [hn]⟩

/-- Everything a PIXEL write can do (R110). -/
theorem Htb.pixel_cases (c : Config) (data : Word) :
    (h.phase ≠ .hist ∧ h.pixel c data = h.signal .accErr) ∨
    (h.phase = .hist ∧ ∃ g, g = h.countPixel c (key data) ∧
      ((g.phase = .hist ∧ g.pixCount.toNat = rasterSize g.dim ∧ h.pixel c data = g.endHist) ∨
       (¬ (g.phase = .hist ∧ g.pixCount.toNat = rasterSize g.dim) ∧ h.pixel c data = g))) := by
  unfold Htb.pixel Htb.endHistIfLast
  by_cases hp : h.phase = .hist
  · refine .inr ⟨hp, _, rfl, ?_⟩
    by_cases hl : (h.countPixel c (key data)).phase = .hist ∧
        (h.countPixel c (key data)).pixCount.toNat = rasterSize (h.countPixel c (key data)).dim
    · exact .inl ⟨hl.1, hl.2, by simp [hp, hl]⟩
    · exact .inr ⟨hl, by simp only [hp, if_true, hl, if_false]⟩
  · exact .inl ⟨hp, by simp [hp]⟩

/-- Everything CMD_START can do (R151). -/
theorem Htb.start_cases :
    (rasterSize h.dim = 0 ∧ h.start = h.clearRun.enterError .emptyInput) ∨
    (rasterSize h.dim ≠ 0 ∧ h.start = { h.clearRun with phase := .hist }) := by
  unfold Htb.start
  by_cases hr : rasterSize h.dim = 0
  · exact .inl ⟨hr, by simp [hr]⟩
  · exact .inr ⟨hr, by simp [hr]⟩

theorem Htb.unlessBusy_cases (g : Htb) :
    (h.busy = true ∧ h.unlessBusy g = h.signal .accErr) ∨
    (h.busy = false ∧ h.unlessBusy g = g) := by
  unfold Htb.unlessBusy
  cases h.busy
  · exact .inr ⟨rfl, rfl⟩
  · exact .inl ⟨rfl, rfl⟩

/-! ### The outcomes of operations and steps -/

/-- A host operation answers a next state that keeps the configuration and the agenda. -/
theorem exec_next (i : Instr) (s : State) :
    ∃ g r, exec i s = .next { s with htb := g, reply := r } := by
  cases i <;> exact ⟨_, _, rfl⟩

/-- Everything the engine's move can do. -/
theorem State.engineMove_cases (s t : State) (ht : s.engineMove = .next t) :
    (s.htb.enabled = none ∧ t = s) ∨
    (∃ e g, s.htb.enabled = some e ∧ s.htb.engine e = .ok g ∧ t = { s with htb := g }) := by
  unfold State.engineMove at ht
  split at ht
  · rename_i he; exact .inl ⟨he, by injection ht with ht; exact ht.symm⟩
  · rename_i e he
    split at ht
    · rename_i g hg
      exact .inr ⟨e, g, he, hg, by injection ht with ht; exact ht.symm⟩
    · cases ht

/-- Everything the enabled engine step can be (R233). -/
theorem Htb.enabled_cases {e : EngineStep} (he : h.enabled = some e) :
    (∃ a b, h.phase = .build ∧ h.least h.live = some a ∧
      h.least (liveWithout a h.live) = some b ∧ e = .merge a b) ∨
    (∃ a, h.phase = .build ∧ h.least h.live = some a ∧
      h.least (liveWithout a h.live) = none ∧ e = .buildEnd a) ∨
    (h.phase = .walk ∧ e = .walk) ∨ (h.phase = .size ∧ e = .size) := by
  cases hp : h.phase <;> simp only [Htb.enabled, hp, reduceCtorEq] at he
  · unfold Htb.enabledInBuild at he
    split at he
    · cases he
    · rename_i a ha
      split at he
      · rename_i b hb; exact .inl ⟨a, b, rfl, ha, hb, by injection he with he; exact he.symm⟩
      · rename_i hb; exact .inr (.inl ⟨a, rfl, ha, hb, by injection he with he; exact he.symm⟩)
  · exact .inr (.inr (.inl ⟨rfl, by injection he with he; exact he.symm⟩))
  · exact .inr (.inr (.inr ⟨rfl, by injection he with he; exact he.symm⟩))

/-- Everything an engine step that goes on can do (R122, R124, R131, R140). -/
theorem Htb.engine_cases {e : EngineStep} {g : Htb} (hg : h.engine e = .ok g) :
    (∃ a b, e = .merge a b ∧ g = h.engMerge a b) ∨
    (∃ r, e = .buildEnd r ∧ g = h.engBuildEnd r) ∨
    (∃ t, e = .walk ∧ h.runTree? = some t ∧ g = h.engWalkTree t) ∨
    (e = .size ∧ g = h.engSize) := by
  cases e with
  | merge a b => exact .inl ⟨a, b, rfl, by injection hg with hg; exact hg.symm⟩
  | buildEnd r => exact .inr (.inl ⟨r, rfl, by injection hg with hg; exact hg.symm⟩)
  | walk =>
    simp only [Htb.engine] at hg
    split at hg
    · rename_i t ht
      exact .inr (.inr (.inl ⟨t, rfl, ht, by injection hg with hg; exact hg.symm⟩))
    · cases hg
  | size => exact .inr (.inr (.inr ⟨rfl, by injection hg with hg; exact hg.symm⟩))

/-- Everything a step that goes on can do: a host operation, a move of the engine, or a reset. -/
theorem step_cases {s t : State} (ht : step s = .next t) :
    (∃ w rest, s.agenda = .host w :: rest ∧ exec (decode w) { s with agenda := rest } = .next t) ∨
    (∃ rest, (s.agenda = rest ∧ rest = [] ∨ s.agenda = .engine :: rest) ∧
      State.engineMove { s with agenda := rest } = .next t) ∨
    (∃ rest, s.agenda = .reset :: rest ∧ t = State.afterReset { s with agenda := rest }) := by
  obtain ⟨c, h, ag, r⟩ := s
  cases ag with
  | nil => exact .inr (.inl ⟨[], .inl ⟨rfl, rfl⟩, ht⟩)
  | cons e rest =>
    cases e with
    | host w => exact .inl ⟨w, rest, rfl, ht⟩
    | engine => exact .inr (.inl ⟨rest, .inr rfl, ht⟩)
    | reset => exact .inr (.inr ⟨rest, rfl, by injection ht with ht; exact ht.symm⟩)

end Sys2Proof.Machine
end

