-- ==== Sys2Proof/Laws/Selection.lean ====
section
/-! SUPPORT. The selection order ≺ is a strict total order (rule R121), `least` is the ≺-least element
of a set, and the two operations on LIVE add and remove one index. -/

namespace Sys2Proof.Machine

variable (h : Htb)

theorem Htb.precedes_iff {i j : Nat} :
    h.precedes i j = true ↔ (h.nodeAt i).freq.toNat < (h.nodeAt j).freq.toNat ∨
      ((h.nodeAt i).freq.toNat = (h.nodeAt j).freq.toNat ∧ i < j) := by
  simp [Htb.precedes, ← BitVec.toNat_inj]

theorem Htb.precedes_irrefl (i : Nat) : h.precedes i i = false := by
  simp [Htb.precedes]

theorem Htb.precedes_trans {i j k : Nat} (hij : h.precedes i j = true)
    (hjk : h.precedes j k = true) : h.precedes i k = true := by
  rw [Htb.precedes_iff] at *; omega

theorem Htb.precedes_total {i j : Nat} (hij : i ≠ j) :
    h.precedes i j = true ∨ h.precedes j i = true := by
  simp only [Htb.precedes_iff]; omega

theorem Htb.precedes_of_not {i j : Nat} (hij : i ≠ j) (hn : h.precedes j i = false) :
    h.precedes i j = true := by
  rcases h.precedes_total hij with h1 | h1
  · exact h1
  · rw [h1] at hn; cases hn

/-- The least element is missing only where the set is empty. -/
theorem Htb.least_eq_none {l : List Nat} : h.least l = none ↔ l = [] := by
  cases l with
  | nil => simp [Htb.least]
  | cons i l =>
    simp only [Htb.least, reduceCtorEq, iff_false]
    split
    · simp
    · split <;> simp

/-- The least element is an element. -/
theorem Htb.least_mem {l : List Nat} {a : Nat} (ha : h.least l = some a) : a ∈ l := by
  induction l generalizing a with
  | nil => cases ha
  | cons i l ih =>
    simp only [Htb.least] at ha
    split at ha
    · injection ha with ha; exact ha ▸ List.mem_cons_self ..
    · rename_i j hj
      split at ha
      · injection ha with ha; exact ha ▸ List.mem_cons_of_mem _ (ih hj)
      · injection ha with ha; exact ha ▸ List.mem_cons_self ..

/-- The least element comes before every other element (R121). -/
theorem Htb.least_precedes {l : List Nat} {a : Nat} (ha : h.least l = some a) :
    ∀ i ∈ l, i ≠ a → h.precedes a i = true := by
  induction l generalizing a with
  | nil => cases ha
  | cons x l ih =>
    simp only [Htb.least] at ha
    split at ha
    · rename_i hn
      injection ha with ha
      have hl := h.least_eq_none.mp hn
      intro i hi hne
      subst hl ha
      simp at hi; exact absurd hi hne
    · rename_i j hj
      split at ha
      · rename_i hji
        injection ha with ha
        subst ha
        intro i hi hne
        rcases List.mem_cons.mp hi with rfl | hi
        · exact hji
        · exact ih hj i hi hne
      · rename_i hji
        injection ha with ha
        subst ha
        intro i hi hne
        rcases List.mem_cons.mp hi with rfl | hi
        · exact absurd rfl hne
        · by_cases hxj : x = j
          · subst hxj; exact ih hj i hi hne
          · have hxj' := h.precedes_of_not hxj (by simpa using hji)
            by_cases hij : i = j
            · exact hij ▸ hxj'
            · exact h.precedes_trans hxj' (ih hj i hi hij)

@[simp] theorem mem_liveWithout {a i : Nat} {l : List Nat} :
    i ∈ liveWithout a l ↔ i ∈ l ∧ i ≠ a := by
  simp [liveWithout]

@[simp] theorem mem_liveWith {m i : Nat} {l : List Nat} : i ∈ liveWith m l ↔ i = m ∨ i ∈ l := by
  induction l with
  | nil => simp [liveWith]
  | cons x l ih =>
    unfold liveWith
    split
    · simp
    · split
      · subst_vars; simp
      · simp only [List.mem_cons, ih]; tauto

theorem liveWithout_rising {l : List Nat} (hl : l.Pairwise (· < ·)) (a : Nat) :
    (liveWithout a l).Pairwise (· < ·) := hl.filter _

theorem liveWith_rising {l : List Nat} (hl : l.Pairwise (· < ·)) (m : Nat) :
    (liveWith m l).Pairwise (· < ·) := by
  induction l with
  | nil => simp [liveWith]
  | cons x l ih =>
    rw [List.pairwise_cons] at hl
    unfold liveWith
    split
    · rename_i hm
      refine List.pairwise_cons.mpr ⟨?_, List.pairwise_cons.mpr hl⟩
      intro i hi
      rcases List.mem_cons.mp hi with rfl | hi
      · exact hm
      · exact lt_trans hm (hl.1 i hi)
    · split
      · exact List.pairwise_cons.mpr hl
      · refine List.pairwise_cons.mpr ⟨?_, ih hl.2⟩
        intro i hi
        rcases mem_liveWith.mp hi with rfl | hi
        · omega
        · exact hl.1 i hi

/-- A new highest index goes to the end. -/
theorem liveWith_above {l : List Nat} {m : Nat} (hm : ∀ i ∈ l, i < m) : liveWith m l = l ++ [m] := by
  induction l with
  | nil => rfl
  | cons x l ih =>
    have hx : x < m := hm x (List.mem_cons_self ..)
    unfold liveWith
    rw [if_neg (by omega), if_neg (by omega), ih fun i hi => hm i (List.mem_cons_of_mem _ hi)]
    rfl

/-- Taking a member out of a set without repeats leaves the sum of the others. -/
theorem sum_liveWithout {l : List Nat} {a : Nat} (hl : l.Nodup) (ha : a ∈ l) (f : Nat → Nat) :
    ((liveWithout a l).map f).sum + f a = (l.map f).sum := by
  induction l with
  | nil => cases ha
  | cons x l ih =>
    rw [List.nodup_cons] at hl
    by_cases hx : x = a
    · subst hx
      have : liveWithout x l = l := List.filter_eq_self.mpr fun i hi => by
        simp only [bne_iff_ne]; rintro rfl; exact hl.1 hi
      simp only [liveWithout, List.filter_cons, bne_self_eq_false, Bool.false_eq_true, if_false]
      rw [show l.filter (fun i => i != x) = l from this, List.map_cons, List.sum_cons]; omega
    · have ha' : a ∈ l := (List.mem_cons.mp ha).resolve_left (Ne.symm hx)
      have := ih hl.2 ha'
      simp only [liveWithout] at this
      simp only [liveWithout, List.filter_cons, bne_iff_ne, ne_eq, hx, not_false_eq_true, if_true,
        List.map_cons, List.sum_cons]
      omega

/-- Taking a member out of a set without repeats makes it one smaller. -/
theorem length_liveWithout {l : List Nat} {a : Nat} (hl : l.Nodup) (ha : a ∈ l) :
    (liveWithout a l).length + 1 = l.length := by
  have := sum_liveWithout hl ha fun _ => 1
  simpa using this

end Sys2Proof.Machine
end

