-- ==== Sys2Proof/Laws/Tree.lean ====
section
/-! SUPPORT. The codeword walk (rules R130..R133): the equations of a path, what `covers` and `tooDeep`
say, and the value of a codeword. -/

namespace Sys2Proof.Machine

/-- A leaf's path is empty, and a leaf holds no other slot (R130). -/
theorem Tree.path?_leaf (i s : Nat) :
    (Tree.leaf i).path? s = if i = s then some [] else none := rfl

/-- A path in a node starts with 0 to the left and with 1 to the right (R130). -/
theorem Tree.path?_node {l r : Tree} {s : Nat} {p : List Bool}
    (hp : (Tree.node l r).path? s = some p) :
    (∃ q, l.path? s = some q ∧ p = false :: q) ∨
    (l.path? s = none ∧ ∃ q, r.path? s = some q ∧ p = true :: q) := by
  simp only [Tree.path?] at hp
  split at hp
  · rename_i q hq; injection hp with hp; exact .inl ⟨q, hq, hp.symm⟩
  · rename_i hl
    split at hp
    · rename_i q hq; injection hp with hp; exact .inr ⟨hl, q, hq, hp.symm⟩
    · cases hp

theorem Tree.covers_iff {n : Nat} {t : Tree} :
    t.covers n = true ↔ ∀ s, s < n → ∃ p, t.path? s = some p := by
  simp [Tree.covers, Option.isSome_iff_exists]

theorem Tree.tooDeep_eq_false {n : Nat} {t : Tree} :
    t.tooDeep n = false ↔ ∀ s, s < n → (t.path s).length ≤ 64 := by
  simp [Tree.tooDeep]

theorem Tree.path_eq {t : Tree} {s : Nat} {p : List Bool} (hp : t.path? s = some p) :
    t.path s = p := by
  simp [Tree.path, hp]

/-- ENG_WALK's tree is the tree below `root_i`, and it covers every slot. -/
theorem Htb.runTree?_some {h : Htb} {t : Tree} :
    h.runTree? = some t ↔ h.tree? = some t ∧ t.covers h.n = true := by
  unfold Htb.runTree?
  cases h.tree? with
  | none => simp
  | some u =>
    simp only [Option.some.injEq]
    constructor
    · intro hu; split at hu
      · rename_i hc; injection hu with hu; subst hu; exact ⟨rfl, hc⟩
      · cases hu
    · rintro ⟨rfl, hc⟩; simp [hc]

/-- A codeword's value, one bit more at the end. -/
theorem codewordValue_snoc (p : List Bool) (b : Bool) :
    codewordValue (p ++ [b]) = 2 * codewordValue p + b.toNat := by
  simp [codewordValue, List.foldl_append]

@[simp] theorem codewordValue_nil : codewordValue [] = 0 := rfl

/-- An L-digit binary number is below 2^L (R133). -/
theorem codewordValue_lt (p : List Bool) : codewordValue p < 2 ^ p.length := by
  induction p using List.reverseRecOn with
  | nil => simp
  | append_singleton p b ih =>
    rw [codewordValue_snoc, List.length_append, List.length_singleton, pow_succ]
    have : b.toNat ≤ 1 := by cases b <;> decide
    omega

theorem pack_len {p : List Bool} (hp : p.length ≤ 64) : (pack p).len.toNat = p.length := by
  simp only [pack, BitVec.toNat_ofNat]; omega

theorem pack_bits {p : List Bool} (hp : p.length ≤ 64) :
    (pack p).bits.toNat = codewordValue p := by
  have h1 := codewordValue_lt p
  have h2 : 2 ^ p.length ≤ 2 ^ 64 := Nat.pow_le_pow_right (by decide) hp
  simp only [pack, BitVec.toNat_ofNat]
  exact Nat.mod_eq_of_lt (by omega)

end Sys2Proof.Machine
end

