-- ==== Sys2Proof/Tests/Slice0.lean ====
section
/-! SUPPORT. The model's own tests: expected values are those of 95_test_vectors.md and of the words of
opcode_table.json, and one witness for the hypotheses of each statement. -/

namespace Sys2Proof.Tests

open Sys2Proof.Machine

/-! ### Well-formedness: an ill-formed term for each check -/

theorem test_wf_refuses_start_as_reserved : (Instr.rsvdCmd 0x00000001).wf = false := by decide
theorem test_wf_refuses_abort_as_reserved : (Instr.rsvdCmd 0x00000002).wf = false := by decide
theorem test_wf_refuses_ignored_write_of_dim : (Instr.wrIgnored 0x014 7).wf = false := by decide
theorem test_wf_refuses_zero_read_of_id : (Instr.rdZero 0x000).wf = false := by decide

/-! ### Decoding, word by word from the spec -/

/-- commands (R93). -/
theorem test_decode_commands :
    decode 0x100800000001 = .cmdStart ∧
    decode 0x100800000002 = .cmdAbort ∧
    decode 0x100800000000 = .rsvdCmd 0x00000000 ∧
    decode 0x100800000011 = .rsvdCmd 0x00000011 := by
  decide

/-- writes (R91 test 2). -/
theorem test_decode_writes :
    decode 0x101400020003 = .wrDim 0x00020003 ∧
    decode 0x1018FF00FF00 = .wrPixel 0xFF00FF00 ∧
    decode 0x102800000002 = .wrProgInterval 2 ∧
    decode 0x102C00000040 = .wrEvPending 0x40 ∧
    decode 0x1030000000C0 = .wrEvEnable 0xC0 ∧
    decode 0x1050FFFFFFFF = .wrSlotSel 0xFFFFFFFF ∧
    decode 0x106800000006 = .wrNodeSel 6 := by
  decide

/-- ignored writes (R91 test 3). -/
theorem test_decode_ignored_writes :
    decode 0x100C00000005 = .wrIgnored 0x00C 5 ∧
    decode 0x11000000DEAD = .wrIgnored 0x100 0xDEAD ∧
    decode 0x100900000001 = .wrIgnored 0x009 1 ∧
    decode 0x100000000000 = .wrIgnored 0x000 0 := by
  decide

/-- reads of control and counters (R91 test 4). -/
theorem test_decode_control_reads :
    decode 0x000000000000 = .rdId ∧
    decode 0x000400000000 = .rdParam ∧
    decode 0x000C00000000 = .rdStatus ∧
    decode 0x001000000000 = .rdErr ∧
    decode 0x001400000000 = .rdDim ∧
    decode 0x001C00000000 = .rdPixCount ∧
    decode 0x002000000000 = .rdSymCount ∧
    decode 0x002400000000 = .rdMergeCount ∧
    decode 0x002800000000 = .rdProgInterval ∧
    decode 0x002C00000000 = .rdEvPending ∧
    decode 0x003000000000 = .rdEvEnable := by
  decide

/-- reads of results (R91 test 4). -/
theorem test_decode_result_reads :
    decode 0x003400000000 = .rdOrigLo ∧
    decode 0x003800000000 = .rdOrigHi ∧
    decode 0x003C00000000 = .rdCompLo ∧
    decode 0x004000000000 = .rdCompHi ∧
    decode 0x004400000000 = .rdTbitsLo ∧
    decode 0x004800000000 = .rdTbitsHi ∧
    decode 0x004C00000000 = .rdRoot := by
  decide

/-- reads of the windows (R91 test 4). -/
theorem test_decode_window_reads :
    decode 0x005000000000 = .rdSlotSel ∧
    decode 0x005400000000 = .rdSlotKey ∧
    decode 0x005800000000 = .rdSlotFreq ∧
    decode 0x005C00000000 = .rdSlotClen ∧
    decode 0x006000000000 = .rdSlotCbitsLo ∧
    decode 0x006400000000 = .rdSlotCbitsHi ∧
    decode 0x006800000000 = .rdNodeSel ∧
    decode 0x006C00000000 = .rdNodeKind ∧
    decode 0x007000000000 = .rdNodeFreq ∧
    decode 0x007400000000 = .rdNodeLeft ∧
    decode 0x007800000000 = .rdNodeRight := by
  decide

/-- zero reads (R91 test 5). -/
theorem test_decode_zero_reads :
    decode 0x000800000000 = .rdZero 0x008 ∧
    decode 0x001800000000 = .rdZero 0x018 ∧
    decode 0x010000000000 = .rdZero 0x100 ∧
    decode 0x000D00000000 = .rdZero 0x00D := by
  decide

/-- A number wider than an HTW is rejected by name (R90). -/
theorem test_decode_rejects_wide : decodeNat 0x200000000000 = .error .widerThanHtw := by rfl

theorem test_decode_table_word : decodeTableWord 48 0x1018FF0A0A0A = some (.wrPixel 0xFF0A0A0A) := by
  decide

/-! ### Small machines -/

/-- One value of the state after an operation. -/
def after {α : Type} (r : Result) (f : State → α) : Option α :=
  match r with
  | .next t => some (f t)
  | .fault _ => none
  | .refused _ => none

/-- A machine with POOL_CAP = 2^24, at power-on but for the block. -/
def withBlock (h : Htb) : State := { State.reset with htb := h }

/-- IDLE with the given DIM. -/
def idle (dim : Word) : Htb := { Htb.reset 0 with dim := dim }

/-- HIST with one pixel of A = (255,0,0) counted, of a raster of the given size. -/
def hist (dim : Word) : Htb :=
  { idle dim with phase := .hist, pixCount := 1, symCount := 1, pool := [(0, ⟨0xFF0000, 1⟩)] }

/-- BUILD of the 3×1 raster A, A, B with no merge yet. -/
def build : Htb :=
  { idle 0x00010003 with
    phase := .build, pixCount := 3, symCount := 2, pool := [(0, ⟨0xFF0000, 2⟩), (1, ⟨0x00FF00, 1⟩)]
    node := [(0, ⟨.leaf, 2, 0, 0⟩), (1, ⟨.leaf, 1, 0, 0⟩)], live := [0, 1], evPending := 0x003 }

/-- The same run after its one merge. -/
def merged : Htb :=
  { build with
    node := [(0, ⟨.leaf, 2, 0, 0⟩), (1, ⟨.leaf, 1, 0, 0⟩), (2, ⟨.internal, 3, 1, 0⟩)], live := [2]
    mergeCount := 1 }

/-- The same run in WALK, SIZE and DONE. -/
def walk : Htb := { merged with phase := .walk, rootI := 2, evPending := 0x01B }
def size : Htb :=
  { walk with phase := .size, code := [(0, ⟨1, 1⟩), (1, ⟨1, 0⟩)], evPending := 0x03B }
def done : Htb :=
  { size with phase := .done, tbits := 3, comp := 1, orig := 12, evPending := 0x07B }

/-- The 1×1 raster A in WALK and DONE. -/
def walkOne : Htb :=
  { idle 0x00010001 with
    phase := .walk, pixCount := 1, symCount := 1, pool := [(0, ⟨0xFF0000, 1⟩)]
    node := [(0, ⟨.leaf, 1, 0, 0⟩)], live := [0], rootI := 0, evPending := 0x01B }
def doneOne : Htb := { walkOne with phase := .done, code := [(0, ⟨0, 0⟩)], orig := 4 }

/-- ERROR after START with an empty raster. -/
def failed : Htb := { idle 0 with phase := .error, err := .emptyInput, evPending := 0x080 }

/-- The four equal leaves of vector B4, all live. -/
def fourLeaves : Htb :=
  { idle 0x00010004 with
    phase := .build, pixCount := 4, symCount := 4, live := [0, 1, 2, 3]
    node := [(0, ⟨.leaf, 1, 0, 0⟩), (1, ⟨.leaf, 1, 0, 0⟩), (2, ⟨.leaf, 1, 0, 0⟩), (3, ⟨.leaf, 1, 0, 0⟩)] }

/-- A tree of 65 internal nodes, one below the other, over slot 0, each with a leaf of its own to the
right: no run builds it, but R131 speaks of it. Node 0 and the odd nodes are the leaves. -/
def deepChain : Htb :=
  { idle 0x00010001 with
    phase := .walk, pixCount := 1, symCount := 1, rootI := 130
    node := Table.fill [(0, ⟨.leaf, 1, 0, 0⟩)] (fun i =>
      if i = 0 ∨ i % 2 = 1 then ⟨.leaf, 1, 0, 0⟩
      else ⟨.internal, 1, BitVec.ofNat 25 (i - 2), BitVec.ofNat 25 (i - 1)⟩) 131 }

/-! ### Operations, against 95_test_vectors.md -/

/-- K1. -/
theorem test_start : after (exec .cmdStart (withBlock (idle 0x00010002)))
    (fun t => (t.htb.statusWord, t.htb.evPending)) = some (0x09, 0) := by decide
/-- K2, E2. -/
theorem test_start_empty : after (exec .cmdStart (withBlock (idle 0x00000005)))
    (fun t => (t.htb.statusWord, t.htb.err, t.htb.evPending)) = some (0x06, .emptyInput, 0x080) := by
  decide
/-- K3. -/
theorem test_start_from_done : after (exec .cmdStart (withBlock done))
    (fun t => (t.htb.phase, t.htb.pixCount, t.htb.orig, t.htb.evPending)) =
    some (.hist, 0, 0, 0) := by decide
/-- K6. -/
theorem test_abort : after (exec .cmdAbort (withBlock failed))
    (fun t => (t.htb.phase, t.htb.err, t.htb.evPending)) = some (.idle, .noError, 0) := by decide
/-- K8, E8. -/
theorem test_reserved : after (exec (.rsvdCmd 0x11) (withBlock (hist 0x00010003)))
    (fun t => (t.htb.statusWord, t.htb.evPending)) = some (0x09, 0x100) := by decide
/-- K9. -/
theorem test_ack : after (exec (.wrEvPending 0x40) (withBlock { done with evPending := 0x07F }))
    (fun t => t.htb.evPending) = some 0x03F := by decide
/-- K10. -/
theorem test_ack_high_bits :
    after (exec (.wrEvPending 0xFFFFFE00) (withBlock { done with evPending := 0x07F }))
      (fun t => t.htb.evPending) = some 0x07F := by decide
/-- K11. -/
theorem test_enable : after (exec (.wrEvEnable 0x40) (withBlock done))
    (fun t => (t.htb.irq, t.htb.statusWord)) = some (true, 0x35) := by decide
/-- A3. -/
theorem test_dim_busy : after (exec (.wrDim 0x00030003) (withBlock (hist 0x00010003)))
    (fun t => (t.htb.dim, t.htb.evPending)) = some (0x00010003, 0x100) := by decide
/-- A5. -/
theorem test_dim_done : after (exec (.wrDim 0x00030003) (withBlock done))
    (fun t => (t.htb.dim, t.htb.orig, t.htb.evPending)) = some (0x00030003, 12, 0x07B) := by decide
/-- A4. -/
theorem test_interval_busy : after (exec (.wrProgInterval 1) (withBlock build))
    (fun t => (t.htb.progInterval, t.htb.evPending)) = some (500, 0x103) := by decide
/-- A6. -/
theorem test_slot_sel : after (exec (.wrSlotSel 0xFFFFFFFF) (withBlock done))
    (fun t => after (exec .rdSlotSel t) (fun u => u.reply)) = some (some (some 0x01FFFFFF)) := by
  decide
theorem test_node_sel : after (exec (.wrNodeSel 0x02000001) (withBlock done))
    (fun t => t.htb.nodeSel) = some 1 := by decide
/-- A11. -/
theorem test_ignored : after (exec (.wrIgnored 0x00C 5) (withBlock done))
    (fun t => (t.htb, t.reply)) = some (done, none) := by decide
/-- H4. -/
theorem test_pixel_idle : after (exec (.wrPixel 0xFF0000FF) (withBlock (idle 0)))
    (fun t => (t.htb.evPending, t.htb.pixCount)) = some (0x100, 0) := by decide
/-- H2, in part: first-occurrence order. -/
theorem test_pixel_new : after (exec (.wrPixel 0xFF00FF00) (withBlock (hist 0x00010003)))
    (fun t => (t.htb.poolAt 1, t.htb.symCount, t.htb.pixCount, t.htb.phase)) =
    some (⟨0x00FF00, 1⟩, 2, 2, .hist) := by decide
/-- H1: alpha takes no part. -/
theorem test_pixel_known : after (exec (.wrPixel 0x000000FF) (withBlock (hist 0x00010003)))
    (fun t => (t.htb.poolAt 0, t.htb.symCount)) = some (⟨0xFF0000, 2⟩, 1) := by decide
/-- H6: POOL_CAP = 1. -/
theorem test_pixel_overflow :
    after (exec (.wrPixel 0xFF00FF00) { withBlock (hist 0x00010002) with config := ⟨0⟩ })
      (fun t => (t.htb.phase, t.htb.err, t.htb.pixCount, t.htb.symCount, t.htb.evPending)) =
    some (.error, .poolOverflow, 1, 1, 0x080) := by decide
/-- H7, in part: the last pixel enters BUILD in the same write. -/
theorem test_pixel_last : after (exec (.wrPixel 0xFF0000FF) (withBlock (hist 0x00010002)))
    (fun t => (t.htb.phase, t.htb.evPending, t.htb.nodeAt 0, t.htb.live)) =
    some (.build, 0x003, ⟨.leaf, 2, 0, 0⟩, [0]) := by decide
/-- B2: the left child has the higher index, because its frequency is lower. -/
theorem test_merge : after (step (withBlock build))
    (fun t => (t.htb.nodeAt 2, t.htb.live, t.htb.mergeCount, t.htb.evPending)) =
    some (⟨.internal, 3, 1, 0⟩, [2], 1, 0x003) := by decide
/-- log 18, the model's choice: slot 0 below both children of the root has the path to the left. -/
theorem test_shared_leaf : Tree.path? 0 (.node (.leaf 0) (.leaf 0)) = some [false] := by decide
/-- B4: equal frequencies, the lower index first. -/
theorem test_merge_tie : fourLeaves.enabled = some (.merge 0 1) := by decide
/-- B9: PROG_INTERVAL = 1. -/
theorem test_progress : after (step (withBlock { build with progInterval := 1 }))
    (fun t => t.htb.evPending) = some 0x007 := by decide
theorem test_build_end : after (step (withBlock merged))
    (fun t => (t.htb.phase, t.htb.rootI, t.htb.evPending)) = some (.walk, 2, 0x01B) := by decide
/-- W2. -/
theorem test_walk : after (step (withBlock walk))
    (fun t => (t.htb.codeAt 0, t.htb.codeAt 1, t.htb.phase)) =
    some (⟨1, 1⟩, ⟨1, 0⟩, .size) := by decide
/-- W6, W8: packing. -/
theorem test_pack : pack [true, true, true, true, false] = ⟨5, 0x1E⟩ ∧
    pack (true :: List.replicate 63 false) = ⟨64, 0x8000000000000000⟩ := by decide
/-- Z2. -/
theorem test_size : after (step (withBlock size))
    (fun t => (t.htb.tbits, t.htb.comp, t.htb.orig, t.htb.evPending)) =
    some (3, 1, 12, 0x07B) := by decide
/-- Z8. -/
theorem test_original_bytes : originalBytes 0xFFFFFFFF = 17179344900 := by decide

/-! ### Reads, against 95_test_vectors.md -/

/-- What a read answers. -/
def answer (i : Instr) (h : Htb) : Option Word :=
  match exec i (withBlock h) with
  | .next t => t.reply
  | .fault _ => none
  | .refused _ => none

/-- A1, A2. -/
theorem test_read_constants : answer .rdId (idle 0) = some 0x48544231 ∧
    answer .rdParam (idle 0) = some 0x81000000 ∧ answer .rdProgInterval (idle 0) = some 0x1F4 := by
  decide
/-- E2, A13, Z8. -/
theorem test_read_status : answer .rdStatus failed = some 0x06 ∧ answer .rdStatus done = some 0x15 ∧
    answer .rdErr failed = some 1 ∧
    answer .rdOrigHi { done with orig := 0x3FFFE0004 } = some 3 ∧
    answer .rdOrigLo { done with orig := 0x3FFFE0004 } = some 0xFFFE0004 := by decide
/-- P1, P2: the windows of one slot and one node. -/
theorem test_read_windows : answer .rdSlotKey { done with slotSel := 1 } = some 0x00FF00 ∧
    answer .rdSlotClen { done with slotSel := 1 } = some 1 ∧
    answer .rdSlotFreq { done with slotSel := 2 } = some 0 ∧
    answer .rdNodeKind { done with nodeSel := 2 } = some 2 ∧
    answer .rdNodeLeft { done with nodeSel := 2 } = some 1 ∧
    answer .rdNodeRight { done with nodeSel := 2 } = some 0 ∧
    answer .rdNodeKind { done with nodeSel := 3 } = some 0 ∧
    answer .rdRoot done = some 2 ∧ answer .rdRoot walk = some 0 := by decide
/-- A12. -/
theorem test_read_zero : answer (.rdZero 0x008) done = some 0 := by decide

/-- R-1: reset during a run. -/
theorem test_reset :
    after (step { withBlock { hist 0x00010004 with progInterval := 7, evEnable := 0x1FF } with
      agenda := [.reset] })
    (fun t => (t.htb.statusWord, t.htb.progInterval, t.htb.evEnable, t.htb.dim)) =
    some (0, 500, 0, 0) := by decide

/-- A word placed with withFetchWord runs at once. -/
theorem test_fetch : after (step (State.reset.withFetchWord 48 0x101400010002))
    (fun t => t.htb.dim) = some 0x00010002 := by decide

/-! ### The invariant holds of a small machine in every phase -/

/-- The parts of the invariant, in a form `decide` can settle on a small block. -/
abbrev Parts (c : Config) (h : Htb) : Prop :=
  (Table.wf h.pool ∧ Table.wf h.node ∧ Table.wf h.code ∧ (∀ e ∈ h.pool, e.1 < c.poolCap) ∧
    (∀ e ∈ h.node, e.1 < c.nodeCap) ∧ ∀ e ∈ h.code, e.1 < c.poolCap) ∧
  ((∀ j, j < h.n → ∀ i, i < j → (h.poolAt i).key ≠ (h.poolAt j).key) ∧
    (∀ s, s < h.n → 1 ≤ (h.poolAt s).freq.toNat) ∧ h.freqSum = h.pixCount.toNat ∧
    h.n ≤ c.poolCap ∧ h.pixCount.toNat ≤ 65535 * 65535) ∧
  (h.err ≠ .noError ↔ h.phase = .error) ∧
  (h.phase ≠ .done → h.orig = 0 ∧ h.comp = 0 ∧ h.tbits = 0) ∧
  (h.phase = .idle → h.pixCount = 0 ∧ h.symCount = 0) ∧
  (h.phase = .idle ∨ h.phase = .hist → h.mergeCount = 0 ∧ h.live = []) ∧
  (h.k = 0 ∨ h.k < h.n) ∧
  (h.phase = .hist → h.pixCount.toNat < rasterSize h.dim) ∧
  (h.phase = .build ∨ h.phase = .walk ∨ h.phase = .size → h.pixCount.toNat = rasterSize h.dim)

/-- The parts of the forest's invariant. -/
abbrev ForestParts (h : Htb) : Prop :=
  1 ≤ h.n ∧ (∀ i, i < h.n → h.nodeAt i = h.leafOf i) ∧
  (∀ i, i < h.n + h.k → h.n ≤ i → h.IsMerge i) ∧ h.live.Pairwise (· < ·) ∧
  (∀ i ∈ h.live, i < h.n + h.k) ∧ h.live.length + h.k = h.n ∧
  (h.live.map fun i => (h.nodeAt i).freq.toNat).sum = h.pixCount.toNat ∧
  ∀ j, j < h.n + h.k → (j ∈ h.live ↔ ∀ p, p < h.n + h.k → ¬ h.IsParent p j)

/-- No node has two parents. -/
abbrev OneParent (h : Htb) : Prop :=
  ∀ j ∈ List.range (h.n + h.k), ∀ p ∈ List.range (h.n + h.k), ∀ q ∈ List.range (h.n + h.k),
    h.IsParent p j ∧ h.IsParent q j → p = q

/-- The parts of the code table's invariant, for the tree `t`. -/
abbrev CodeParts (h : Htb) (t : Tree) : Prop :=
  h.runTree? = some t ∧ t.tooDeep h.n = false ∧ ∀ s, s < h.n → h.codeAt s = pack (t.path s)

theorem inv_of_parts {c : Config} {h : Htb} (hp : Parts c h)
    (hf : h.phase.hasNodes = true → ForestParts h) (ho : h.phase.hasNodes = true → OneParent h)
    (hr : h.phase.hasTree = true → h.k + 1 = h.n ∧ h.rootI.toNat + 2 = 2 * h.n) (t : Tree)
    (hc : h.phase.hasCodes = true → CodeParts h t)
    (hd : h.phase = .done → h.orig.toNat = 4 * h.pixCount.toNat ∧ h.tbits.toNat = h.totalBits ∧
      h.comp.toNat = compressedBytes h.totalBits) : h.Inv c where
  tables := ⟨hp.1.1, hp.1.2.1, hp.1.2.2.1, hp.1.2.2.2.1, hp.1.2.2.2.2.1, hp.1.2.2.2.2.2⟩
  hist := ⟨hp.2.1.1, hp.2.1.2.1, hp.2.1.2.2.1, hp.2.1.2.2.2.1, hp.2.1.2.2.2.2⟩
  errIffError := hp.2.2.1
  noResult := hp.2.2.2.1
  idleEmpty := hp.2.2.2.2.1
  noMergeYet := hp.2.2.2.2.2.1
  mergesBelow := hp.2.2.2.2.2.2.1
  moreToCome := hp.2.2.2.2.2.2.2.1
  allCounted := hp.2.2.2.2.2.2.2.2
  forest h := by
    obtain ⟨h1, h2, h3, h4, h5, h6, h7, h8⟩ := hf h
    exact ⟨h1, h2, h3, h4, h5, h6, h7, h8, fun j hj p hp hpj q hq hqj =>
      ho h j (List.mem_range.2 hj) p (List.mem_range.2 hp) q (List.mem_range.2 hq) ⟨hpj, hqj⟩⟩
  root h := ⟨(hr h).1, (hr h).2⟩
  codes h := ⟨t, hc h⟩
  results h := ⟨(hd h).1, (hd h).2.1, (hd h).2.2⟩

/-- The tree of the run A, A, B: B to the left. -/
def treeBA : Tree := .node (.leaf 1) (.leaf 0)

theorem inv_idle : (withBlock (idle 0x00010002)).Inv :=
  inv_of_parts (by decide) (by decide) (by decide) (by decide) treeBA (by decide) (by decide)
theorem inv_hist3 : (withBlock (hist 0x00010003)).Inv :=
  inv_of_parts (by decide) (by decide) (by decide) (by decide) treeBA (by decide) (by decide)
theorem inv_hist2 : (withBlock (hist 0x00010002)).Inv :=
  inv_of_parts (by decide) (by decide) (by decide) (by decide) treeBA (by decide) (by decide)
theorem inv_failed : (withBlock failed).Inv :=
  inv_of_parts (by decide) (by decide) (by decide) (by decide) treeBA (by decide) (by decide)
theorem inv_build : (withBlock build).Inv :=
  inv_of_parts (by decide) (by decide) (by decide) (by decide) treeBA (by decide) (by decide)
theorem inv_merged : (withBlock merged).Inv :=
  inv_of_parts (by decide) (by decide) (by decide) (by decide) treeBA (by decide) (by decide)
theorem inv_walk : (withBlock walk).Inv :=
  inv_of_parts (by decide) (by decide) (by decide) (by decide) treeBA (by decide) (by decide)
theorem inv_size : (withBlock size).Inv :=
  inv_of_parts (by decide) (by decide) (by decide) (by decide) treeBA (by decide) (by decide)
theorem inv_done : (withBlock done).Inv :=
  inv_of_parts (by decide) (by decide) (by decide) (by decide) treeBA (by decide) (by decide)
theorem inv_walkOne : (withBlock walkOne).Inv :=
  inv_of_parts (by decide) (by decide) (by decide) (by decide) (.leaf 0) (by decide) (by decide)
theorem inv_doneOne : (withBlock doneOne).Inv :=
  inv_of_parts (by decide) (by decide) (by decide) (by decide) (.leaf 0) (by decide) (by decide)

/-! ### Witnesses: states and operands that meet the hypotheses of the statements -/

/-- `s` with these events to come. -/
def State.coming (s : State) (l : List Event) : State := { s with agenda := l }

theorem witness_DecodeInvertsEncode :
    (Instr.wrDim 5).wf = true ∧ (Instr.rsvdCmd 0).wf = true ∧ (Instr.rsvdCmd 0xFFFFFFFF).wf = true ∧
    (Instr.wrIgnored 0xFFF 1).wf = true ∧ (Instr.rdZero 0x07C).wf = true := by decide
/-- A write, and a read with DATA 0: for EncodeInvertsDecode and DisassembledLinesAssembleBack. -/
theorem witness_EncodeInvertsDecode :
    htwWr 0x100D00000001 = true ∧ htwWr 0x07C00000000 = false ∧ htwData 0x07C00000000 = 0 := by decide
theorem witness_Window : windowOffset? (hostAddress 0xFFF) = some 0xFFF ∧
    windowOffset? (hostAddress 0) = some 0 := by
  constructor <;> simp [windowOffset?, hostAddress]
theorem witness_StepRunsTheNextEvent :
    (State.coming State.reset [.host 0x100800000001, .engine]).agenda =
      .host 0x100800000001 :: [.engine] ∧ decode 0x100800000001 = .cmdStart ∧
    (State.coming State.reset [.engine]).agenda = .engine :: [] ∧
    (State.coming State.reset [.reset]).agenda = .reset :: [] ∧ State.reset.agenda = [] := by decide

/-- One machine that meets the invariant in each phase, BUILD with one live node and with two: for
OneEngineStepIsEnabledPerState, NoStepStops, EveryStepKeepsTheInvariant. -/
theorem witness_OneEngineStepIsEnabledPerState :
    (withBlock (idle 0x00010002)).Inv ∧ (withBlock (hist 0x00010003)).Inv ∧
    ((withBlock build).Inv ∧ build.phase = .build ∧ build.live.length = 2) ∧
    ((withBlock merged).Inv ∧ merged.phase = .build ∧ merged.live.length = 1) ∧
    ((withBlock walk).Inv ∧ walk.phase = .walk) ∧ ((withBlock size).Inv ∧ size.phase = .size) ∧
    ((withBlock done).Inv ∧ done.phase = .done) ∧
    ((withBlock failed).Inv ∧ failed.phase = .error) :=
  ⟨inv_idle, inv_hist3, ⟨inv_build, by decide⟩, ⟨inv_merged, by decide⟩, ⟨inv_walk, rfl⟩,
    ⟨inv_size, rfl⟩, ⟨inv_done, rfl⟩, inv_failed, rfl⟩
/-- The second clause of OneEngineStepIsEnabledPerState: the engine next, and no step enabled. -/
theorem witness_NoEngineStepIsEnabled :
    ((withBlock (hist 0x00010003)).engineNext ∧ (hist 0x00010003).enabled = none) ∧
    (State.coming (withBlock done) [.engine]).engineNext ∧ done.enabled = none :=
  ⟨⟨.inl rfl, rfl⟩, .inr ⟨_, rfl⟩, rfl⟩
/-- Every code ERR holds. -/
theorem witness_ErrorCodes : done.err = .noError ∧ failed.err = .emptyInput ∧
    { failed with err := .poolOverflow }.err = .poolOverflow ∧
    { failed with err := .codeLength }.err = .codeLength := by decide
theorem witness_EveryStepKeepsTheInvariant :
    ((withBlock build).Inv ∧ ∃ t, step (withBlock build) = .next t) ∧
    ((withBlock walk).Inv ∧ ∃ t, step (withBlock walk) = .next t) :=
  ⟨⟨inv_build, _, rfl⟩, inv_walk, _, rfl⟩
theorem witness_ResetEvent :
    (State.coming (withBlock build) [.reset, .engine]).agenda = .reset :: [.engine] := rfl
theorem witness_HostOperations : htwWr 0x00000000000 = false ∧ htwWr 0x100000000000 = true := by decide

/-- Not in ERROR, and not in DONE: for PlainRegistersRead, ResultsReadInHalves, NothingIsReadBeforeDone
and RootAndSelectorsRead. -/
theorem witness_NothingIsReadBeforeDone :
    (withBlock size).Inv ∧ size.phase ≠ .done ∧ size.phase ≠ .error :=
  ⟨inv_size, by decide⟩
/-- The last slot, and the first index beyond. -/
theorem witness_SlotWindowReads :
    (done.phase = .done ∧ (BitVec.toNat { done with slotSel := 1 }.slotSel) < done.n) ∧
    ¬ (BitVec.toNat { done with slotSel := 2 }.slotSel < done.n) ∧
    ¬ (size.phase = .done) := by decide
/-- The last leaf, the root, and the first index beyond. -/
theorem witness_NodeWindowReads :
    (done.phase = .done ∧ (1 : Nat) < 2 * done.n - 1 ∧ (done.nodeAt 1).kind = .leaf) ∧
    ((2 : Nat) < 2 * done.n - 1 ∧ (done.nodeAt 2).kind = .internal) ∧
    ¬ ((3 : Nat) < 2 * done.n - 1) := by decide
theorem witness_ZeroReads : (0x07C : Nat) ≤ (0x07C : Offset).toNat ∧
    (0x07C : Nat) ≤ (0xFFC : Offset).toNat ∧ (0x001 : Offset).toNat % 4 ≠ 0 ∧
    (0x07B : Offset).toNat % 4 ≠ 0 := by decide
theorem witness_ConfigWrites :
    ((idle 0).phase = .idle ∧ done.phase = .done ∧ failed.phase = .error) ∧
    ((hist 0x00010003).phase = .hist ∧ build.phase = .build ∧ walk.phase = .walk ∧
      size.phase = .size) := by decide
theorem witness_SelectorWrites :
    (2 : Index).toNat = (0xFE000002 : Word).toNat % 2 ^ 25 ∧ done.n ≤ (2 : Index).toNat ∧
    (3 : Index).toNat = (0x02000003 : Word).toNat % 2 ^ 25 ∧ 2 * done.n - 1 ≤ (3 : Index).toNat := by
  decide
theorem witness_OtherWrites :
    (0x00C : Offset) ∉ [0x008, 0x014, 0x018, 0x028, 0x02C, 0x030, 0x050, (0x068 : Offset)] ∧
    (0x009 : Offset) ∉ [0x008, 0x014, 0x018, 0x028, 0x02C, 0x030, 0x050, (0x068 : Offset)] ∧
    (0xFFC : Offset) ∉ [0x008, 0x014, 0x018, 0x028, 0x02C, 0x030, 0x050, (0x068 : Offset)] := by
  decide
theorem witness_StartBeginsARun :
    (dimWidth 0x00010001).toNat * (dimHeight 0x00010001).toNat ≠ 0 ∧
    dimWidth 0x00010000 = 0 ∧ dimHeight 0x00000001 = 0 := by decide
theorem witness_AbortClearsTheRun : (withBlock (idle 0x00010002)).Inv ∧ (idle 0x00010002).phase = .idle :=
  ⟨inv_idle, rfl⟩
theorem witness_ReservedCommands : (0x00000000 : Word) ≠ 0x00000001 ∧ (0x00000000 : Word) ≠ 0x00000002 ∧
    (0x00000003 : Word) ≠ 0x00000001 ∧ (0x00000011 : Word) ≠ 0x00000001 := by decide
/-- Two blocks of different runs under one configuration. -/
theorem witness_StartForgetsTheOldRun : done.dim = build.dim ∧ done.progInterval = build.progInterval ∧
    done.evEnable = build.evEnable ∧ done.slotSel = build.slotSel ∧ done.nodeSel = build.nodeSel ∧
    done ≠ build := by decide
theorem witness_PixelsOutside : (idle 0).phase ≠ .hist ∧ build.phase ≠ .hist := by decide
theorem witness_AlphaTakesNoPart :
    (0x00ABCDEF : Word).extractLsb' 0 24 = (0xFFABCDEF : Word).extractLsb' 0 24 := by decide
theorem witness_KnownPixel : (withBlock (hist 0x00010003)).Inv ∧ (hist 0x00010003).phase = .hist ∧
    0 < (hist 0x00010003).n ∧ ((hist 0x00010003).poolAt 0).key = key 0xFF0000FF ∧
    (hist 0x00010003).pixCount.toNat + 1 <
      (dimWidth (hist 0x00010003).dim).toNat * (dimHeight (hist 0x00010003).dim).toNat :=
  ⟨inv_hist3, by decide⟩
theorem witness_NewPixel : (withBlock (hist 0x00010003)).Inv ∧ (hist 0x00010003).phase = .hist ∧
    (∀ i, i < (hist 0x00010003).n → ((hist 0x00010003).poolAt i).key ≠ key 0xFF00FF00) ∧
    (hist 0x00010003).n < (withBlock (hist 0x00010003)).config.poolCap ∧
    (hist 0x00010003).pixCount.toNat + 1 <
      (dimWidth (hist 0x00010003).dim).toNat * (dimHeight (hist 0x00010003).dim).toNat :=
  ⟨inv_hist3, by decide⟩
/-- POOL_CAP = 1. -/
theorem witness_PoolOverflow : (hist 0x00010003).phase = .hist ∧
    (∀ i, i < (hist 0x00010003).n → ((hist 0x00010003).poolAt i).key ≠ key 0xFF00FF00) ∧
    (hist 0x00010003).n = Config.poolCap ⟨0⟩ := by decide
theorem witness_TheFullPool : (withBlock build).Inv ∧ (withBlock build).config.poolCap = 2 ^ 24 ∧
    build.err ≠ .poolOverflow ∧ ∃ t, step (withBlock build) = .next t :=
  ⟨inv_build, by decide, by decide, _, rfl⟩
/-- The last pixel: of a known symbol, and of a new one. -/
theorem witness_LastPixel : (withBlock (hist 0x00010002)).Inv ∧ (hist 0x00010002).phase = .hist ∧
    (∃ i, i < (hist 0x00010002).n ∧ ((hist 0x00010002).poolAt i).key = key 0xFF0000FF) ∧
    ((∀ i, i < (hist 0x00010002).n → ((hist 0x00010002).poolAt i).key ≠ key 0xFF00FF00) ∧
      (hist 0x00010002).n < (withBlock (hist 0x00010002)).config.poolCap) ∧
    (hist 0x00010002).pixCount.toNat + 1 =
      (dimWidth (hist 0x00010002).dim).toNat * (dimHeight (hist 0x00010002).dim).toNat :=
  ⟨inv_hist2, rfl, ⟨0, by decide⟩, by decide⟩
theorem witness_MergeTakes : fourLeaves.phase = .build ∧ fourLeaves.live.Nodup ∧
    2 ≤ fourLeaves.live.length := by decide
/-- PROG_INTERVAL = 1, 500 and 0, for MergeStepJoinsTheTwoNodes and ProgressEveryIntervalMerges. -/
theorem witness_MergeStep : (withBlock build).Inv ∧ build.phase = .build ∧
    (withBlock build).engineNext ∧ build.enabled = some (.merge 1 0) ∧
    (∃ t, step (withBlock build) = .next t) ∧
    ¬ (build.progInterval ≠ 0 ∧ (build.k + 1) % build.progInterval.toNat = 0) :=
  ⟨inv_build, rfl, .inl rfl, by decide, ⟨_, rfl⟩, by decide⟩
theorem inv_build1 : (withBlock { build with progInterval := 1 }).Inv :=
  inv_of_parts (by decide) (by decide) (by decide) (by decide) treeBA (by decide) (by decide)
theorem witness_Progress : (withBlock { build with progInterval := 1 }).Inv ∧
    (withBlock { build with progInterval := 1 }).engineNext ∧
    { build with progInterval := 1 }.enabled = some (.merge 1 0) ∧
    (∃ t, step (withBlock { build with progInterval := 1 }) = .next t) ∧
    (1 : Word) ≠ 0 ∧ (build.k + 1) % (1 : Word).toNat = 0 :=
  ⟨inv_build1, .inl rfl, by decide, ⟨_, rfl⟩, by decide⟩
theorem witness_BuildEnd : (withBlock merged).Inv ∧ merged.phase = .build ∧ merged.live.length = 1 ∧
    (withBlock merged).engineNext :=
  ⟨inv_merged, rfl, rfl, .inl rfl⟩
theorem witness_WalkAssigns : (withBlock walk).Inv ∧ walk.phase = .walk ∧
    (withBlock walk).engineNext ∧ walk.tree? = some treeBA ∧
    (∀ i, i < walk.n → (treeBA.path i).length ≤ 64) :=
  ⟨inv_walk, rfl, .inl rfl, by decide, by decide⟩
/-- The first length beyond CW_MAX. -/
theorem witness_WalkTooDeep : deepChain.phase = .walk ∧ (withBlock deepChain).engineNext ∧
    ∃ tree, deepChain.tree? = some tree ∧ deepChain.n = 1 ∧ (tree.path? 0).isSome = true ∧
      (tree.path 0).length = 65 :=
  ⟨rfl, .inl rfl, deepChain.tree?.getD treeBA, by decide +kernel⟩
theorem witness_Paths : (walk.nodeAt 2).kind = .internal ∧ walk.treeBelow 2 2 = some treeBA ∧
    (walk.nodeAt 0).kind = .leaf ∧ walk.treeBelow 1 0 = some (.leaf 0) := by decide
theorem witness_Codewords : ([] : List Bool).length ≤ 64 ∧ (List.replicate 64 true).length ≤ 64 ∧
    [true, false][1]? = some false := by decide
theorem witness_OneSymbol :
    ((withBlock walkOne).Inv ∧ walkOne.phase = .walk ∧ walkOne.n = 1 ∧
      (withBlock walkOne).engineNext) ∧
    ((withBlock doneOne).Inv ∧ doneOne.phase = .done ∧ doneOne.n = 1) :=
  ⟨⟨inv_walkOne, rfl, by decide, .inl rfl⟩, inv_doneOne, rfl, by decide⟩
theorem witness_SizeStep : (withBlock size).Inv ∧ size.phase = .size ∧ (withBlock size).engineNext :=
  ⟨inv_size, rfl, .inl rfl⟩
/-- For NoArithmeticWraps, NoCodewordBeginsAnother, KraftSumIsOne and TheTreeHasOneRoot. -/
theorem witness_Tree : ((withBlock size).Inv ∧ size.phase = .size) ∧
    ((withBlock done).Inv ∧ done.phase = .done) ∧ done.phase.hasTree = true ∧
    done.phase.hasNodes = true ∧ done.phase.hasCodes = true ∧ 0 < done.n ∧ 1 < done.n :=
  ⟨⟨inv_size, rfl⟩, ⟨inv_done, rfl⟩, by decide⟩

/-- Each premise of NoArithmeticWraps' clauses: HIST, a merge enabled, nodes, tree and codes. -/
theorem witness_NoArithmeticWraps :
    ((withBlock (hist 0x00010003)).Inv ∧ (hist 0x00010003).phase = .hist ∧
      0 < (hist 0x00010003).n) ∧
    ((withBlock build).Inv ∧ build.phase.hasNodes = true ∧ build.enabled = some (.merge 1 0)) ∧
    ((withBlock done).Inv ∧ done.phase.hasTree = true ∧ done.phase.hasCodes = true ∧
      (done.nodeAt 2).kind = .internal) :=
  ⟨⟨inv_hist3, by decide⟩, ⟨inv_build, by decide⟩, inv_done, by decide⟩

/-- A step to a state in another phase, of each of the causes of R25. -/
theorem witness_StateChanges :
    ((State.coming (withBlock done) [.host 0x100800000001]).nextIs .cmdStart ∧
      after (step (State.coming (withBlock done) [.host 0x100800000001]))
        (fun t => t.htb.phase) = some .hist) ∧
    ((State.coming (withBlock build) [.host 0x100800000002]).nextIs .cmdAbort ∧
      after (step (State.coming (withBlock build) [.host 0x100800000002]))
        (fun t => t.htb.phase) = some .idle) ∧
    ((State.coming (withBlock build) [.reset]).resetNext ∧
      after (step (State.coming (withBlock build) [.reset])) (fun t => t.htb.phase) = some .idle) ∧
    ((State.coming (withBlock (hist 0x00010002)) [.host 0x1018FF0000FF]).nextIs (.wrPixel 0xFF0000FF) ∧
      after (step (State.coming (withBlock (hist 0x00010002)) [.host 0x1018FF0000FF]))
        (fun t => t.htb.phase) = some .build) ∧
    ((withBlock walk).engineNext ∧ after (step (withBlock walk)) (fun t => t.htb.phase) = some .size) :=
  ⟨⟨⟨_, _, rfl, by decide⟩, by decide⟩, ⟨⟨_, _, rfl, by decide⟩, by decide⟩, ⟨⟨_, rfl⟩, by decide⟩,
    ⟨⟨_, _, rfl, by decide⟩, by decide⟩, .inl rfl, by decide⟩

/-- Whether a step sets an event that was clear. -/
def sets (s : State) (e : Ev) : Bool :=
  !evIn s.htb.evPending e && (after (step s) fun t => evIn t.htb.evPending e) == some true

theorem witness_EachEvent :
    sets (State.coming (withBlock (hist 0x00010002)) [.host 0x1018FF0000FF]) .histDone = true ∧
    sets (State.coming (withBlock (hist 0x00010002)) [.host 0x1018FF0000FF]) .buildStart = true ∧
    sets (withBlock { build with progInterval := 1 }) .progress = true ∧
    sets (withBlock merged) .buildDone = true ∧ sets (withBlock merged) .walkStart = true ∧
    sets (withBlock walk) .sizeStart = true ∧ sets (withBlock size) .done = true ∧
    sets (State.coming (withBlock (idle 0)) [.host 0x100800000001]) .error = true ∧
    sets (State.coming (withBlock (idle 0)) [.host 0x101800000000]) .accErr = true := by decide
/-- The other two raise sites of R221: a full pool, and a codeword too long. -/
theorem witness_EachEvent_error :
    sets { withBlock (hist 0x00010002) with
      config := ⟨0⟩, agenda := [.host 0x1018FF00FF00] } .error = true ∧
    sets (withBlock deepChain) .error = true := by decide +kernel
theorem witness_AccErr :
    (after (exec (.rsvdCmd 0x11) (withBlock done)) fun t => evIn t.htb.evPending .accErr) = some true ∧
    (after (exec (.wrPixel 0) (withBlock done)) fun t => evIn t.htb.evPending .accErr) = some true ∧
    (after (exec (.wrDim 0) (withBlock size)) fun t => evIn t.htb.evPending .accErr) = some true ∧
    (after (exec (.wrProgInterval 0) (withBlock walk)) fun t => evIn t.htb.evPending .accErr) =
      some true ∧
    (after (exec (.wrDim 0) (withBlock done)) fun t => evIn t.htb.evPending .accErr) = some false ∧
    evIn done.evPending .accErr = false ∧ evIn size.evPending .accErr = false ∧
    evIn walk.evPending .accErr = false := by decide
theorem witness_DimIsHeld : build.busy = true ∧ ¬ (withBlock build).resetNext ∧
    ∃ t, step (withBlock build) = .next t :=
  ⟨by decide, fun ⟨_, h⟩ => (List.cons_ne_nil _ _ h.symm).elim, _, rfl⟩
theorem witness_TerminalStatesStay : (done.phase = .done ∧ failed.phase = .error) ∧
    ¬ (withBlock done).nextIs .cmdStart ∧ ¬ (withBlock done).nextIs .cmdAbort ∧
    ¬ (withBlock done).resetNext ∧ ∃ t, step (withBlock done) = .next t :=
  ⟨⟨rfl, rfl⟩, fun ⟨_, _, h, _⟩ => (List.cons_ne_nil _ _ h.symm).elim,
    fun ⟨_, _, h, _⟩ => (List.cons_ne_nil _ _ h.symm).elim,
    fun ⟨_, h⟩ => (List.cons_ne_nil _ _ h.symm).elim, _, rfl⟩
theorem witness_TheEngineFinishes : (withBlock build).Inv ∧ build.phase = .build ∧
    (withBlock build).agenda = [] := ⟨inv_build, rfl, rfl⟩
/-- BUILD over a different number of resets, with different stale codes: the two agree and differ. -/
theorem witness_Unspecified : (withBlock build).Inv ∧
    (withBlock { build with epoch := 1, code := [(0, ⟨5, 5⟩)] }).Inv ∧
    State.Agree (withBlock build) (withBlock { build with epoch := 1, code := [(0, ⟨5, 5⟩)] }) ∧
    build.code ≠ { build with epoch := 1, code := [(0, ⟨5, 5⟩)] }.code ∧
    ∃ t, step (withBlock build) = .next t := by
  refine ⟨inv_build,
    inv_of_parts (by decide) (by decide) (by decide) (by decide) treeBA (by decide) (by decide),
    ⟨rfl, ⟨rfl, rfl, rfl, rfl, rfl, rfl, rfl, rfl, rfl, rfl, rfl, rfl, rfl, rfl, rfl,
      by decide, by decide, by decide, by decide⟩, rfl, rfl⟩, by decide, _, rfl⟩

end Sys2Proof.Tests
end

section
/-! One equation of `step` per shape of the agenda (rules R9, R78 and R250), and O8, which gathers
them. -/

namespace Sys2Proof.Machine

variable {s : State} {rest : List Event}

/-- With the agenda used up the engine moves alone (log 3). -/
theorem step_of_agenda_nil (h : s.agenda = []) : step s = s.engineMove := by
  simp only [step, h]

/-- The next event is taken off the agenda, and then it happens. -/
theorem step_of_agenda_cons {e : Event} (h : s.agenda = e :: rest) :
    step s = State.happen { s with agenda := rest } e := by
  simp only [step, h]

theorem step_of_host {w : Htw} (h : s.agenda = .host w :: rest) :
    step s = exec (decode w) { s with agenda := rest } :=
  step_of_agenda_cons h

theorem step_of_engine (h : s.agenda = .engine :: rest) :
    step s = State.engineMove { s with agenda := rest } :=
  step_of_agenda_cons h

theorem step_of_reset (h : s.agenda = .reset :: rest) :
    step s = .next (State.afterReset { s with agenda := rest }) :=
  step_of_agenda_cons h

end Sys2Proof.Machine

namespace Sys2Proof.Proofs

open Sys2Proof.Machine

/-- Settles O8: the four shapes of the agenda, each by its equation of `step`. -/
theorem stepRunsTheNextEvent : Obligations.StepRunsTheNextEvent := by
  refine ⟨?host, ?engine, ?reset, ?usedUp⟩
  case host =>
    rintro s w _ rest hagenda rfl
    exact step_of_host hagenda
  case engine => exact fun _ _ => step_of_engine
  case reset => exact fun _ _ => step_of_reset
  case usedUp => exact fun _ => step_of_agenda_nil

end Sys2Proof.Proofs
end

section
/-! Everything a host operation can do to the block, and O54 and O57 from it and the lemmas of
Laws/Ops.lean that say everything a step can do. -/

namespace Sys2Proof.Machine

variable {h g : Htb} {s t : State}

/-- `g` is `h` but for what the host sets without touching the run: the events, the selectors, and
DIM and PROG_INTERVAL while not BUSY (R155, R156, R171..R174). -/
structure Htb.SameRun (h g : Htb) : Prop where
  frame : g = { h with
    dim := g.dim, progInterval := g.progInterval, evPending := g.evPending
    evEnable := g.evEnable, slotSel := g.slotSel, nodeSel := g.nodeSel }
  held : h.busy = true → g.dim = h.dim ∧ g.progInterval = h.progInterval

theorem Htb.SameRun.phase (hg : h.SameRun g) : g.phase = h.phase := by rw [hg.frame]

theorem Htb.sameRun_signal (h : Htb) (e : Ev) : h.SameRun (h.signal e) :=
  ⟨rfl, fun _ => ⟨rfl, rfl⟩⟩

/-- A write that waits for not BUSY leaves the run alone where what it writes does (R171, R172). -/
theorem Htb.sameRun_unlessBusy (hg : h.busy = false → h.SameRun g) :
    h.SameRun (h.unlessBusy g) := by
  obtain ⟨-, heq⟩ | ⟨hbusy, heq⟩ := h.unlessBusy_cases g
  · rw [heq]; exact h.sameRun_signal .accErr
  · rw [heq]; exact hg hbusy

theorem Htb.sameRun_setDim (data : Word) (hb : h.busy = false) :
    h.SameRun { h with dim := data } :=
  ⟨rfl, fun hbusy => by simp [hb] at hbusy⟩

theorem Htb.sameRun_setProgInterval (data : Word) (hb : h.busy = false) :
    h.SameRun { h with progInterval := data } :=
  ⟨rfl, fun hbusy => by simp [hb] at hbusy⟩

/-- Everything a host operation can do to the block: START, ABORT and PIXEL act on the run, and
every other operation leaves it alone. -/
theorem exec_cases {i : Instr} (ht : exec i s = .next t) :
    (i = .cmdStart ∧ t.htb = s.htb.start) ∨ (i = .cmdAbort ∧ t.htb = s.htb.clearRun) ∨
    (∃ data, i = .wrPixel data ∧ t.htb = s.htb.pixel s.config data) ∨ s.htb.SameRun t.htb := by
  cases i <;> injection ht with ht <;> subst ht
  case cmdStart => exact .inl ⟨rfl, rfl⟩
  case cmdAbort => exact .inr (.inl ⟨rfl, rfl⟩)
  case wrPixel data => exact .inr (.inr (.inl ⟨data, rfl, rfl⟩))
  case wrDim data => exact .inr (.inr (.inr (Htb.sameRun_unlessBusy (Htb.sameRun_setDim data))))
  case wrProgInterval data =>
    exact .inr (.inr (.inr (Htb.sameRun_unlessBusy (Htb.sameRun_setProgInterval data))))
  all_goals exact .inr (.inr (.inr ⟨rfl, fun _ => ⟨rfl, rfl⟩⟩))

theorem exec_config {i : Instr} (ht : exec i s = .next t) : t.config = s.config := by
  obtain ⟨g, r, hg⟩ := exec_next i s
  rw [hg] at ht
  injection ht with ht
  rw [← ht]

/-- Where the engine is next, by its event or by the agenda's end, a step is its move. -/
theorem step_of_engineNext {rest : List Event}
    (hnext : s.agenda = rest ∧ rest = [] ∨ s.agenda = .engine :: rest) :
    step s = State.engineMove { s with agenda := rest } := by
  obtain ⟨rfl, hnil⟩ | hengine := hnext
  · exact step_of_agenda_nil hnil
  · exact step_of_engine hengine

/-- START leaves the block in HIST or in ERROR (R151). -/
theorem Htb.start_phase (h : Htb) : h.start.phase = .hist ∨ h.start.phase = .error := by
  obtain ⟨-, heq⟩ | ⟨-, heq⟩ := h.start_cases
  · exact .inr (by rw [heq, Htb.enterError_phase])
  · exact .inl (by rw [heq])

/-- Counting a pixel keeps the phase or enters ERROR (R112). -/
theorem Htb.countPixel_phase (h : Htb) (c : Config) (y : Key) :
    (h.countPixel c y).phase = h.phase ∨ (h.countPixel c y).phase = .error := by
  obtain ⟨s, -, -, heq⟩ | ⟨-, ⟨-, heq⟩ | ⟨-, heq⟩⟩ := h.countPixel_cases c y <;> simp [heq]

/-- A PIXEL write changes the phase only from HIST, to BUILD or ERROR (R110, R113). -/
theorem Htb.pixel_phase (h : Htb) (c : Config) (data : Word) :
    (h.pixel c data).phase = h.phase ∨
    (h.phase = .hist ∧ ((h.pixel c data).phase = .build ∨ (h.pixel c data).phase = .error)) := by
  obtain ⟨-, heq⟩ | ⟨hp, g, rfl, ⟨-, -, heq⟩ | ⟨-, heq⟩⟩ := h.pixel_cases c data
  · exact .inl (by rw [heq, Htb.signal_phase])
  · exact .inr ⟨hp, .inl (by rw [heq, Htb.endHist_phase])⟩
  · rw [heq]
    exact (h.countPixel_phase c (key data)).imp_right fun he => ⟨hp, .inr he⟩

/-- Everything the enabled engine step can do, with the phase it is enabled in (R233). -/
theorem Htb.enabled_engine_cases {e : EngineStep} (he : h.enabled = some e)
    (hg : h.engine e = .ok g) :
    (∃ a b, h.phase = .build ∧ h.least h.live = some a ∧
      h.least (liveWithout a h.live) = some b ∧ g = h.engMerge a b) ∨
    (∃ a, h.phase = .build ∧ h.least h.live = some a ∧
      h.least (liveWithout a h.live) = none ∧ g = h.engBuildEnd a) ∨
    (∃ tree, h.phase = .walk ∧ h.runTree? = some tree ∧ g = h.engWalkTree tree) ∨
    (h.phase = .size ∧ g = h.engSize) := by
  obtain ⟨a, b, hp, ha, hb, rfl⟩ | ⟨a, hp, ha, hb, rfl⟩ | ⟨hp, rfl⟩ | ⟨hp, rfl⟩ :=
      h.enabled_cases he <;>
    obtain ⟨_, _, hstep, rfl⟩ | ⟨_, hstep, rfl⟩ | ⟨tree, hstep, htree, rfl⟩ | ⟨hstep, rfl⟩ :=
      h.engine_cases hg <;> cases hstep
  · exact .inl ⟨a, b, hp, ha, hb, rfl⟩
  · exact .inr (.inl ⟨a, hp, ha, hb, rfl⟩)
  · exact .inr (.inr (.inl ⟨tree, hp, htree, rfl⟩))
  · exact .inr (.inr (.inr ⟨hp, rfl⟩))

/-- Everything the engine's move can do to the machine: nothing, or the enabled step on the
block. -/
theorem State.engineMove_enabled_cases (ht : s.engineMove = .next t) :
    t = s ∨
    ∃ e, s.htb.enabled = some e ∧ s.htb.engine e = .ok t.htb ∧ t = { s with htb := t.htb } := by
  obtain ⟨-, rfl⟩ | ⟨e, g, he, hg, rfl⟩ := State.engineMove_cases s t ht
  · exact .inl rfl
  · exact .inr ⟨e, he, hg, rfl⟩

@[simp] theorem Htb.engWalkTree_dim (h : Htb) (tree : Tree) :
    (h.engWalkTree tree).dim = h.dim := by
  unfold Htb.engWalkTree; split <;> rfl
@[simp] theorem Htb.engWalkTree_progInterval (h : Htb) (tree : Tree) :
    (h.engWalkTree tree).progInterval = h.progInterval := by
  unfold Htb.engWalkTree; split <;> rfl

/-- ENG_WALK goes to SIZE or to ERROR (R131). -/
theorem Htb.engWalkTree_phase (h : Htb) (tree : Tree) :
    (h.engWalkTree tree).phase = .size ∨ (h.engWalkTree tree).phase = .error := by
  obtain ⟨-, heq⟩ | ⟨-, hp, -⟩ := h.engWalkTree_cases tree
  · exact .inr (by rw [heq, Htb.enterError_phase])
  · exact .inl hp

/-- The engine changes the phase only as the table of R25 lists. -/
theorem Htb.engine_phase {e : EngineStep} (he : h.enabled = some e) (hg : h.engine e = .ok g)
    (hne : h.phase ≠ g.phase) :
    (h.phase = .build ∧ g.phase = .walk) ∨
    (h.phase = .walk ∧ (g.phase = .size ∨ g.phase = .error)) ∨
    (h.phase = .size ∧ g.phase = .done) := by
  obtain ⟨a, b, -, -, -, rfl⟩ | ⟨a, hp, -, -, rfl⟩ | ⟨tree, hp, -, rfl⟩ | ⟨hp, rfl⟩ :=
    Htb.enabled_engine_cases he hg
  · exact absurd (h.engMerge_phase a b).symm hne
  · exact .inl ⟨hp, h.engBuildEnd_phase a⟩
  · exact .inr (.inl ⟨hp, h.engWalkTree_phase tree⟩)
  · exact .inr (.inr ⟨hp, h.engSize_phase⟩)

/-! ### DIM and PROG_INTERVAL through each update (R27, R32) -/

/-- The two blocks hold the same DIM and PROG_INTERVAL. -/
def Htb.SameConfig (h g : Htb) : Prop := g.dim = h.dim ∧ g.progInterval = h.progInterval

theorem Htb.start_sameConfig (h : Htb) : h.SameConfig h.start := by
  obtain ⟨-, heq⟩ | ⟨-, heq⟩ := h.start_cases <;> rw [heq] <;> exact ⟨rfl, rfl⟩

theorem Htb.countPixel_sameConfig (h : Htb) (c : Config) (y : Key) :
    h.SameConfig (h.countPixel c y) := by
  obtain ⟨s, -, -, heq⟩ | ⟨-, ⟨-, heq⟩ | ⟨-, heq⟩⟩ := h.countPixel_cases c y <;>
    rw [heq] <;> exact ⟨rfl, rfl⟩

theorem Htb.pixel_sameConfig (h : Htb) (c : Config) (data : Word) :
    h.SameConfig (h.pixel c data) := by
  obtain ⟨-, heq⟩ | ⟨-, g, rfl, ⟨-, -, heq⟩ | ⟨-, heq⟩⟩ := h.pixel_cases c data <;> rw [heq]
  · exact ⟨rfl, rfl⟩
  · exact h.countPixel_sameConfig c (key data)
  · exact h.countPixel_sameConfig c (key data)

theorem Htb.engine_sameConfig {e : EngineStep} (hg : h.engine e = .ok g) : h.SameConfig g := by
  obtain ⟨a, b, -, rfl⟩ | ⟨r, -, rfl⟩ | ⟨tree, -, -, rfl⟩ | ⟨-, rfl⟩ := h.engine_cases hg <;>
    simp [Htb.SameConfig]

end Sys2Proof.Machine

namespace Sys2Proof.Proofs

open Sys2Proof.Machine

/-- Settles O54: the phase after START, ABORT, a PIXEL write, an engine step and a reset; every
other host operation leaves the run alone. -/
theorem stateChangesOnlyByTheListedTransitions :
    Obligations.StateChangesOnlyByTheListedTransitions := by
  intro s t hstep hne
  obtain ⟨w, rest, hagenda, hexec⟩ | ⟨rest, hagenda, hmove⟩ | ⟨rest, hagenda, rfl⟩ :=
    step_cases hstep
  · have hnext {i : Instr} (hi : decode w = i) : s.nextIs i := ⟨w, rest, hagenda, hi⟩
    obtain ⟨hi, heq⟩ | ⟨hi, heq⟩ | ⟨data, hi, heq⟩ | hsame := exec_cases hexec
    · exact .inl ⟨hnext hi, heq ▸ Htb.start_phase _⟩
    · exact .inr (.inl ⟨.inl (hnext hi), heq ▸ Htb.clearRun_phase _⟩)
    · obtain hsame | hchange := Htb.pixel_phase s.htb s.config data
      · exact absurd (heq ▸ hsame).symm hne
      · exact .inr (.inr (.inl ⟨⟨data, hnext hi⟩, heq ▸ hchange⟩))
    · exact absurd hsame.phase.symm hne
  · have hnext : s.engineNext := hagenda.imp (fun hnil => hnil.1.trans hnil.2) fun he => ⟨rest, he⟩
    obtain rfl | ⟨e, he, hg, -⟩ := State.engineMove_enabled_cases hmove
    · exact absurd rfl hne
    · exact .inr (.inr (.inr ⟨hnext, Htb.engine_phase he hg hne⟩))
  · exact .inr (.inl ⟨.inr ⟨rest, hagenda⟩, rfl⟩)

/-- Settles O57: of the host operations only WR_DIM and WR_PROG_INTERVAL write the two registers,
and they are refused while BUSY; no engine step writes them. -/
theorem dimIsHeldWhileBusy : Obligations.DimIsHeldWhileBusy := by
  intro s t hstep
  obtain ⟨w, rest, -, hexec⟩ | ⟨rest, -, hmove⟩ | ⟨rest, hagenda, rfl⟩ := step_cases hstep
  · refine ⟨(exec_config hexec :), fun hbusy _ => ?_⟩
    obtain ⟨-, heq⟩ | ⟨-, heq⟩ | ⟨data, -, heq⟩ | hsame := exec_cases hexec
    · exact heq ▸ s.htb.start_sameConfig
    · exact heq ▸ ⟨rfl, rfl⟩
    · exact heq ▸ s.htb.pixel_sameConfig s.config data
    · exact hsame.held hbusy
  · obtain rfl | ⟨e, -, hg, hframe⟩ := State.engineMove_enabled_cases hmove
    · exact ⟨rfl, fun _ _ => ⟨rfl, rfl⟩⟩
    · exact ⟨by rw [hframe], fun _ _ => Htb.engine_sameConfig hg⟩
  · exact ⟨rfl, fun _ hnot => absurd ⟨rest, hagenda⟩ hnot⟩

end Sys2Proof.Proofs
end

section
/-! The parts of the invariant: what each of them reads, so that a step that leaves that alone keeps
the part; the blocks with no run; and O11 and O12, the state after reset. -/

namespace Sys2Proof.Machine

variable {c : Config} {g h : Htb}

/-! ### The phases -/

theorem hasNodes_of_hasTree {p : Phase} (hp : p.hasTree = true) : p.hasNodes = true := by
  cases p <;> simp_all [Phase.hasTree, Phase.hasNodes]

theorem hasTree_of_hasCodes {p : Phase} (hp : p.hasCodes = true) : p.hasTree = true := by
  cases p <;> simp_all [Phase.hasCodes, Phase.hasTree]

/-! ### What each part of the invariant reads -/

theorem sumBelow_congr {f f' : Nat → Nat} {n : Nat} (hf : ∀ i, i < n → f' i = f i) :
    sumBelow f' n = sumBelow f n := by
  induction n with
  | zero => rfl
  | succ n ih => rw [sumBelow, sumBelow, ih fun i hi => hf i (by omega), hf n (by omega)]

theorem Htb.TablesInv.of_eq (ht : h.TablesInv c) (hpool : g.pool = h.pool) (hnode : g.node = h.node)
    (hcode : g.code = h.code) : g.TablesInv c where
  pool := hpool ▸ ht.pool
  node := hnode ▸ ht.node
  code := hcode ▸ ht.code
  poolBound := hpool ▸ ht.poolBound
  nodeBound := hnode ▸ ht.nodeBound
  codeBound := hcode ▸ ht.codeBound

/-- The histogram's part reads SYM_COUNT, PIX_COUNT and the pool below n (R114). -/
theorem Htb.HistInv.of_eq (hh : h.HistInv c) (hn : g.symCount = h.symCount)
    (hpix : g.pixCount = h.pixCount) (hpool : ∀ i, i < h.n → g.poolAt i = h.poolAt i) :
    g.HistInv c where
  keysDistinct j hj i hi := by
    rw [Htb.n, hn] at hj
    rw [hpool i (hi.trans hj), hpool j hj]
    exact hh.keysDistinct j hj i hi
  freqPositive s hs := by
    rw [Htb.n, hn] at hs
    rw [hpool s hs]
    exact hh.freqPositive s hs
  freqSum := by
    rw [hpix, ← hh.freqSum, Htb.freqSum, Htb.freqSum, Htb.n, hn]
    exact sumBelow_congr fun i hi => by rw [hpool i hi]
  poolFits := by rw [Htb.n, hn]; exact hh.poolFits
  pixBounded := hpix ▸ hh.pixBounded

theorem Htb.leafOf_congr {s : Nat} (hs : g.poolAt s = h.poolAt s) : g.leafOf s = h.leafOf s := by
  simp only [Htb.leafOf, hs]

theorem Htb.precedes_congr {i j : Nat} (hi : g.nodeAt i = h.nodeAt i)
    (hj : g.nodeAt j = h.nodeAt j) : g.precedes i j = h.precedes i j := by
  simp only [Htb.precedes, hi, hj]

/-- What makes node `i` a merge is that node and the nodes below it (R125). -/
theorem Htb.IsMerge.of_eq {i : Nat} (hm : h.IsMerge i)
    (hnode : ∀ j, j ≤ i → g.nodeAt j = h.nodeAt j) : g.IsMerge i := by
  obtain ⟨hkind, hleft, hright, hfreq, hprec⟩ := hm
  simp only [Htb.IsMerge, hnode i le_rfl, hnode _ hleft.le, hnode _ hright.le,
    Htb.precedes_congr (hnode _ hleft.le) (hnode _ hright.le)]
  exact ⟨hkind, hleft, hright, hfreq, hprec⟩

/-- A block with the same histogram, counts, LIVE and nodes has the same forest (R125). -/
theorem Htb.ForestInv.of_eq (hf : h.ForestInv) (hn : g.symCount = h.symCount)
    (hk : g.mergeCount = h.mergeCount) (hpix : g.pixCount = h.pixCount) (hlive : g.live = h.live)
    (hpool : ∀ i, g.poolAt i = h.poolAt i) (hnode : ∀ i, g.nodeAt i = h.nodeAt i) :
    g.ForestInv := by
  obtain ⟨h1, h2, h3, h4, h5, h6, h7, h8, h9⟩ := hf
  have hleaf (i : Nat) : g.leafOf i = h.leafOf i := Htb.leafOf_congr (hpool i)
  have hprec (i j : Nat) : g.precedes i j = h.precedes i j :=
    Htb.precedes_congr (hnode i) (hnode j)
  constructor <;>
    simpa only [Htb.n, Htb.k, Htb.IsMerge, Htb.IsParent, hn, hk, hpix, hlive, hleaf, hnode, hprec]

/-- A node of the run is a leaf, or an internal node over two lower nodes (R125). -/
theorem Htb.ForestInv.leaf_or_below (hf : h.ForestInv) {i : Nat} (hi : i < h.n + h.k) :
    (h.nodeAt i).kind = .leaf ∨
    ((h.nodeAt i).kind = .internal ∧ (h.nodeAt i).left.toNat < i ∧
      (h.nodeAt i).right.toNat < i) := by
  by_cases hin : i < h.n
  · exact .inl (by rw [hf.leaves i hin, Htb.leafOf])
  · obtain ⟨hkind, hleft, hright, -⟩ := hf.merges i hi (by omega)
    exact .inr ⟨hkind, hleft, hright⟩

/-- The tree below a node of the run is read out of the nodes of the run alone. -/
theorem Htb.treeBelow_congr (hf : h.ForestInv)
    (hnode : ∀ i, i < h.n + h.k → g.nodeAt i = h.nodeAt i) (fuel : Nat) :
    ∀ i, i < h.n + h.k → g.treeBelow fuel i = h.treeBelow fuel i := by
  induction fuel with
  | zero => exact fun _ _ => rfl
  | succ fuel ih =>
    intro i hi
    obtain hkind | ⟨hkind, hleft, hright⟩ := hf.leaf_or_below hi
    · simp only [Htb.treeBelow, hnode i hi, hkind]
    · simp only [Htb.treeBelow, hnode i hi, hkind, ih _ (hleft.trans hi), ih _ (hright.trans hi)]

/-- The root is the last node of the run (R124, R125). -/
theorem Htb.RootInv.root_lt (hr : h.RootInv) : h.rootI.toNat < h.n + h.k := by
  have := hr.merges
  have := hr.root
  omega

theorem Htb.runTree?_congr (hf : h.ForestInv) (hr : h.RootInv) (hn : g.symCount = h.symCount)
    (hnode : ∀ i, i < h.n + h.k → g.nodeAt i = h.nodeAt i) (hroot : g.rootI = h.rootI) :
    g.runTree? = h.runTree? := by
  simp only [Htb.runTree?, Htb.tree?, Htb.n, hn, hroot,
    Htb.treeBelow_congr hf hnode _ _ hr.root_lt]

/-- The code table's part reads the tree of the run and the codes below n (R134). -/
theorem Htb.CodeInv.of_eq (hc : h.CodeInv) (hn : g.symCount = h.symCount)
    (htree : g.runTree? = h.runTree?) (hcode : ∀ i, i < h.n → g.codeAt i = h.codeAt i) :
    g.CodeInv := by
  obtain ⟨tree, hrun, hdeep, hpack⟩ := hc
  refine ⟨tree, htree.trans hrun, by rw [Htb.n, hn]; exact hdeep, fun s hs => ?_⟩
  rw [Htb.n, hn] at hs
  rw [hcode s hs, hpack s hs]

/-- Σ freq·len reads the pool and the codes below n (R141). -/
theorem Htb.totalBits_congr (hn : g.symCount = h.symCount)
    (hpool : ∀ i, i < h.n → g.poolAt i = h.poolAt i)
    (hcode : ∀ i, i < h.n → g.codeAt i = h.codeAt i) : g.totalBits = h.totalBits := by
  simp only [Htb.totalBits, Htb.n, hn]
  exact sumBelow_congr fun i hi => by rw [hpool i hi, hcode i hi]

theorem Htb.ResultInv.of_eq (hr : h.ResultInv) (horig : g.orig = h.orig) (hcomp : g.comp = h.comp)
    (htbits : g.tbits = h.tbits) (hpix : g.pixCount = h.pixCount)
    (htotal : g.totalBits = h.totalBits) : g.ResultInv where
  orig := by rw [horig, hpix, hr.orig]
  tbits := by rw [htbits, htotal, hr.tbits]
  comp := by rw [hcomp, htotal, hr.comp]

/-- A host operation that leaves the run alone keeps the invariant. -/
theorem Htb.Inv.of_sameRun (hi : h.Inv c) (hg : h.SameRun g) : g.Inv c := by
  have held : phaseBusy h.phase = true → g.dim = h.dim := fun hbusy => (hg.held hbusy).1
  rw [hg.frame]
  exact {
    tables := hi.tables.of_eq rfl rfl rfl
    hist := hi.hist.of_eq rfl rfl fun _ _ => rfl
    errIffError := hi.errIffError
    noResult := hi.noResult
    idleEmpty := hi.idleEmpty
    noMergeYet := hi.noMergeYet
    mergesBelow := hi.mergesBelow
    moreToCome := fun hp => by rw [held (by rw [hp]; rfl)]; exact hi.moreToCome hp
    allCounted := fun hp => by
      rw [held (by obtain hp | hp | hp := hp <;> rw [hp] <;> rfl)]; exact hi.allCounted hp
    forest := fun hp => (hi.forest hp).of_eq rfl rfl rfl rfl (fun _ => rfl) fun _ => rfl
    root := fun hp => ⟨(hi.root hp).merges, (hi.root hp).root⟩
    codes := fun hp =>
      have hp' := hasTree_of_hasCodes hp
      have hf := hi.forest (hasNodes_of_hasTree hp')
      (hi.codes hp).of_eq rfl
        (Htb.runTree?_congr hf (hi.root hp') rfl (fun _ _ => rfl) rfl) fun _ _ => rfl
    results := fun hp => (hi.results hp).of_eq rfl rfl rfl rfl rfl }

/-! ### Blocks with no run -/

/-- No pixel counted, no symbol, no merge and no result: what ClearRun and reset leave (R58,
R152). -/
structure Htb.Cleared (h : Htb) : Prop where
  pixCount : h.pixCount = 0
  symCount : h.symCount = 0
  mergeCount : h.mergeCount = 0
  live : h.live = []
  results : h.orig = 0 ∧ h.comp = 0 ∧ h.tbits = 0

theorem Htb.Cleared.n_eq (hc : h.Cleared) : h.n = 0 := by rw [Htb.n, hc.symCount]; rfl

theorem Htb.Cleared.histInv (hc : h.Cleared) : h.HistInv c where
  keysDistinct j hj := by rw [hc.n_eq] at hj; omega
  freqPositive s hs := by rw [hc.n_eq] at hs; omega
  freqSum := by rw [Htb.freqSum, hc.n_eq, hc.pixCount]; rfl
  poolFits := by rw [hc.n_eq]; omega
  pixBounded := by rw [hc.pixCount]; decide

/-- A block with no run meets the invariant in IDLE, in HIST with pixels to come, and in ERROR. -/
theorem Htb.Cleared.inv (hc : h.Cleared) (ht : h.TablesInv c)
    (herr : h.err ≠ .noError ↔ h.phase = .error)
    (hphase : h.phase = .idle ∨ (h.phase = .hist ∧ 0 < rasterSize h.dim) ∨ h.phase = .error) :
    h.Inv c where
  tables := ht
  hist := hc.histInv
  errIffError := herr
  noResult _ := hc.results
  idleEmpty _ := ⟨hc.pixCount, hc.symCount⟩
  noMergeYet _ := ⟨hc.mergeCount, hc.live⟩
  mergesBelow := .inl (by rw [Htb.k, hc.mergeCount]; rfl)
  moreToCome hp := by
    obtain hq | ⟨-, hraster⟩ | hq := hphase
    · rw [hq] at hp; cases hp
    · rw [hc.pixCount]; exact hraster
    · rw [hq] at hp; cases hp
  allCounted hp := by obtain hq | ⟨hq, -⟩ | hq := hphase <;> rw [hq] at hp <;> simp at hp
  forest hp := by obtain hq | ⟨hq, -⟩ | hq := hphase <;> rw [hq] at hp <;> cases hp
  root hp := by obtain hq | ⟨hq, -⟩ | hq := hphase <;> rw [hq] at hp <;> cases hp
  codes hp := by obtain hq | ⟨hq, -⟩ | hq := hphase <;> rw [hq] at hp <;> cases hp
  results hp := by obtain hq | ⟨hq, -⟩ | hq := hphase <;> rw [hq] at hp <;> cases hp

theorem Htb.reset_cleared (epoch : Nat) : (Htb.reset epoch).Cleared :=
  ⟨rfl, rfl, rfl, rfl, rfl, rfl, rfl⟩

/-- Reset meets the invariant, whatever the number of resets before it (R58). -/
theorem Htb.reset_inv (c : Config) (epoch : Nat) : (Htb.reset epoch).Inv c := by
  have htables : (Htb.reset epoch).TablesInv c := by
    constructor <;> simp [Htb.reset, Table.wf]
  exact (Htb.reset_cleared epoch).inv htables (by simp [Htb.reset]) (.inl rfl)

theorem Htb.clearRun_cleared (h : Htb) : h.clearRun.Cleared :=
  ⟨rfl, rfl, rfl, rfl, rfl, rfl, rfl⟩

theorem Htb.Inv.clearRun (hi : h.Inv c) : h.clearRun.Inv c :=
  h.clearRun_cleared.inv (hi.tables.of_eq rfl rfl rfl) (by simp) (.inl rfl)

theorem Htb.Inv.start (hi : h.Inv c) : h.start.Inv c := by
  obtain ⟨-, heq⟩ | ⟨hraster, heq⟩ := h.start_cases <;> rw [heq]
  · have hcleared : (h.clearRun.enterError .emptyInput).Cleared :=
      ⟨rfl, rfl, rfl, rfl, rfl, rfl, rfl⟩
    exact hcleared.inv (hi.tables.of_eq rfl rfl rfl) (by simp) (.inr (.inr rfl))
  · have hcleared : Htb.Cleared { h.clearRun with phase := .hist } :=
      ⟨rfl, rfl, rfl, rfl, rfl, rfl, rfl⟩
    exact hcleared.inv (hi.tables.of_eq rfl rfl rfl) (by simp)
      (.inr (.inl ⟨rfl, Nat.pos_of_ne_zero hraster⟩))

theorem Htb.reset_irq (epoch : Nat) : (Htb.reset epoch).irq = false := by
  simp [Htb.irq, Htb.reset]

theorem Htb.reset_statusWord (epoch : Nat) : (Htb.reset epoch).statusWord = 0 := by
  have hword : zext32 (BitVec.ofBool false ++ BitVec.ofBool false ++ BitVec.ofBool false ++
      phaseCode .idle) = 0 := by decide
  rw [Htb.statusWord, Htb.reset_irq]
  exact hword

theorem highHalf_zero : highHalf 0 = 0 := by decide

/-- The PARAM word: CW_MAX = 64 in bits 31:25, POOL_CAP in bits 24:0 (R22, R177). -/
theorem paramWord_eq (c : Config) :
    BitVec.ofNat 7 Config.cwMax ++ BitVec.ofNat 25 c.poolCap =
      0x80000000 ||| BitVec.ofNat 32 c.poolCap := by
  have hcap : c.poolCap < 2 ^ 25 := by
    have := c.poolCapPred.isLt
    simp only [Config.poolCap]
    omega
  apply BitVec.eq_of_toNat_eq
  rw [BitVec.toNat_append, BitVec.toNat_or, BitVec.toNat_ofNat, BitVec.toNat_ofNat,
    BitVec.toNat_ofNat, Nat.mod_eq_of_lt hcap, Nat.mod_eq_of_lt (hcap.trans (by decide))]
  rfl

end Sys2Proof.Machine

namespace Sys2Proof.Proofs

open Sys2Proof.Machine

/-- Settles O12: a block just reset has no run and no written entry. -/
theorem resetMeetsTheInvariant : Obligations.ResetMeetsTheInvariant :=
  ⟨fun c => Htb.reset_inv c 0, Htb.reset_inv Config.full 0⟩

/-- Settles O11: STATUS, PARAM and the high halves by their fields, each other register by computing
its read on the reset values; outside DONE the windows are closed. -/
theorem powerOnReadsTheResetTable : Obligations.PowerOnReadsTheResetTable := by
  rintro c s rfl
  refine ⟨rfl, rfl, Htb.reset_irq 0, rfl, rfl, rfl, ?param, rfl, ?zero⟩
  case param => exact congrArg (fun v => State.answer (State.resetWith c) v) (paramWord_eq c)
  case zero =>
    simp only [List.forall_mem_cons]
    have status : exec .rdStatus (State.resetWith c) = State.answer (State.resetWith c) 0 :=
      congrArg (fun v => State.answer (State.resetWith c) v) (Htb.reset_statusWord 0)
    have high :
        State.answer (State.resetWith c) (highHalf 0) = State.answer (State.resetWith c) 0 :=
      congrArg (fun v => State.answer (State.resetWith c) v) highHalf_zero
    exact ⟨status, rfl, rfl, rfl, rfl, rfl, rfl, rfl, rfl, high, rfl, high, rfl, high, rfl, rfl, rfl,
      rfl, rfl, rfl, rfl, rfl, rfl, rfl, rfl, rfl, by simp⟩

end Sys2Proof.Proofs
end

section
/-! The histogram counter keeps the invariant: counting a pixel, and the end of the histogram. -/

namespace Sys2Proof.Machine

variable {c : Config} {h : Htb}

/-! ### Sums over the slots -/

theorem le_sumBelow (f : Nat → Nat) {i n : Nat} (hi : i < n) : f i ≤ sumBelow f n := by
  induction n with
  | zero => omega
  | succ n ih =>
    rw [sumBelow]
    by_cases hin : i = n
    · rw [hin]; omega
    · have := ih (by omega)
      omega

/-- Adding one to one term adds one to the sum. -/
theorem sumBelow_add_one {f f' : Nat → Nat} {i n : Nat} (hi : i < n) (hf : f' i = f i + 1)
    (hrest : ∀ j, j ≠ i → f' j = f j) : sumBelow f' n = sumBelow f n + 1 := by
  induction n with
  | zero => omega
  | succ n ih =>
    rw [sumBelow, sumBelow]
    by_cases hin : i = n
    · have hbelow : sumBelow f' n = sumBelow f n :=
        sumBelow_congr fun j hj => hrest j (by omega)
      rw [hbelow, ← hin, hf, Nat.add_assoc]
    · rw [ih (by omega), hrest n (Ne.symm hin)]
      omega

theorem sumBelow_eq_sum_range (f : Nat → Nat) (n : Nat) :
    sumBelow f n = ((List.range n).map f).sum := by
  induction n with
  | zero => rfl
  | succ n ih => rw [sumBelow, ih, List.sum_range_succ]

/-! ### The bounds that keep the counters from wrapping (R144) -/

theorem Htb.HistInv.freq_le (hh : h.HistInv c) {s : Nat} (hs : s < h.n) :
    (h.poolAt s).freq.toNat ≤ h.pixCount.toNat :=
  hh.freqSum ▸ le_sumBelow (fun i => (h.poolAt i).freq.toNat) hs

theorem Htb.HistInv.n_le (hh : h.HistInv c) : h.n ≤ 2 ^ 24 := by
  have := hh.poolFits
  have := c.poolCapPred.isLt
  simp only [Config.poolCap] at *
  omega

/-- Where a pixel is counted there is a slot (R114). -/
theorem Htb.HistInv.n_pos (hh : h.HistInv c) (hpix : 0 < h.pixCount.toNat) : 0 < h.n := by
  by_contra hn
  have hsum := hh.freqSum
  rw [Htb.freqSum, Nat.eq_zero_of_not_pos hn, sumBelow] at hsum
  omega

/-- A raster has at most 65535·65535 pixels (R27). -/
theorem rasterSize_le (dim : Word) : rasterSize dim ≤ 65535 * 65535 :=
  Nat.mul_le_mul (by have := (dimWidth dim).isLt; omega) (by have := (dimHeight dim).isLt; omega)

/-! ### Counting a pixel (R112) -/

/-- A count that fits its field after the addition does not wrap (R11). -/
theorem toNat_add_one {w : Nat} {x : BitVec w} (hx : x.toNat + 1 < 2 ^ w) :
    (x + 1).toNat = x.toNat + 1 := by
  have hone : (1 : BitVec w).toNat = 1 := by
    simpa using Nat.mod_eq_of_lt (show 1 < 2 ^ w by omega)
  rw [BitVec.toNat_add_of_lt (by rw [hone]; exact hx), hone]

theorem toNat_pixCount_add_one (hpix : h.pixCount.toNat < 65535 * 65535) :
    (h.pixCount + 1).toNat = h.pixCount.toNat + 1 :=
  toNat_add_one (by omega)

theorem Htb.HistInv.countKnown (hh : h.HistInv c) {s : Nat} (hs : s < h.n)
    (hpix : h.pixCount.toNat < 65535 * 65535) : (h.countKnown s).HistInv c := by
  have hkey (i : Nat) : ((h.countKnown s).poolAt i).key = (h.poolAt i).key := by
    rw [Htb.poolAt_countKnown]
    split
    · next his => rw [his]
    · rfl
  have hfreq : ((h.countKnown s).poolAt s).freq.toNat = (h.poolAt s).freq.toNat + 1 := by
    have := hh.freq_le hs
    rw [Htb.poolAt_countKnown, if_pos rfl]
    exact toNat_add_one (by omega)
  have hother (i : Nat) (his : i ≠ s) : (h.countKnown s).poolAt i = h.poolAt i := by
    rw [Htb.poolAt_countKnown, if_neg his]
  refine {
    keysDistinct := fun j hj i hi => by rw [hkey, hkey]; exact hh.keysDistinct j hj i hi
    freqPositive := fun i hi => ?_
    freqSum := ?_
    poolFits := hh.poolFits
    pixBounded := by rw [Htb.countKnown_pixCount, toNat_pixCount_add_one hpix]; exact hpix }
  · by_cases his : i = s
    · rw [his, hfreq]; omega
    · rw [hother i his]; exact hh.freqPositive i hi
  · rw [Htb.countKnown_pixCount, toNat_pixCount_add_one hpix, ← hh.freqSum]
    exact sumBelow_add_one hs hfreq fun i his => by rw [hother i his]

theorem Htb.HistInv.toNat_symCount_add_one (hh : h.HistInv c) :
    (h.symCount + 1).toNat = h.n + 1 :=
  toNat_add_one (by have hn : h.symCount.toNat ≤ 2 ^ 24 := hh.n_le; omega)

theorem Htb.HistInv.countNew (hh : h.HistInv c) {y : Key} (hn : h.n < c.poolCap)
    (hy : ∀ s, s < h.n → (h.poolAt s).key ≠ y) (hpix : h.pixCount.toNat < 65535 * 65535) :
    (h.countNew y).HistInv c := by
  have hn' : (h.countNew y).n = h.n + 1 := hh.toNat_symCount_add_one
  have hnew : (h.countNew y).poolAt h.n = ⟨y, 1⟩ := by rw [Htb.poolAt_countNew, if_pos rfl]
  have hold (i : Nat) (hi : i < h.n) : (h.countNew y).poolAt i = h.poolAt i := by
    rw [Htb.poolAt_countNew, if_neg hi.ne]
  refine {
    keysDistinct := fun j hj i hi => ?_
    freqPositive := fun i hi => ?_
    freqSum := ?_
    poolFits := by rw [hn']; exact hn
    pixBounded := by rw [Htb.countNew_pixCount, toNat_pixCount_add_one hpix]; exact hpix }
  · obtain hj | rfl : j < h.n ∨ j = h.n := by omega
    · rw [hold j hj, hold i (hi.trans hj)]; exact hh.keysDistinct j hj i hi
    · rw [hnew, hold i hi]; exact hy i hi
  · obtain hi | rfl : i < h.n ∨ i = h.n := by omega
    · rw [hold i hi]; exact hh.freqPositive i hi
    · rw [hnew]; exact Nat.le_refl 1
  · rw [Htb.countNew_pixCount, toNat_pixCount_add_one hpix, ← hh.freqSum, Htb.freqSum, hn',
      sumBelow, hnew, Htb.freqSum, sumBelow_congr fun i hi => by rw [hold i hi]]
    rfl

/-! ### A block that has just counted a pixel (R110, R113) -/

/-- HIST with a pixel counted, before the question whether it was the last. -/
structure Htb.Counted (c : Config) (h : Htb) : Prop where
  tables : h.TablesInv c
  hist : h.HistInv c
  phase : h.phase = .hist
  err : h.err = .noError
  results : h.orig = 0 ∧ h.comp = 0 ∧ h.tbits = 0
  mergeCount : h.mergeCount = 0
  live : h.live = []
  somePixel : 0 < h.pixCount.toNat
  within : h.pixCount.toNat ≤ rasterSize h.dim

/-- In HIST the invariant leaves room in PIX_COUNT for the next pixel (R144). -/
theorem Htb.Inv.pixCount_lt (hi : h.Inv c) (hp : h.phase = .hist) :
    h.pixCount.toNat < 65535 * 65535 :=
  (hi.moreToCome hp).trans_le (rasterSize_le h.dim)

theorem Htb.Inv.err_eq (hi : h.Inv c) (hp : h.phase ≠ .error) : h.err = .noError := by
  by_contra herr
  exact hp (hi.errIffError.mp herr)

theorem Htb.Inv.countKnown_counted (hi : h.Inv c) (hp : h.phase = .hist) {s : Nat} (hs : s < h.n) :
    (h.countKnown s).Counted c := by
  have hpix := hi.pixCount_lt hp
  obtain ⟨hmerge, hlive⟩ := hi.noMergeYet (.inr hp)
  have hcount : (h.countKnown s).pixCount.toNat = h.pixCount.toNat + 1 :=
    toNat_pixCount_add_one hpix
  exact {
    tables := { hi.tables with
      pool := Table.wf_write hi.tables.pool _ _
      poolBound := Table.bound_write hi.tables.poolBound (hs.trans_le hi.hist.poolFits) }
    hist := hi.hist.countKnown hs hpix
    phase := hp
    err := hi.err_eq (by rw [hp]; decide)
    results := hi.noResult (by rw [hp]; decide)
    mergeCount := hmerge
    live := hlive
    somePixel := by omega
    within := by rw [hcount]; exact hi.moreToCome hp }

theorem Htb.Inv.countNew_counted (hi : h.Inv c) (hp : h.phase = .hist) {y : Key}
    (hn : h.n < c.poolCap) (hy : ∀ s, s < h.n → (h.poolAt s).key ≠ y) :
    (h.countNew y).Counted c := by
  have hpix := hi.pixCount_lt hp
  obtain ⟨hmerge, hlive⟩ := hi.noMergeYet (.inr hp)
  have hcount : (h.countNew y).pixCount.toNat = h.pixCount.toNat + 1 :=
    toNat_pixCount_add_one hpix
  exact {
    tables := { hi.tables with
      pool := Table.wf_write hi.tables.pool _ _
      poolBound := Table.bound_write hi.tables.poolBound hn }
    hist := hi.hist.countNew hn hy hpix
    phase := hp
    err := hi.err_eq (by rw [hp]; decide)
    results := hi.noResult (by rw [hp]; decide)
    mergeCount := hmerge
    live := hlive
    somePixel := by omega
    within := by rw [hcount]; exact hi.moreToCome hp }

/-- With pixels to come the run stays in HIST. -/
theorem Htb.Counted.inv (hc : h.Counted c) (hmore : h.pixCount.toNat ≠ rasterSize h.dim) :
    h.Inv c where
  tables := hc.tables
  hist := hc.hist
  errIffError := by simp [hc.err, hc.phase]
  noResult _ := hc.results
  idleEmpty hp := by rw [hc.phase] at hp; cases hp
  noMergeYet _ := ⟨hc.mergeCount, hc.live⟩
  mergesBelow := .inl (by rw [Htb.k, hc.mergeCount]; rfl)
  moreToCome _ := lt_of_le_of_ne hc.within hmore
  allCounted hp := by simp [hc.phase] at hp
  forest hp := by rw [hc.phase] at hp; cases hp
  root hp := by rw [hc.phase] at hp; cases hp
  codes hp := by rw [hc.phase] at hp; cases hp
  results hp := by rw [hc.phase] at hp; cases hp

/-- BuildInit makes a forest of leaves, one for each slot, all of them live (R120, R125). -/
theorem Htb.Counted.endHist_forestInv (hc : h.Counted c) : h.endHist.ForestInv := by
  have hk : h.endHist.k = 0 := by rw [Htb.k, Htb.endHist_mergeCount, hc.mergeCount]; rfl
  have hleaf (i : Nat) (hi : i < h.n) : h.endHist.nodeAt i = h.leafOf i := by
    rw [Htb.nodeAt_endHist, if_pos hi]
  have hnoParent (p j : Nat) : ¬ h.endHist.IsParent p j := by
    rintro ⟨hle, hlt, -⟩
    omega
  refine {
    someSlot := hc.hist.n_pos hc.somePixel
    leaves := hleaf
    merges := fun i hlt hle => by omega
    liveRising := by rw [Htb.endHist_live]; exact List.pairwise_lt_range
    liveBelow := fun i hi => by
      rw [Htb.endHist_live, List.mem_range] at hi
      exact hi.trans_le (Nat.le_add_right _ _)
    liveCount := by rw [hk, Htb.endHist_live, List.length_range]; rfl
    liveSum := ?_
    liveIffNoParent := fun j hj => by
      rw [hk] at hj
      have hj : j < h.n := hj
      simpa only [Htb.endHist_live, List.mem_range, hnoParent, not_false_eq_true, implies_true,
        iff_true] using hj
    oneParent := fun j _ p _ hpj => absurd hpj (hnoParent p j) }
  rw [Htb.endHist_live, Htb.endHist_pixCount, ← hc.hist.freqSum, Htb.freqSum,
    sumBelow_eq_sum_range]
  congr 1
  exact List.map_congr_left fun i hi => by rw [hleaf i (List.mem_range.mp hi), Htb.leafOf]

/-- With the last pixel counted the run goes to BUILD (R113). -/
theorem Htb.Counted.endHist_inv (hc : h.Counted c) (hlast : h.pixCount.toNat = rasterSize h.dim) :
    h.endHist.Inv c where
  tables := { hc.tables with
    node := Table.wf_fill hc.tables.node _ _
    nodeBound := Table.bound_fill hc.tables.nodeBound (hc.hist.poolFits.trans (by
      simp only [Config.nodeCap]
      omega)) }
  hist := hc.hist.of_eq rfl rfl fun _ _ => rfl
  errIffError := by simp [hc.err]
  noResult _ := hc.results
  idleEmpty hp := by cases hp
  noMergeYet hp := by simp at hp
  mergesBelow := .inl (by rw [Htb.k, Htb.endHist_mergeCount, hc.mergeCount]; rfl)
  moreToCome hp := by cases hp
  allCounted _ := hlast
  forest _ := hc.endHist_forestInv
  root hp := by cases hp
  codes hp := by cases hp
  results hp := by cases hp

/-- An error that ends a run keeps the invariant (R227): the pool stays, the results are still 0. -/
theorem Htb.Inv.enterError (hi : h.Inv c) {code : ErrCode} (hcode : code ≠ .noError)
    (hp : h.phase ≠ .done) : (h.enterError code).Inv c where
  tables := hi.tables.of_eq rfl rfl rfl
  hist := hi.hist.of_eq rfl rfl fun _ _ => rfl
  errIffError := by simp [hcode]
  noResult _ := hi.noResult hp
  idleEmpty hp := by cases hp
  noMergeYet hp := by simp at hp
  mergesBelow := hi.mergesBelow
  moreToCome hp := by cases hp
  allCounted hp := by simp at hp
  forest hp := by cases hp
  root hp := by cases hp
  codes hp := by cases hp
  results hp := by cases hp

/-- CountPixel counts the pixel or ends the run with POOL_OVERFLOW (R112). -/
theorem Htb.Inv.countPixel (hi : h.Inv c) (hp : h.phase = .hist) (y : Key) :
    (h.countPixel c y).Counted c ∨
    ((h.countPixel c y).phase = .error ∧ (h.countPixel c y).Inv c) := by
  obtain ⟨s, hs, -, heq⟩ | ⟨hy, ⟨hn, heq⟩ | ⟨-, heq⟩⟩ := h.countPixel_cases c y <;> rw [heq]
  · exact .inl (hi.countKnown_counted hp hs)
  · exact .inl (hi.countNew_counted hp hn hy)
  · exact .inr ⟨rfl, hi.enterError (by decide) (by rw [hp]; decide)⟩

theorem Htb.Inv.pixel (hi : h.Inv c) (data : Word) : (h.pixel c data).Inv c := by
  obtain ⟨-, heq⟩ | ⟨hp, g, rfl, hend⟩ := h.pixel_cases c data
  · rw [heq]; exact hi.of_sameRun (h.sameRun_signal .accErr)
  obtain hcounted | ⟨herror, hinv⟩ := hi.countPixel hp (key data)
  · obtain ⟨-, hlast, heq⟩ | ⟨hmore, heq⟩ := hend <;> rw [heq]
    · exact hcounted.endHist_inv hlast
    · exact hcounted.inv fun hlast => hmore ⟨hcounted.phase, hlast⟩
  · obtain ⟨hhist, -⟩ | ⟨-, heq⟩ := hend
    · rw [herror] at hhist; cases hhist
    · rw [heq]; exact hinv

end Sys2Proof.Machine
end

section
/-! The engine keeps the invariant, ENG_MERGE above all, whose new node is the parent of the two it
takes; and O13. -/

namespace Sys2Proof.Machine

variable {c : Config} {g h : Htb} {a b : Nat}

/-! ### ENG_MERGE (R122) -/

/-- `a` and `b` are live, and `a` is the first selected of the two (R121). -/
structure Htb.Selects (h : Htb) (a b : Nat) : Prop where
  memA : a ∈ h.live
  memB : b ∈ h.live
  ne : b ≠ a
  precedes : h.precedes a b = true

theorem Htb.selects_of_least (ha : h.least h.live = some a)
    (hb : h.least (liveWithout a h.live) = some b) : h.Selects a b := by
  obtain ⟨hmem, hne⟩ := mem_liveWithout.mp (h.least_mem hb)
  exact ⟨h.least_mem ha, hmem, hne, h.least_precedes ha b hmem hne⟩

theorem Htb.Selects.memB_without (hs : h.Selects a b) : b ∈ liveWithout a h.live :=
  mem_liveWithout.mpr ⟨hs.memB, hs.ne⟩

theorem nodup_of_rising {l : List Nat} (hl : l.Pairwise (· < ·)) : l.Nodup := hl.imp Nat.ne_of_lt

/-- A sum over LIVE is the two selected terms and the sum over the others. -/
theorem Htb.Selects.sum_live (hs : h.Selects a b) (hf : h.ForestInv) (f : Nat → Nat) :
    ((liveWithout b (liveWithout a h.live)).map f).sum + f b + f a = (h.live.map f).sum := by
  rw [sum_liveWithout (nodup_of_rising (liveWithout_rising hf.liveRising a)) hs.memB_without,
    sum_liveWithout (nodup_of_rising hf.liveRising) hs.memA]

/-- Where two nodes are live, at least two merges fewer than slots have been made (R125). -/
theorem Htb.Selects.k_add_two_le (hs : h.Selects a b) (hf : h.ForestInv) : h.k + 2 ≤ h.n := by
  have hcount := hs.sum_live hf fun _ => 1
  have := hf.liveCount
  simp only [List.map_const', List.sum_replicate, smul_eq_mul, mul_one] at hcount
  omega

theorem Htb.Selects.lt_newNode (hs : h.Selects a b) (hf : h.ForestInv) :
    a < h.newNode ∧ b < h.newNode :=
  ⟨hf.liveBelow a hs.memA, hf.liveBelow b hs.memB⟩

/-- The new node and MERGE_COUNT fit their fields (R144). -/
theorem Htb.Selects.newNode_lt (hs : h.Selects a b) (hf : h.ForestInv) (hh : h.HistInv c) :
    h.newNode < 2 ^ 25 := by
  have := hs.k_add_two_le hf
  have := hh.n_le
  rw [Htb.newNode]
  omega

theorem Htb.Selects.toNat_mergeCount_add_one (hs : h.Selects a b) (hf : h.ForestInv)
    (hh : h.HistInv c) : (h.mergeCount + 1).toNat = h.k + 1 := by
  have hlt : h.k + 1 < 2 ^ 25 := by
    have := hs.k_add_two_le hf
    have := hh.n_le
    omega
  exact toNat_add_one hlt

theorem Htb.Selects.k_engMerge (hs : h.Selects a b) (hf : h.ForestInv) (hh : h.HistInv c) :
    (h.engMerge a b).k = h.k + 1 := by
  rw [Htb.k, Htb.engMerge_mergeCount, hs.toNat_mergeCount_add_one hf hh]

theorem Htb.n_engMerge (h : Htb) (a b : Nat) : (h.engMerge a b).n = h.n := by
  rw [Htb.n, Htb.engMerge_symCount]

/-- The nodes made before stay as they are. -/
theorem Htb.nodeAt_engMerge_below (a b : Nat) {i : Nat} (hi : i < h.newNode) :
    (h.engMerge a b).nodeAt i = h.nodeAt i := by
  rw [Htb.nodeAt_engMerge, if_neg hi.ne]

theorem Htb.nodeAt_engMerge_newNode (h : Htb) (a b : Nat) :
    (h.engMerge a b).nodeAt h.newNode = h.parentOf a b := by
  rw [Htb.nodeAt_engMerge, if_pos rfl]

theorem Htb.Selects.parentOf_left (hs : h.Selects a b) (hf : h.ForestInv) (hh : h.HistInv c) :
    (h.parentOf a b).left.toNat = a := by
  have ha := (hs.lt_newNode hf).1.trans (hs.newNode_lt hf hh)
  rw [Htb.parentOf, BitVec.toNat_ofNat, Nat.mod_eq_of_lt ha]

theorem Htb.Selects.parentOf_right (hs : h.Selects a b) (hf : h.ForestInv) (hh : h.HistInv c) :
    (h.parentOf a b).right.toNat = b := by
  have hb := (hs.lt_newNode hf).2.trans (hs.newNode_lt hf hh)
  rw [Htb.parentOf, BitVec.toNat_ofNat, Nat.mod_eq_of_lt hb]

/-- The sum of the two frequencies does not wrap, since the live nodes together have PIX_COUNT
(R144). -/
theorem Htb.Selects.parentOf_freq (hs : h.Selects a b) (hf : h.ForestInv) (hh : h.HistInv c) :
    (h.parentOf a b).freq.toNat = (h.nodeAt a).freq.toNat + (h.nodeAt b).freq.toNat := by
  have hsum := hs.sum_live hf fun i => (h.nodeAt i).freq.toNat
  have := hf.liveSum
  have := hh.pixBounded
  exact BitVec.toNat_add_of_lt (by omega)

/-- The node a merge makes is a merge (R125). -/
theorem Htb.Selects.isMerge_newNode (hs : h.Selects a b) (hf : h.ForestInv) (hh : h.HistInv c) :
    (h.engMerge a b).IsMerge h.newNode := by
  obtain ⟨ha, hb⟩ := hs.lt_newNode hf
  simp only [Htb.IsMerge, Htb.nodeAt_engMerge_newNode, hs.parentOf_left hf hh,
    hs.parentOf_right hf hh, hs.parentOf_freq hf hh, Htb.nodeAt_engMerge_below a b ha,
    Htb.nodeAt_engMerge_below a b hb, Htb.precedes_congr (Htb.nodeAt_engMerge_below a b ha)
    (Htb.nodeAt_engMerge_below a b hb)]
  exact ⟨rfl, ha, hb, trivial, hs.precedes⟩

/-- After a merge a node's parents are those it had, and for the two taken the new node. -/
theorem Htb.Selects.isParent_engMerge (hs : h.Selects a b) (hf : h.ForestInv) (hh : h.HistInv c)
    (p j : Nat) : (h.engMerge a b).IsParent p j ↔
      h.IsParent p j ∨ (p = h.newNode ∧ (j = a ∨ j = b)) := by
  have hle : h.n ≤ h.newNode := Nat.le_add_right _ _
  simp only [Htb.IsParent, Htb.n_engMerge, hs.k_engMerge hf hh]
  constructor
  · rintro ⟨hn, hlt, hchild⟩
    obtain hp | rfl : p < h.newNode ∨ p = h.newNode := by rw [Htb.newNode]; omega
    · rw [Htb.nodeAt_engMerge_below a b hp] at hchild
      exact .inl ⟨hn, hp, hchild⟩
    · rw [Htb.nodeAt_engMerge_newNode, hs.parentOf_left hf hh, hs.parentOf_right hf hh] at hchild
      exact .inr ⟨rfl, hchild.imp Eq.symm Eq.symm⟩
  · rintro (⟨hn, hp, hchild⟩ | ⟨rfl, hj⟩)
    · rw [Htb.nodeAt_engMerge_below a b hp]
      exact ⟨hn, by omega, hchild⟩
    · rw [Htb.nodeAt_engMerge_newNode, hs.parentOf_left hf hh, hs.parentOf_right hf hh]
      exact ⟨hle, by rw [Htb.newNode]; omega, hj.imp Eq.symm Eq.symm⟩

/-- A parent has a higher index than its child (R125). -/
theorem Htb.ForestInv.lt_of_isParent (hf : h.ForestInv) {p j : Nat} (hp : h.IsParent p j) :
    j < p := by
  obtain ⟨hn, hlt, hchild⟩ := hp
  obtain ⟨-, hleft, hright, -⟩ := hf.merges p hlt hn
  obtain rfl | rfl := hchild
  · exact hleft
  · exact hright

/-- A live node has no parent (R52). -/
theorem Htb.ForestInv.not_isParent_of_live (hf : h.ForestInv) {j : Nat} (hj : j ∈ h.live)
    (p : Nat) : ¬ h.IsParent p j := fun hp =>
  (hf.liveIffNoParent j (hf.liveBelow j hj)).mp hj p hp.2.1 hp

/-- The last node of the run has no parent, so it is live. -/
theorem Htb.ForestInv.last_live (hf : h.ForestInv) : h.n + h.k - 1 ∈ h.live := by
  have := hf.someSlot
  refine (hf.liveIffNoParent _ (by omega)).mpr fun p hlt hp => ?_
  have := hf.lt_of_isParent hp
  omega

theorem Htb.mem_live_engMerge {i : Nat} :
    i ∈ (h.engMerge a b).live ↔ i = h.newNode ∨ (i ∈ h.live ∧ i ≠ a ∧ i ≠ b) := by
  rw [Htb.engMerge_live, mem_liveWith, mem_liveWithout, mem_liveWithout, and_assoc]

/-- The new node goes to the end of LIVE. -/
theorem Htb.ForestInv.live_engMerge (hf : h.ForestInv) (a b : Nat) :
    (h.engMerge a b).live = liveWithout b (liveWithout a h.live) ++ [h.newNode] := by
  rw [Htb.engMerge_live]
  exact liveWith_above fun i hi =>
    hf.liveBelow i (mem_liveWithout.mp (mem_liveWithout.mp hi).1).1

/-- LIVE keeps its frequencies' sum (R125). -/
theorem Htb.Selects.liveSum_engMerge (hs : h.Selects a b) (hf : h.ForestInv) (hh : h.HistInv c) :
    ((h.engMerge a b).live.map fun i => ((h.engMerge a b).nodeAt i).freq.toNat).sum =
      h.pixCount.toNat := by
  have hold : (liveWithout b (liveWithout a h.live)).map
      (fun i => ((h.engMerge a b).nodeAt i).freq.toNat) =
      (liveWithout b (liveWithout a h.live)).map fun i => (h.nodeAt i).freq.toNat :=
    List.map_congr_left fun i hi => by
      rw [Htb.nodeAt_engMerge_below a b
        (hf.liveBelow i (mem_liveWithout.mp (mem_liveWithout.mp hi).1).1)]
  rw [hf.live_engMerge, List.map_append, List.sum_append, hold, List.map_singleton,
    List.sum_singleton, Htb.nodeAt_engMerge_newNode, hs.parentOf_freq hf hh, ← hf.liveSum,
    ← hs.sum_live hf fun i => (h.nodeAt i).freq.toNat]
  omega

/-- ENG_MERGE keeps the forest (R125). -/
theorem Htb.Selects.forestInv_engMerge (hs : h.Selects a b) (hf : h.ForestInv) (hh : h.HistInv c) :
    (h.engMerge a b).ForestInv := by
  have hn := h.n_engMerge a b
  have hk := hs.k_engMerge hf hh
  have hnew : h.newNode = h.n + h.k := rfl
  have hpar := hs.isParent_engMerge hf hh
  have hlt := hs.lt_newNode hf
  refine {
    someSlot := hn ▸ hf.someSlot
    leaves := fun i hi => ?leaves
    merges := fun i hlt hle => ?merges
    liveRising := h.engMerge_live a b ▸
      liveWith_rising (liveWithout_rising (liveWithout_rising hf.liveRising a) b) _
    liveBelow := fun i hi => ?liveBelow
    liveCount := ?liveCount
    liveSum := by rw [Htb.engMerge_pixCount]; exact hs.liveSum_engMerge hf hh
    liveIffNoParent := fun j hj => ?liveIffNoParent
    oneParent := fun j _ p _ hp q _ hq => ?oneParent }
  case leaves =>
    rw [hn] at hi
    rw [Htb.nodeAt_engMerge_below a b (by omega), hf.leaves i hi]
    exact (Htb.leafOf_congr (h.poolAt_engMerge a b i)).symm
  case merges =>
    obtain hi | rfl : i < h.newNode ∨ i = h.newNode := by omega
    · exact (hf.merges i hi (hn ▸ hle)).of_eq fun j hj =>
        Htb.nodeAt_engMerge_below a b (hj.trans_lt hi)
    · exact hs.isMerge_newNode hf hh
  case liveBelow =>
    obtain rfl | ⟨hi, -⟩ := Htb.mem_live_engMerge.mp hi
    · omega
    · have := hf.liveBelow i hi
      omega
  case liveCount =>
    have hcount := hs.sum_live hf fun _ => 1
    have := hf.liveCount
    simp only [List.map_const', List.sum_replicate, smul_eq_mul, mul_one] at hcount
    rw [hf.live_engMerge, List.length_append, List.length_singleton]
    omega
  case liveIffNoParent =>
    rw [Htb.mem_live_engMerge]
    constructor
    · rintro (rfl | ⟨hj, hja, hjb⟩) p - hp
      · obtain hp | ⟨-, hj⟩ := (hpar p _).mp hp
        · exact absurd hp.2.1 (hf.lt_of_isParent hp).not_gt
        · omega
      · obtain hp | ⟨-, hj⟩ := (hpar p j).mp hp
        · exact hf.not_isParent_of_live hj p hp
        · omega
    · intro hnone
      by_cases hjnew : j = h.newNode
      · exact .inl hjnew
      · have hnotNew : ¬ (j = a ∨ j = b) := fun hj =>
          hnone h.newNode (by omega) ((hpar _ _).mpr (.inr ⟨rfl, hj⟩))
        refine .inr ⟨(hf.liveIffNoParent j (by omega)).mpr fun p hlt hp => ?_, by omega, by omega⟩
        exact hnone p (by omega) ((hpar _ _).mpr (.inl hp))
  case oneParent =>
    have hlive (r : Nat) (hj : j = a ∨ j = b) : ¬ h.IsParent r j := by
      obtain rfl | rfl := hj
      · exact hf.not_isParent_of_live hs.memA r
      · exact hf.not_isParent_of_live hs.memB r
    obtain hp | ⟨rfl, hj⟩ := (hpar p j).mp hp <;> obtain hq | ⟨rfl, hj'⟩ := (hpar q j).mp hq
    · exact hf.oneParent j ((hf.lt_of_isParent hp).trans hp.2.1) p hp.2.1 hp q hq.2.1 hq
    · exact absurd hp (hlive p hj')
    · exact absurd hq (hlive q hj)
    · rfl

theorem Htb.Inv.engMerge (hi : h.Inv c) (hp : h.phase = .build) (hs : h.Selects a b) :
    (h.engMerge a b).Inv c := by
  have hf := hi.forest (by rw [hp]; rfl)
  have hk := hs.k_add_two_le hf
  have hp' : (h.engMerge a b).phase = .build := (h.engMerge_phase a b).trans hp
  exact {
    tables := {
      pool := by rw [Htb.engMerge_pool]; exact hi.tables.pool
      node := by rw [Htb.engMerge_node]; exact Table.wf_write hi.tables.node _ _
      code := by rw [Htb.engMerge_code]; exact hi.tables.code
      poolBound := by rw [Htb.engMerge_pool]; exact hi.tables.poolBound
      nodeBound := by
        rw [Htb.engMerge_node]
        refine Table.bound_write hi.tables.nodeBound ?_
        have := hi.hist.poolFits
        rw [Htb.newNode, Config.nodeCap]
        omega
      codeBound := by rw [Htb.engMerge_code]; exact hi.tables.codeBound }
    hist := hi.hist.of_eq (h.engMerge_symCount a b) (h.engMerge_pixCount a b) fun i _ =>
      h.poolAt_engMerge a b i
    errIffError := by rw [Htb.engMerge_err, Htb.engMerge_phase]; exact hi.errIffError
    noResult := fun _ => by
      rw [Htb.engMerge_orig, Htb.engMerge_comp, Htb.engMerge_tbits]
      exact hi.noResult (by rw [hp]; decide)
    idleEmpty := fun hq => by rw [hp'] at hq; cases hq
    noMergeYet := fun hq => by rw [hp'] at hq; simp at hq
    mergesBelow := .inr (by rw [hs.k_engMerge hf hi.hist, Htb.n_engMerge]; omega)
    moreToCome := fun hq => by rw [hp'] at hq; cases hq
    allCounted := fun _ => by
      rw [Htb.engMerge_pixCount, Htb.engMerge_dim]; exact hi.allCounted (.inl hp)
    forest := fun _ => hs.forestInv_engMerge hf hi.hist
    root := fun hq => by rw [hp'] at hq; cases hq
    codes := fun hq => by rw [hp'] at hq; cases hq
    results := fun hq => by rw [hp'] at hq; cases hq }

/-! ### ENG_BUILD_END (R124) -/

/-- Where no second live node is left, all merges are made and the live node is the last one. -/
theorem Htb.ForestInv.single_live (hf : h.ForestInv) (ha : h.least h.live = some a)
    (hb : h.least (liveWithout a h.live) = none) : h.k + 1 = h.n ∧ a = h.n + h.k - 1 := by
  have hnone := h.least_eq_none.mp hb
  have hlen := length_liveWithout (nodup_of_rising hf.liveRising) (h.least_mem ha)
  have hcount := hf.liveCount
  rw [hnone, List.length_nil] at hlen
  refine ⟨by omega, ?_⟩
  by_contra hne
  have hmem : h.n + h.k - 1 ∈ liveWithout a h.live :=
    mem_liveWithout.mpr ⟨hf.last_live, Ne.symm hne⟩
  rw [hnone] at hmem
  exact List.not_mem_nil hmem

theorem Htb.Inv.engBuildEnd (hi : h.Inv c) (hp : h.phase = .build) (ha : h.least h.live = some a)
    (hb : h.least (liveWithout a h.live) = none) : (h.engBuildEnd a).Inv c := by
  have hf := hi.forest (by rw [hp]; rfl)
  obtain ⟨hk, ha⟩ := hf.single_live ha hb
  have hroot : (BitVec.ofNat 25 a).toNat = a := by
    have := hi.hist.n_le
    rw [BitVec.toNat_ofNat, Nat.mod_eq_of_lt (by omega)]
  exact {
    tables := hi.tables.of_eq rfl rfl rfl
    hist := hi.hist.of_eq rfl rfl fun _ _ => rfl
    errIffError := by simp [hi.err_eq (by rw [hp]; decide)]
    noResult := fun _ => hi.noResult (by rw [hp]; decide)
    idleEmpty := fun hq => by cases hq
    noMergeYet := fun hq => by simp at hq
    mergesBelow := hi.mergesBelow
    moreToCome := fun hq => by cases hq
    allCounted := fun _ => hi.allCounted (.inl hp)
    forest := fun _ => hf.of_eq rfl rfl rfl rfl (fun _ => rfl) fun _ => rfl
    root := fun _ => ⟨hk, by
      have hn : (h.engBuildEnd a).n = h.n := rfl
      rw [Htb.engBuildEnd_rootI, hroot, hn]
      omega⟩
    codes := fun hq => by cases hq
    results := fun hq => by cases hq }

/-! ### ENG_WALK (R131) -/

/-- The block after a walk that finds no codeword too long. -/
theorem Htb.engWalkTree_of_not_tooDeep {tree : Tree} (hdeep : tree.tooDeep h.n = false) :
    h.engWalkTree tree = { h.signal .sizeStart with
      code := Table.fill h.code (fun s => pack (tree.path s)) h.n, phase := .size } := by
  rw [Htb.engWalkTree, hdeep]
  rfl

theorem Htb.Inv.engWalkTree (hi : h.Inv c) (hp : h.phase = .walk) {tree : Tree}
    (htree : h.runTree? = some tree) : (h.engWalkTree tree).Inv c := by
  have hf := hi.forest (by rw [hp]; rfl)
  have hr := hi.root (by rw [hp]; rfl)
  obtain ⟨-, heq⟩ | ⟨hdeep, -, hcode⟩ := h.engWalkTree_cases tree
  · rw [heq]
    exact hi.enterError (by decide) (by rw [hp]; decide)
  · rw [Htb.engWalkTree_of_not_tooDeep hdeep] at hcode ⊢
    exact {
      tables := { hi.tables with
        code := Table.wf_fill hi.tables.code _ _
        codeBound := Table.bound_fill hi.tables.codeBound hi.hist.poolFits }
      hist := hi.hist.of_eq rfl rfl fun _ _ => rfl
      errIffError := by simp [hi.err_eq (by rw [hp]; decide)]
      noResult := fun _ => hi.noResult (by rw [hp]; decide)
      idleEmpty := fun hq => by cases hq
      noMergeYet := fun hq => by simp at hq
      mergesBelow := hi.mergesBelow
      moreToCome := fun hq => by cases hq
      allCounted := fun _ => hi.allCounted (.inr (.inl hp))
      forest := fun _ => hf.of_eq rfl rfl rfl rfl (fun _ => rfl) fun _ => rfl
      root := fun _ => ⟨hr.merges, hr.root⟩
      codes := fun _ => ⟨tree,
        (Htb.runTree?_congr hf hr (by rfl) (fun _ _ => by rfl) (by rfl)).trans htree,
        hdeep, fun s hs => (hcode s).trans (if_pos hs)⟩
      results := fun hq => by cases hq }

/-! ### ENG_SIZE (R140..R144) -/

/-- Σ freq·len is at most 127 for each pixel, a length being 7 bits wide (R53, R141). -/
theorem Htb.HistInv.totalBits_le (hh : h.HistInv c) : h.totalBits ≤ 127 * h.pixCount.toNat := by
  rw [← hh.freqSum, Htb.totalBits, Htb.freqSum]
  generalize h.n = n
  induction n with
  | zero => exact Nat.zero_le _
  | succ n ih =>
    have hlen : (h.codeAt n).len.toNat ≤ 127 := by
      have := (h.codeAt n).len.isLt
      omega
    have := Nat.mul_le_mul_left (h.poolAt n).freq.toNat hlen
    rw [sumBelow, sumBelow]
    omega

theorem Htb.Inv.engSize_resultInv (hi : h.Inv c) (hp : h.phase = .size) : h.engSize.ResultInv := by
  have htotal : h.engSize.totalBits = h.totalBits :=
    Htb.totalBits_congr rfl (fun _ _ => rfl) fun _ _ => rfl
  have hbits := hi.hist.totalBits_le
  have hpix := hi.hist.pixBounded
  have hall := hi.allCounted (.inr (.inr hp))
  constructor
  · rw [Htb.engSize_orig, Htb.engSize_pixCount, hall, originalBytes, BitVec.toNat_ofNat,
      Nat.mod_eq_of_lt (by omega)]
  · rw [Htb.engSize_tbits, htotal, BitVec.toNat_ofNat, Nat.mod_eq_of_lt (by omega)]
  · rw [Htb.engSize_comp, htotal, compressedBytes, BitVec.toNat_ofNat, Nat.mod_eq_of_lt (by omega)]

theorem Htb.Inv.engSize (hi : h.Inv c) (hp : h.phase = .size) : h.engSize.Inv c := by
  have hf := hi.forest (by rw [hp]; rfl)
  have hr := hi.root (by rw [hp]; rfl)
  have hc := hi.codes (by rw [hp]; rfl)
  exact {
    tables := hi.tables.of_eq rfl rfl rfl
    hist := hi.hist.of_eq rfl rfl fun _ _ => rfl
    errIffError := by simp [hi.err_eq (by rw [hp]; decide)]
    noResult := fun hq => absurd rfl hq
    idleEmpty := fun hq => by cases hq
    noMergeYet := fun hq => by simp at hq
    mergesBelow := hi.mergesBelow
    moreToCome := fun hq => by cases hq
    allCounted := fun hq => by simp at hq
    forest := fun _ => hf.of_eq rfl rfl rfl rfl (fun _ => rfl) fun _ => rfl
    root := fun _ => ⟨hr.merges, hr.root⟩
    codes := fun _ =>
      hc.of_eq rfl (Htb.runTree?_congr hf hr rfl (fun _ _ => rfl) rfl) fun _ _ => rfl
    results := fun _ => hi.engSize_resultInv hp }

/-! ### Every step -/

theorem Htb.Inv.engine (hi : h.Inv c) {e : EngineStep} (he : h.enabled = some e)
    (hg : h.engine e = .ok g) : g.Inv c := by
  obtain ⟨a, b, hp, ha, hb, rfl⟩ | ⟨a, hp, ha, hb, rfl⟩ | ⟨tree, hp, htree, rfl⟩ | ⟨hp, rfl⟩ :=
    Htb.enabled_engine_cases he hg
  · exact hi.engMerge hp (Htb.selects_of_least ha hb)
  · exact hi.engBuildEnd hp ha hb
  · exact hi.engWalkTree hp htree
  · exact hi.engSize hp

theorem State.Inv.exec {s t : State} (hi : s.Inv) {i : Instr} (ht : exec i s = .next t) :
    t.Inv := by
  rw [State.Inv, exec_config ht]
  obtain ⟨-, heq⟩ | ⟨-, heq⟩ | ⟨data, -, heq⟩ | hsame := exec_cases ht
  · rw [heq]; exact Htb.Inv.start hi
  · rw [heq]; exact Htb.Inv.clearRun hi
  · rw [heq]; exact Htb.Inv.pixel hi data
  · exact Htb.Inv.of_sameRun hi hsame

end Sys2Proof.Machine

namespace Sys2Proof.Proofs

open Sys2Proof.Machine

/-- Settles O13: host operations, engine steps and reset each keep the invariant. -/
theorem everyStepKeepsTheInvariant : Obligations.EveryStepKeepsTheInvariant := by
  intro s t hi hstep
  obtain ⟨w, rest, -, hexec⟩ | ⟨rest, -, hmove⟩ | ⟨rest, -, rfl⟩ := step_cases hstep
  · exact State.Inv.exec (s := { s with agenda := rest }) hi hexec
  · obtain rfl | ⟨e, he, hg, hframe⟩ := State.engineMove_enabled_cases hmove
    · exact hi
    · rw [State.Inv, hframe]
      exact Htb.Inv.engine hi he hg
  · exact Htb.reset_inv s.config (s.htb.epoch + 1)

end Sys2Proof.Proofs
end

section
/-! Blocks that agree on everything a rule reads (R57) still agree after every operation and step;
O33, which starts from less, and O60. -/

namespace Sys2Proof.Machine

variable {c : Config} {g h g' h' : Htb} {s t : State}

/-! ### Commands and register writes -/

/-- Two blocks with no run, in one phase, differ in nothing a rule reads but the configuration, the
error and the events. -/
theorem Htb.Cleared.agree (hg : g.Cleared) (hh : h.Cleared) (hphase : g.phase = h.phase)
    (hnoNodes : h.phase.hasNodes = false) (herr : g.err = h.err) (hdim : g.dim = h.dim)
    (hprog : g.progInterval = h.progInterval) (hpend : g.evPending = h.evPending)
    (hen : g.evEnable = h.evEnable) (hslot : g.slotSel = h.slotSel)
    (hnode : g.nodeSel = h.nodeSel) :
    g.Agree h := by
  have noNodes {p : Prop} (hp : h.phase.hasNodes = true) : p := by simp [hnoNodes] at hp
  obtain ⟨horig, hcomp, htbits⟩ := hg.results
  obtain ⟨horig', hcomp', htbits'⟩ := hh.results
  exact {
    phase := hphase, err := herr, dim := hdim, progInterval := hprog, evPending := hpend
    evEnable := hen, slotSel := hslot, nodeSel := hnode
    pixCount := hg.pixCount.trans hh.pixCount.symm
    symCount := hg.symCount.trans hh.symCount.symm
    mergeCount := hg.mergeCount.trans hh.mergeCount.symm
    orig := horig.trans horig'.symm
    comp := hcomp.trans hcomp'.symm
    tbits := htbits.trans htbits'.symm
    live := hg.live.trans hh.live.symm
    pool := fun i hi => absurd hi (by rw [hh.n_eq]; exact Nat.not_lt_zero i)
    node := noNodes
    code := fun hp => noNodes (hasNodes_of_hasTree (hasTree_of_hasCodes hp))
    root := fun hp => noNodes (hasNodes_of_hasTree hp) }

theorem Htb.agree_clearRun (hdim : g.dim = h.dim) (hprog : g.progInterval = h.progInterval)
    (hen : g.evEnable = h.evEnable) (hslot : g.slotSel = h.slotSel)
    (hnode : g.nodeSel = h.nodeSel) :
    Htb.Agree g.clearRun h.clearRun :=
  g.clearRun_cleared.agree h.clearRun_cleared rfl rfl rfl hdim hprog rfl hen hslot hnode

/-- Reset puts every register, and what it leaves unspecified is not compared (R57, R250). -/
theorem Htb.agree_reset (m n : Nat) : Htb.Agree (Htb.reset m) (Htb.reset n) :=
  (Htb.reset_cleared m).agree (Htb.reset_cleared n) rfl rfl rfl rfl rfl rfl rfl rfl rfl

/-- In ERROR the nodes, the codes and the root are not compared (R57). -/
theorem Htb.Agree.enterError (ha : g.Agree h) (code : ErrCode) :
    Htb.Agree (g.enterError code) (h.enterError code) :=
  { ha with
    phase := rfl
    err := rfl
    evPending := by rw [Htb.enterError_evPending, Htb.enterError_evPending, ha.evPending]
    node := fun hp => by cases hp
    code := fun hp => by cases hp
    root := fun hp => by cases hp }

theorem Htb.agree_start (hdim : g.dim = h.dim) (hprog : g.progInterval = h.progInterval)
    (hen : g.evEnable = h.evEnable) (hslot : g.slotSel = h.slotSel)
    (hnode : g.nodeSel = h.nodeSel) :
    Htb.Agree g.start h.start := by
  have ha := Htb.agree_clearRun hdim hprog hen hslot hnode
  obtain ⟨hz, heq⟩ | ⟨hz, heq⟩ := h.start_cases <;>
    obtain ⟨hz', heq'⟩ | ⟨hz', heq'⟩ := g.start_cases <;> rw [heq, heq']
  · exact ha.enterError .emptyInput
  · exact absurd (hdim ▸ hz) hz'
  · exact absurd (hdim ▸ hz') hz
  · exact { ha with phase := rfl, node := fun hp => by cases hp }

theorem Htb.Agree.clearRun (ha : g.Agree h) : Htb.Agree g.clearRun h.clearRun :=
  Htb.agree_clearRun ha.dim ha.progInterval ha.evEnable ha.slotSel ha.nodeSel

theorem Htb.Agree.start (ha : g.Agree h) : Htb.Agree g.start h.start :=
  Htb.agree_start ha.dim ha.progInterval ha.evEnable ha.slotSel ha.nodeSel

theorem Htb.Agree.signal (ha : g.Agree h) (e : Ev) : Htb.Agree (g.signal e) (h.signal e) :=
  { ha with evPending := by rw [Htb.signal_evPending, Htb.signal_evPending, ha.evPending] }

theorem Htb.Agree.ack (ha : g.Agree h) (m : Events) : Htb.Agree (g.ack m) (h.ack m) :=
  { ha with evPending := by rw [Htb.ack_evPending, Htb.ack_evPending, ha.evPending] }

theorem Htb.Agree.busy (ha : g.Agree h) : g.busy = h.busy := by rw [Htb.busy, Htb.busy, ha.phase]

theorem Htb.Agree.unlessBusy (ha : g.Agree h) (hw : g'.Agree h') :
    Htb.Agree (g.unlessBusy g') (h.unlessBusy h') := by
  unfold Htb.unlessBusy
  rw [ha.busy]
  split
  · exact ha.signal .accErr
  · exact hw

/-! ### The histogram counter -/

/-- The symbol is looked for in the slots below n alone (R112). -/
theorem Htb.Agree.findSlot (ha : g.Agree h) (y : Key) : g.findSlot y = h.findSlot y := by
  unfold Htb.findSlot
  rw [Htb.n, ha.symCount]
  exact List.find?_congr fun s hs => by rw [ha.pool s (List.mem_range.mp hs)]

theorem Htb.Agree.countKnown (ha : g.Agree h) {s : Nat} (hs : s < h.n) :
    Htb.Agree (g.countKnown s) (h.countKnown s) :=
  { ha with
    pixCount := by rw [Htb.countKnown_pixCount, Htb.countKnown_pixCount, ha.pixCount]
    pool := fun i hi => by
      rw [Htb.poolAt_countKnown, Htb.poolAt_countKnown, ha.pool s hs, ha.pool i hi] }

theorem Htb.Agree.countNew (ha : g.Agree h) (hp : h.phase = .hist) (hh : h.HistInv c) (y : Key) :
    Htb.Agree (g.countNew y) (h.countNew y) :=
  { ha with
    pixCount := by rw [Htb.countNew_pixCount, Htb.countNew_pixCount, ha.pixCount]
    symCount := by rw [Htb.countNew_symCount, Htb.countNew_symCount, ha.symCount]
    pool := fun i hi => by
      have hn : g.n = h.n := by rw [Htb.n, ha.symCount]
      have hi : i < h.n + 1 := hh.toNat_symCount_add_one ▸ hi
      rw [Htb.poolAt_countNew, Htb.poolAt_countNew, hn]
      split
      · rfl
      · exact ha.pool i (by omega)
    node := fun hq => by rw [Htb.countNew_phase, hp] at hq; cases hq
    code := fun hq => by rw [Htb.countNew_phase, hp] at hq; cases hq }

theorem Htb.Agree.countPixel (ha : g.Agree h) (hi : h.Inv c) (hp : h.phase = .hist) (y : Key) :
    Htb.Agree (g.countPixel c y) (h.countPixel c y) := by
  unfold Htb.countPixel
  rw [ha.findSlot, show g.n = h.n by rw [Htb.n, ha.symCount]]
  split
  · next s hs => exact ha.countKnown (h.findSlot_some hs).1
  · split
    · exact ha.countNew hp hi.hist y
    · exact ha.enterError .poolOverflow

/-- BuildInit writes every node there is before the first merge (R120). -/
theorem Htb.Agree.endHist (ha : g.Agree h) (hk : h.mergeCount = 0) :
    Htb.Agree g.endHist h.endHist :=
  have hn : g.n = h.n := by rw [Htb.n, ha.symCount]
  { ha with
    phase := rfl
    evPending := by rw [Htb.endHist_evPending, Htb.endHist_evPending, ha.evPending]
    live := by rw [Htb.endHist_live, Htb.endHist_live, hn]
    node := fun _ i hi => by
      have hi : i < h.n := by
        rw [Htb.k, Htb.endHist_mergeCount, hk] at hi
        exact hi
      rw [Htb.nodeAt_endHist, Htb.nodeAt_endHist, hn, if_pos hi, if_pos hi,
        Htb.leafOf_congr (ha.pool i hi)]
    code := fun hq => by cases hq
    root := fun hq => by cases hq }

theorem Htb.Agree.pixel (ha : g.Agree h) (hi : h.Inv c) (data : Word) :
    Htb.Agree (g.pixel c data) (h.pixel c data) := by
  unfold Htb.pixel
  rw [ha.phase]
  split
  · next hp =>
    have hcount := ha.countPixel hi hp (key data)
    unfold Htb.endHistIfLast
    rw [hcount.phase, hcount.pixCount, hcount.dim]
    split
    · next hlast =>
      obtain hcounted | ⟨herror, -⟩ := hi.countPixel hp (key data)
      · exact hcount.endHist hcounted.mergeCount
      · rw [herror] at hlast; cases hlast.1
    · exact hcount
  · exact ha.signal .accErr

/-! ### The engine -/

theorem Htb.least_congr {l : List Nat} (hl : ∀ i ∈ l, g.nodeAt i = h.nodeAt i) :
    g.least l = h.least l := by
  induction l with
  | nil => rfl
  | cons i l ih =>
    have htail := ih fun j hj => hl j (List.mem_cons_of_mem _ hj)
    rw [Htb.least, Htb.least, htail]
    split
    · rfl
    · next j hj =>
      rw [Htb.precedes_congr (hl j (List.mem_cons_of_mem _ (h.least_mem hj)))
        (hl i (List.mem_cons_self ..))]

/-- The nodes that are live agree, so the selection is the same (R121). -/
theorem Htb.Agree.enabledInBuild (ha : g.Agree h) (hi : h.Inv c) (hp : h.phase = .build) :
    g.enabledInBuild = h.enabledInBuild := by
  have hnodes : h.phase.hasNodes = true := by rw [hp]; rfl
  have hnode (i : Nat) (hmem : i ∈ h.live) : g.nodeAt i = h.nodeAt i :=
    ha.node hnodes i ((hi.forest hnodes).liveBelow i hmem)
  unfold Htb.enabledInBuild
  rw [ha.live, Htb.least_congr hnode]
  split
  · rfl
  · rw [Htb.least_congr fun i hmem => hnode i (mem_liveWithout.mp hmem).1]

theorem Htb.Agree.enabled (ha : g.Agree h) (hi : h.Inv c) : g.enabled = h.enabled := by
  unfold Htb.enabled
  rw [ha.phase]
  split
  · next hp => exact ha.enabledInBuild hi hp
  all_goals rfl

theorem Htb.Agree.runTree? (ha : g.Agree h) (hi : h.Inv c) (hp : h.phase.hasTree = true) :
    g.runTree? = h.runTree? :=
  Htb.runTree?_congr (hi.forest (hasNodes_of_hasTree hp)) (hi.root hp) ha.symCount
    (ha.node (hasNodes_of_hasTree hp)) (ha.root hp)

theorem Htb.Agree.progressCheck (ha : g.Agree h) : Htb.Agree g.progressCheck h.progressCheck := by
  unfold Htb.progressCheck
  rw [ha.progInterval, Htb.k, ha.mergeCount]
  split
  · exact ha.signal .progress
  · exact ha

/-- Before the progress check a merge makes the one node and no other (R122). -/
theorem Htb.nodeAt_write (h : Htb) (m : Nat) (k : Index) (v : NodeEntry) (l : List Nat) (i : Nat) :
    Htb.nodeAt { h with
      node := Table.write h.node m v, live := l, mergeCount := k } i =
      if i = m then v else h.nodeAt i := by
  simp only [Htb.nodeAt, Table.read?_write]
  split <;> rfl

theorem Htb.Agree.engMerge (ha : g.Agree h) (hi : h.Inv c) (hp : h.phase = .build) {a b : Nat}
    (hs : h.Selects a b) : Htb.Agree (g.engMerge a b) (h.engMerge a b) := by
  have hnodes : h.phase.hasNodes = true := by rw [hp]; rfl
  have hf := hi.forest hnodes
  have hnew : g.newNode = h.newNode := by
    rw [Htb.newNode, Htb.newNode, Htb.n, Htb.k, ha.symCount, ha.mergeCount]
  have hparent : g.parentOf a b = h.parentOf a b := by
    rw [Htb.parentOf, Htb.parentOf, ha.node hnodes a (hs.lt_newNode hf).1,
      ha.node hnodes b (hs.lt_newNode hf).2]
  refine Htb.Agree.progressCheck { ha with
    mergeCount := congrArg (· + 1) ha.mergeCount
    live := by simp only [hnew, ha.live]
    node := fun _ i hlt => ?node
    code := fun hq => by simp only [hp] at hq; cases hq
    root := fun hq => by simp only [hp] at hq; cases hq }
  rw [Htb.k, hs.toNat_mergeCount_add_one hf hi.hist] at hlt
  have hlt : i ≠ h.newNode → i < h.n + h.k := fun hne => by
    rw [Htb.newNode] at hne
    have hlt : i < h.n + (h.k + 1) := hlt
    omega
  rw [Htb.nodeAt_write, Htb.nodeAt_write, hnew, hparent]
  split
  · rfl
  · next hne => exact ha.node hnodes i (hlt hne)

theorem Htb.Agree.engBuildEnd (ha : g.Agree h) (hp : h.phase = .build) (r : Nat) :
    Htb.Agree (g.engBuildEnd r) (h.engBuildEnd r) :=
  { ha with
    phase := rfl
    evPending := by rw [Htb.engBuildEnd_evPending, Htb.engBuildEnd_evPending, ha.evPending]
    node := fun _ => ha.node (by rw [hp]; rfl)
    code := fun hq => by cases hq
    root := fun _ => rfl }

/-- ENG_WALK writes every code below n (R131). -/
theorem Htb.Agree.engWalkTree (ha : g.Agree h) (hp : h.phase = .walk) (tree : Tree) :
    Htb.Agree (g.engWalkTree tree) (h.engWalkTree tree) := by
  have hn : g.n = h.n := by rw [Htb.n, ha.symCount]
  unfold Htb.engWalkTree
  rw [hn]
  split
  · exact ha.enterError .codeLength
  · exact { ha with
      phase := rfl
      evPending := congrArg (· ||| evMask .sizeStart) ha.evPending
      node := fun _ => ha.node (by rw [hp]; rfl)
      code := fun _ i hlt => by
        have hlt : i < h.n := hlt
        simp only [Htb.codeAt, Htb.signal_code, Table.read?_fill, if_pos hlt, Option.getD_some]
      root := fun _ => ha.root (by rw [hp]; rfl) }

theorem Htb.Agree.engSize (ha : g.Agree h) (hp : h.phase = .size) :
    Htb.Agree g.engSize h.engSize := by
  have hcode := ha.code (by rw [hp]; rfl)
  have htotal : g.totalBits = h.totalBits := Htb.totalBits_congr ha.symCount ha.pool hcode
  exact { ha with
    phase := rfl
    evPending := by rw [Htb.engSize_evPending, Htb.engSize_evPending, ha.evPending]
    orig := by rw [Htb.engSize_orig, Htb.engSize_orig, ha.dim]
    comp := by rw [Htb.engSize_comp, Htb.engSize_comp, htotal]
    tbits := by rw [Htb.engSize_tbits, Htb.engSize_tbits, htotal]
    node := fun _ => ha.node (by rw [hp]; rfl)
    code := fun _ => hcode
    root := fun _ => ha.root (by rw [hp]; rfl) }

/-- Where one block takes an engine step the other takes it too. -/
theorem Htb.Agree.engine (ha : g.Agree h) (hi : h.Inv c) {e : EngineStep}
    (he : h.enabled = some e) (hg : g.engine e = .ok g') :
    ∃ h', h.engine e = .ok h' ∧ g'.Agree h' := by
  obtain ⟨a, b, hp, hleast, hleast', rfl⟩ | ⟨a, hp, -, -, rfl⟩ | ⟨hp, rfl⟩ | ⟨hp, rfl⟩ :=
    h.enabled_cases he
  · cases hg
    exact ⟨_, rfl, ha.engMerge hi hp (Htb.selects_of_least hleast hleast')⟩
  · cases hg
    exact ⟨_, rfl, ha.engBuildEnd hp a⟩
  · have htree := ha.runTree? hi (by rw [hp]; rfl)
    simp only [Htb.engine] at hg ⊢
    rw [htree] at hg
    cases hrun : h.runTree? with
    | none => rw [hrun] at hg; cases hg
    | some tree =>
      rw [hrun] at hg
      cases hg
      exact ⟨_, rfl, ha.engWalkTree hp tree⟩
  · cases hg
    exact ⟨_, rfl, ha.engSize hp⟩

/-! ### Reads -/

theorem Htb.Agree.statusWord (ha : g.Agree h) : g.statusWord = h.statusWord := by
  simp only [Htb.statusWord, Htb.irq, Htb.resultValid, Htb.busy, ha.phase,
    ha.evPending, ha.evEnable]

theorem Htb.Agree.slotValid (ha : g.Agree h) : g.slotValid = h.slotValid := by
  simp only [Htb.slotValid, Htb.n, ha.phase, ha.slotSel, ha.symCount]

theorem Htb.slotValid_iff (h : Htb) :
    h.slotValid = true ↔ h.phase = .done ∧ h.slotSel.toNat < h.n := by
  simp [Htb.slotValid]

theorem Htb.nodeValid_iff (h : Htb) :
    h.nodeValid = true ↔ h.phase = .done ∧ h.nodeSel.toNat < 2 * h.n - 1 := by
  simp [Htb.nodeValid]

theorem Htb.Agree.slotPool? (ha : g.Agree h) : g.slotPool? = h.slotPool? := by
  unfold Htb.slotPool?
  rw [ha.slotValid, ha.slotSel]
  split
  · next hv => rw [ha.pool _ (h.slotValid_iff.mp hv).2]
  · rfl

theorem Htb.Agree.slotCode? (ha : g.Agree h) : g.slotCode? = h.slotCode? := by
  unfold Htb.slotCode?
  rw [ha.slotValid, ha.slotSel]
  split
  · next hv =>
    obtain ⟨hp, hlt⟩ := h.slotValid_iff.mp hv
    rw [ha.code (by rw [hp]; rfl) _ hlt]
  · rfl

/-- In DONE the nodes below 2n − 1 are those of the run (R125, R170). -/
theorem Htb.Agree.node? (ha : g.Agree h) (hi : h.Inv c) : g.node? = h.node? := by
  have hvalid : g.nodeValid = h.nodeValid := by
    simp only [Htb.nodeValid, Htb.n, ha.phase, ha.nodeSel, ha.symCount]
  unfold Htb.node?
  rw [hvalid, ha.nodeSel]
  split
  · next hv =>
    obtain ⟨hp, hlt⟩ := h.nodeValid_iff.mp hv
    have hmerges := (hi.root (by rw [hp]; rfl)).merges
    rw [ha.node (by rw [hp]; rfl) _ (by omega)]
  · rfl

theorem Htb.Agree.rootWord (ha : g.Agree h) :
    (if g.phase = .done then zext32 g.rootI else 0) =
      if h.phase = .done then zext32 h.rootI else 0 := by
  rw [ha.phase]
  split
  · next hp => rw [ha.root (by rw [hp]; rfl)]
  · rfl

/-! ### Host operations and steps -/

/-- Both machines go on, to states that agree. -/
def AgreeNext (r q : Result) : Prop := ∃ s t, r = .next s ∧ q = .next t ∧ s.Agree t

theorem State.Agree.answer (hst : s.Agree t) {v w : Word} (hv : v = w) :
    AgreeNext (s.answer v) (t.answer w) :=
  ⟨_, _, rfl, rfl, hst.config, hst.htb, hst.agenda, congrArg some hv⟩

theorem State.Agree.commit (hst : s.Agree t) (ha : g.Agree h) :
    AgreeNext (s.commit g) (t.commit h) :=
  ⟨_, _, rfl, rfl, hst.config, ha, hst.agenda, rfl⟩

/-- A host operation answers two machines that agree the same, and leaves them in agreement. -/
theorem State.Agree.exec (hst : s.Agree t) (hi : t.Inv) (i : Instr) :
    AgreeNext (exec i s) (exec i t) := by
  have ha := hst.htb
  cases i
  case cmdStart => exact hst.commit ha.start
  case cmdAbort => exact hst.commit ha.clearRun
  case rsvdCmd => exact hst.commit (ha.signal .accErr)
  case wrDim data => exact hst.commit (ha.unlessBusy { ha with dim := rfl })
  case wrPixel data => exact hst.commit (by rw [hst.config]; exact ha.pixel hi data)
  case wrProgInterval data => exact hst.commit (ha.unlessBusy { ha with progInterval := rfl })
  case wrEvPending data => exact hst.commit (ha.ack (eventMask data))
  case wrEvEnable => exact hst.commit { ha with evEnable := rfl }
  case wrSlotSel => exact hst.commit { ha with slotSel := rfl }
  case wrNodeSel => exact hst.commit { ha with nodeSel := rfl }
  case wrIgnored => exact hst.commit ha
  case rdId => exact hst.answer rfl
  case rdParam => exact hst.answer (by rw [hst.config])
  case rdStatus => exact hst.answer ha.statusWord
  case rdErr => exact hst.answer (by rw [ha.err])
  case rdDim => exact hst.answer ha.dim
  case rdPixCount => exact hst.answer ha.pixCount
  case rdSymCount => exact hst.answer (by rw [ha.symCount])
  case rdMergeCount => exact hst.answer (by rw [ha.mergeCount])
  case rdProgInterval => exact hst.answer ha.progInterval
  case rdEvPending => exact hst.answer (by rw [ha.evPending])
  case rdEvEnable => exact hst.answer (by rw [ha.evEnable])
  case rdOrigLo => exact hst.answer (by rw [ha.orig])
  case rdOrigHi => exact hst.answer (by rw [ha.orig])
  case rdCompLo => exact hst.answer (by rw [ha.comp])
  case rdCompHi => exact hst.answer (by rw [ha.comp])
  case rdTbitsLo => exact hst.answer (by rw [ha.tbits])
  case rdTbitsHi => exact hst.answer (by rw [ha.tbits])
  case rdRoot => exact hst.answer ha.rootWord
  case rdSlotSel => exact hst.answer (by rw [ha.slotSel])
  case rdSlotKey => exact hst.answer (by rw [ha.slotPool?])
  case rdSlotFreq => exact hst.answer (by rw [ha.slotPool?])
  case rdSlotClen => exact hst.answer (by rw [ha.slotCode?])
  case rdSlotCbitsLo => exact hst.answer (by rw [ha.slotCode?])
  case rdSlotCbitsHi => exact hst.answer (by rw [ha.slotCode?])
  case rdNodeSel => exact hst.answer (by rw [ha.nodeSel])
  case rdNodeKind => exact hst.answer (by rw [ha.node? hi])
  case rdNodeFreq => exact hst.answer (by rw [ha.node? hi])
  case rdNodeLeft => exact hst.answer (by rw [ha.node? hi])
  case rdNodeRight => exact hst.answer (by rw [ha.node? hi])
  case rdZero => exact hst.answer rfl

/-- The engine moves both machines or neither. -/
theorem State.Agree.engineMove (hst : s.Agree t) (hi : t.Inv) {s' : State}
    (hs : s.engineMove = .next s') : ∃ t', t.engineMove = .next t' ∧ s'.Agree t' := by
  have henabled : s.htb.enabled = t.htb.enabled := hst.htb.enabled hi
  obtain ⟨hnone, rfl⟩ | ⟨e, g', he, hg, rfl⟩ := State.engineMove_cases s s' hs
  · rw [henabled] at hnone
    exact ⟨t, by simp only [State.engineMove, hnone], hst⟩
  · rw [henabled] at he
    obtain ⟨h', hh, hagree⟩ := hst.htb.engine hi he hg
    exact ⟨{ t with htb := h' }, by simp only [State.engineMove, he, hh],
      hst.config, hagree, hst.agenda, hst.reply⟩

end Sys2Proof.Machine

namespace Sys2Proof.Proofs

open Sys2Proof.Machine

/-- Settles O33: ClearRun zeroes what a rule could still read, and in HIST and ERROR neither nodes,
codes nor the root are read. -/
theorem startForgetsTheOldRun : Obligations.StartForgetsTheOldRun :=
  fun _ _ hdim hprog hen hslot hnode => Htb.agree_start hdim hprog hen hslot hnode

/-- Settles O60: each kind of step takes machines that agree to machines that agree; the second
machine's invariant says that what a rule reads lies among what is compared. -/
theorem unspecifiedContentsAreNeverObserved : Obligations.UnspecifiedContentsAreNeverObserved := by
  intro s t s' _ hi hst hstep
  have without (rest : List Event) :
      State.Agree { s with agenda := rest } { t with agenda := rest } :=
    ⟨hst.config, hst.htb, rfl, hst.reply⟩
  have hagenda := hst.agenda
  obtain ⟨w, rest, hs, hexec⟩ | ⟨rest, hs, hmove⟩ | ⟨rest, hs, rfl⟩ := step_cases hstep
  · obtain ⟨s₁, t₁, hs₁, ht₁, hagree⟩ := (without rest).exec hi (decode w)
    cases hexec.symm.trans hs₁
    exact ⟨t₁, (step_of_host (hagenda ▸ hs)).trans ht₁, hagree⟩
  · obtain ⟨t', ht', hagree⟩ := (without rest).engineMove hi hmove
    exact ⟨t', (step_of_engineNext (hagenda ▸ hs)).trans ht', hagree⟩
  · exact ⟨_, step_of_reset (hagenda ▸ hs), hst.config, Htb.agree_reset _ _, rfl, rfl⟩

end Sys2Proof.Proofs
end

section
/-! The register window in the host's own address space (20_memory.md R70, R77). -/

namespace Sys2Proof

/-- Every window offset lies in the window, and its distance from HTB_BASE is the offset itself. -/
@[simp] theorem windowOffset?_hostAddress (off : Offset) :
    windowOffset? (hostAddress off) = some off := by
  have hin : Config.htbBase ≤ hostAddress off ∧ hostAddress off < Config.htbBase + 0x1000 :=
    ⟨Nat.le_add_right _ _, Nat.add_lt_add_left off.isLt _⟩
  rw [windowOffset?, if_pos hin, hostAddress, Nat.add_sub_cancel_left, BitVec.ofNat_toNat,
    BitVec.setWidth_eq]

/-- Only the offset's own host address is mapped to it: the distance of an address of the window
from HTB_BASE fits the 12 bits, so none is lost. -/
theorem windowOffset?_eq_some_iff (addr : Nat) (off : Offset) :
    windowOffset? addr = some off ↔ addr = hostAddress off := by
  constructor
  · intro h
    obtain ⟨⟨hlo, hhi⟩, rfl⟩ := Option.ite_none_right_eq_some.mp h |>.imp_right Option.some.inj
    have hfits : addr - Config.htbBase < 2 ^ 12 := by omega
    rw [hostAddress, BitVec.toNat_ofNat, Nat.mod_eq_of_lt hfits, Nat.add_sub_cancel' hlo]
  · rintro rfl
    exact windowOffset?_hostAddress off

end Sys2Proof

namespace Sys2Proof.Proofs

/-- Settles O7: an address is mapped to an offset exactly when it is that offset's host address. -/
theorem windowIsTheBytesFromTheBase : Obligations.WindowIsTheBytesFromTheBase :=
  ⟨windowOffset?_hostAddress, fun addr off => (windowOffset?_eq_some_iff addr off).mp⟩

end Sys2Proof.Proofs
end

section
/-! What each word decodes to, and back (30_encoding.md R90, R91, R93): an offset is reserved or a
register's, and a CMD write has three rows. O2, O3 and O1. -/

namespace Sys2Proof

open Laws

/-! ### The cases of a word -/

/-- An offset is reserved, or it is that of a register (R49). -/
theorem at?_cases (off : Offset) : Reg.at? off = none ∨ ∃ r : Reg, off = r.offset := by
  cases hr : Reg.at? off with
  | none => exact .inl rfl
  | some r => exact .inr ⟨r, (offset_of_at? hr).symm⟩

/-- A word is a write or a read (R90). -/
theorem htw_cases (w : Htw) :
    (∃ off data, w = htw true off data) ∨ ∃ off data, w = htw false off data := by
  cases hwr : htwWr w
  · exact .inr ⟨htwOff w, htwData w, by rw [← hwr, htw_fields]⟩
  · exact .inl ⟨htwOff w, htwData w, by rw [← hwr, htw_fields]⟩

/-- The words R90 admits: a read carries no DATA. -/
theorem htw_cases_of_admitted {w : Htw} (hw : htwWr w = true ∨ htwData w = 0) :
    (∃ off data, w = htw true off data) ∨ ∃ off, w = htw false off 0 := by
  obtain hwrite | ⟨off, data, rfl⟩ := htw_cases w
  · exact .inl hwrite
  · have hdata : data = 0 := by simpa [htwWr_htw, htwData_htw] using hw
    exact .inr ⟨off, by rw [hdata]⟩

/-- The three rows of a CMD write (R93). -/
theorem decodeCmd_cases (data : Word) :
    (data = 1 ∧ decodeCmd data = .cmdStart) ∨ (data = 2 ∧ decodeCmd data = .cmdAbort) ∨
    (data ≠ 1 ∧ data ≠ 2 ∧ decodeCmd data = .rsvdCmd data) := by
  by_cases h1 : data = 1
  · exact .inl ⟨h1, by rw [decodeCmd, if_pos h1]⟩
  · by_cases h2 : data = 2
    · exact .inr (.inl ⟨h2, by rw [decodeCmd, if_neg h1, if_pos h2]⟩)
    · exact .inr (.inr ⟨h1, h2, by rw [decodeCmd, if_neg h1, if_neg h2]⟩)

/-! ### The rows without a register -/

theorem not_writable_of_reserved {off : Offset} (hnone : Reg.at? off = none) :
    writableOffset off = false := by
  rw [writableOffset, hnone]

theorem not_readable_of_reserved {off : Offset} (hnone : Reg.at? off = none) :
    readableOffset off = false := by
  rw [readableOffset, hnone]

/-- A write is ignored wherever tests 1 and 2 of R91 do not match. -/
theorem decodeWrite_of_not_writable {off : Offset} (data : Word) (ho : writableOffset off = false) :
    decodeWrite off data = .wrIgnored off data := by
  obtain hnone | ⟨r, rfl⟩ := at?_cases off
  · rw [decodeWrite, hnone]
  · cases r
    case cmd | dim | pixel | progInterval | evPending | evEnable | slotSel | nodeSel => cases ho
    all_goals rfl

/-- A read gives zero wherever test 4 of R91 does not match. -/
theorem decodeRead_of_not_readable {off : Offset} (ho : readableOffset off = false) :
    decodeRead off = .rdZero off := by
  obtain hnone | ⟨r, rfl⟩ := at?_cases off
  · rw [decodeRead, hnone]
  · cases r
    case cmd | pixel => rfl
    all_goals cases ho

theorem wf_wrIgnored_iff {off : Offset} {data : Word} :
    (Instr.wrIgnored off data).wf = true ↔ writableOffset off = false :=
  Bool.not_eq_true' _ ▸ Iff.rfl

theorem wf_rdZero_iff {off : Offset} : (Instr.rdZero off).wf = true ↔ readableOffset off = false :=
  Bool.not_eq_true' _ ▸ Iff.rfl

theorem wf_rsvdCmd_iff {data : Word} : (Instr.rsvdCmd data).wf = true ↔ data ≠ 1 ∧ data ≠ 2 := by
  simp [Instr.wf]

/-! ### Decoding an encoding -/

/-- Every well-formed operation is what its word decodes to. -/
theorem decode_encode {i : Instr} (hi : i.wf = true) : decode (encode i) = i := by
  cases i
  case rsvdCmd data =>
    obtain ⟨h1, h2⟩ := wf_rsvdCmd_iff.mp hi
    calc decode (encode (.rsvdCmd data))
        = decodeCmd data := decode_write _ _
      _ = .rsvdCmd data := by rw [decodeCmd, if_neg h1, if_neg h2]
  case wrIgnored off data =>
    exact (decode_write _ _).trans (decodeWrite_of_not_writable data (wf_wrIgnored_iff.mp hi))
  case rdZero off =>
    exact (decode_read _ _).trans (decodeRead_of_not_readable (wf_rdZero_iff.mp hi))
  case cmdStart | cmdAbort | wrDim | wrPixel | wrProgInterval | wrEvPending | wrEvEnable |
      wrSlotSel | wrNodeSel =>
    exact decode_write _ _
  all_goals exact decode_read _ _

/-! ### Encoding what a word decodes to -/

theorem decodeCmd_canonical (data : Word) :
    (decodeCmd data).wf = true ∧ encode (decodeCmd data) = htw true Reg.cmd.offset data := by
  obtain ⟨rfl, hcmd⟩ | ⟨rfl, hcmd⟩ | ⟨h1, h2, hcmd⟩ := decodeCmd_cases data <;> rw [hcmd]
  · exact ⟨rfl, rfl⟩
  · exact ⟨rfl, rfl⟩
  · exact ⟨wf_rsvdCmd_iff.mpr ⟨h1, h2⟩, rfl⟩

theorem decodeWrite_canonical (off : Offset) (data : Word) :
    (decodeWrite off data).wf = true ∧ encode (decodeWrite off data) = htw true off data := by
  obtain hnone | ⟨r, rfl⟩ := at?_cases off
  · have ho := not_writable_of_reserved hnone
    rw [decodeWrite_of_not_writable data ho]
    exact ⟨wf_wrIgnored_iff.mpr ho, rfl⟩
  · cases r
    case cmd => exact decodeCmd_canonical data
    all_goals exact ⟨rfl, rfl⟩

theorem decodeRead_canonical (off : Offset) :
    (decodeRead off).wf = true ∧ encode (decodeRead off) = htw false off 0 := by
  obtain hnone | ⟨r, rfl⟩ := at?_cases off
  · have ho := not_readable_of_reserved hnone
    rw [decodeRead_of_not_readable ho]
    exact ⟨wf_rdZero_iff.mpr ho, rfl⟩
  · cases r <;> exact ⟨rfl, rfl⟩

theorem wf_decode (w : Htw) : (decode w).wf = true := by
  obtain ⟨off, data, rfl⟩ | ⟨off, data, rfl⟩ := htw_cases w
  · rw [decode_write]; exact (decodeWrite_canonical off data).1
  · rw [decode_read]; exact (decodeRead_canonical off).1

/-- A write, or a read with DATA 0, is the encoding of the operation it decodes to (R90). -/
theorem encode_decode {w : Htw} (hw : htwWr w = true ∨ htwData w = 0) : encode (decode w) = w := by
  obtain ⟨off, data, rfl⟩ | ⟨off, rfl⟩ := htw_cases_of_admitted hw
  · rw [decode_write]; exact (decodeWrite_canonical off data).2
  · rw [decode_read]; exact (decodeRead_canonical off).2

end Sys2Proof

namespace Sys2Proof.Proofs

/-- Settles O2: operation by operation, the register map finds the register again; the rows that
share an offset or have none are told apart by well-formedness. -/
theorem decodeInvertsEncode : Obligations.DecodeInvertsEncode := fun _ => decode_encode

/-- Settles O3: every offset, with or without a register, decodes to an operation whose encoding has
that offset and that DATA. -/
theorem encodeInvertsDecode : Obligations.EncodeInvertsDecode :=
  fun w => ⟨wf_decode w, encode_decode⟩

/-- Settles O1: the sixteen words are closed, so the decoder is run on each. -/
theorem specWordsDecodeToTheirOperations : Obligations.SpecWordsDecodeToTheirOperations := by
  unfold Obligations.SpecWordsDecodeToTheirOperations
  decide

end Sys2Proof.Proofs
end

section
/-! The rows of opcode_table.json against the decoder (30_encoding.md R91), and O4. A row's test
under its mask is a test of WR and of OFF and DATA as wholes, so the first row a word hits is found
from its fields. -/

namespace Sys2Proof

open Laws

/-! ### A row's test, field by field -/

theorem htw_ext_iff {v w : Htw} :
    v = w ↔ htwWr v = htwWr w ∧ htwOff v = htwOff w ∧ htwData v = htwData w := by
  constructor
  · rintro rfl; exact ⟨rfl, rfl, rfl⟩
  · rintro ⟨hwr, hoff, hdata⟩
    rw [← htw_fields v, ← htw_fields w, hwr, hoff, hdata]

theorem htwWr_and (v w : Htw) : htwWr (v &&& w) = (htwWr v && htwWr w) := BitVec.getLsbD_and

theorem htwOff_and (v w : Htw) : htwOff (v &&& w) = htwOff v &&& htwOff w := BitVec.extractLsb'_and

theorem htwData_and (v w : Htw) : htwData (v &&& w) = htwData v &&& htwData w :=
  BitVec.extractLsb'_and

/-- A mask tests a field as a whole, or not at all. -/
def WholeField {n : Nat} (mask pattern : BitVec n) : Prop :=
  mask = 0 ∧ pattern = 0 ∨ mask ≠ 0 ∧ mask = BitVec.allOnes n

theorem WholeField.and_eq_iff {n : Nat} {mask pattern : BitVec n} (hf : WholeField mask pattern)
    (x : BitVec n) : x &&& mask = pattern ↔ mask = 0 ∨ x = pattern := by
  obtain ⟨rfl, rfl⟩ | ⟨hmask, rfl⟩ := hf
  · simp
  · rw [BitVec.and_allOnes, or_iff_right hmask]

/-- Every row of the table tests WR, and OFF and DATA each as a whole or not at all. -/
theorem opcodeRows_wholeFields : ∀ r ∈ opcodeRows, htwWr r.mask = true ∧
    WholeField (htwOff r.mask) (htwOff r.pattern) ∧
    WholeField (htwData r.mask) (htwData r.pattern) := by
  unfold WholeField
  decide

/-- The test of a row of the table on the fields of a word. -/
def OpRow.hitsFields (wr : Bool) (off : Offset) (data : Word) (r : OpRow) : Bool :=
  wr == htwWr r.pattern && (htwOff r.mask == 0 || off == htwOff r.pattern) &&
    (htwData r.mask == 0 || data == htwData r.pattern)

theorem OpRow.hits_htw {r : OpRow} (hr : r ∈ opcodeRows) (wr : Bool) (off : Offset) (data : Word) :
    r.hits (htw wr off data) = r.hitsFields wr off data := by
  obtain ⟨hwr, hoff, hdata⟩ := opcodeRows_wholeFields r hr
  rw [Bool.eq_iff_iff, OpRow.hits, beq_iff_eq, htw_ext_iff, htwWr_and, htwOff_and, htwData_and,
    htwWr_htw, htwOff_htw, htwData_htw, hoff.and_eq_iff, hdata.and_eq_iff]
  simp [OpRow.hitsFields, hwr, and_assoc]

theorem rowOf?_htw (wr : Bool) (off : Offset) (data : Word) :
    rowOf? (htw wr off data) = opcodeRows.find? (OpRow.hitsFields wr off data) :=
  List.find?_congr fun _ hr => OpRow.hits_htw hr wr off data

/-! ### The first row a word hits -/

/-- A row leaves both OFF and DATA open, or it names the offset of a register. -/
theorem opcodeRows_open_or_named : ∀ r ∈ opcodeRows,
    (htwOff r.mask = 0 ∧ htwData r.mask = 0) ∨
    (htwOff r.mask ≠ 0 ∧ Reg.at? (htwOff r.pattern) ≠ none) := by
  decide

/-- A reserved offset hits no row but the two that leave OFF open. -/
theorem OpRow.hitsFields_reserved {r : OpRow} (hr : r ∈ opcodeRows) {off : Offset}
    (hnone : Reg.at? off = none) (wr : Bool) (data : Word) :
    r.hitsFields wr off data = (wr == htwWr r.pattern && htwOff r.mask == 0) := by
  obtain ⟨hoff, hdata⟩ | ⟨hmask, hnamed⟩ := opcodeRows_open_or_named r hr
  · simp [OpRow.hitsFields, hoff, hdata]
  · have hne : off ≠ htwOff r.pattern := fun heq => hnamed (heq ▸ hnone)
    rw [OpRow.hitsFields, beq_false_of_ne hmask, beq_false_of_ne hne]
    simp

theorem rowOf?_reserved {off : Offset} (hnone : Reg.at? off = none) (wr : Bool) (data : Word) :
    (rowOf? (htw wr off data)).map OpRow.mnemonic =
      some (if wr then "WR_IGNORED" else "RD_ZERO") := by
  rw [rowOf?_htw, List.find?_congr fun _ hr => OpRow.hitsFields_reserved hr hnone wr data]
  cases wr <;> rfl

/-- A CMD write of no command word passes the rows of START and ABORT and hits RSVD_CMD. -/
theorem rowOf?_cmd (data : Word) :
    (rowOf? (htw true Reg.cmd.offset data)).map OpRow.mnemonic =
      some (mnemonic (decodeCmd data)) := by
  rw [rowOf?_htw]
  obtain ⟨rfl, hcmd⟩ | ⟨rfl, hcmd⟩ | ⟨h1, h2, hcmd⟩ := decodeCmd_cases data <;> rw [hcmd]
  · rfl
  · rfl
  · have hstart : ¬ OpRow.hitsFields true Reg.cmd.offset data
        ⟨"CMD_START", 0x100800000001, 0x1FFFFFFFFFFF, 1⟩ = true :=
      fun hhit => h1 (beq_iff_eq.mp hhit)
    have habort : ¬ OpRow.hitsFields true Reg.cmd.offset data
        ⟨"CMD_ABORT", 0x100800000002, 0x1FFFFFFFFFFF, 1⟩ = true :=
      fun hhit => h2 (beq_iff_eq.mp hhit)
    rw [show opcodeRows = _ :: _ :: opcodeRows.drop 2 from rfl, List.find?_cons_of_neg hstart,
      List.find?_cons_of_neg habort]
    rfl

theorem rowOf?_write (off : Offset) (data : Word) :
    (rowOf? (htw true off data)).map OpRow.mnemonic = some (mnemonic (decodeWrite off data)) := by
  obtain hnone | ⟨r, rfl⟩ := at?_cases off
  · rw [rowOf?_reserved hnone, decodeWrite_of_not_writable data (not_writable_of_reserved hnone)]
    rfl
  · cases r
    case cmd => exact rowOf?_cmd data
    all_goals exact congrArg (Option.map OpRow.mnemonic) (rowOf?_htw _ _ data)

theorem rowOf?_read (off : Offset) (data : Word) :
    (rowOf? (htw false off data)).map OpRow.mnemonic = some (mnemonic (decodeRead off)) := by
  obtain hnone | ⟨r, rfl⟩ := at?_cases off
  · rw [rowOf?_reserved hnone, decodeRead_of_not_readable (not_readable_of_reserved hnone)]
    rfl
  · rw [rowOf?_htw]
    cases r <;> rfl

/-- The first row a word hits has the mnemonic of the operation the word decodes to (R91). -/
theorem rowOf?_decode (w : Htw) :
    (rowOf? w).map OpRow.mnemonic = some (mnemonic (decode w)) := by
  obtain ⟨off, data, rfl⟩ | ⟨off, data, rfl⟩ := htw_cases w
  · rw [rowOf?_write, decode_write]
  · rw [rowOf?_read, decode_read]

end Sys2Proof

namespace Sys2Proof.Proofs

/-- Settles O4: the priorities of the 41 rows are compared, and the first row a word hits is found
from its fields. -/
theorem firstMatchingRowDecides : Obligations.FirstMatchingRowDecides :=
  ⟨by decide, fun w => Option.map_eq_some_iff.mp (rowOf?_decode w)⟩

end Sys2Proof.Proofs
end

section
/-! The assembler (30_encoding.md R101 to R103): a target keeps its offset, a line decodes to its
own operation, and the operand words of the pseudo-operations are their fields put side by side. O5
and O6. -/

namespace Sys2Proof

open Laws

/-! ### Lines -/

@[simp] theorem targetAt_offset (r : Reg) : targetAt r.offset = .named r := by
  rw [targetAt, at?_offset]

@[simp] theorem targetOffset_targetAt (off : Offset) : targetOffset (targetAt off) = off := by
  obtain hnone | ⟨r, rfl⟩ := at?_cases off
  · rw [targetAt, hnone, targetOffset]
  · rw [targetAt_offset, targetOffset]

theorem disassemble_write (off : Offset) (data : Word) :
    disassemble (htw true off data) = .wr (targetAt off) data := by
  rw [disassemble, htwWr_htw, htwOff_htw, htwData_htw, if_pos rfl]

theorem disassemble_read (off : Offset) (data : Word) :
    disassemble (htw false off data) = .rd (targetAt off) := by
  rw [disassemble, htwWr_htw, htwOff_htw, if_neg Bool.false_ne_true]

/-- A write, or a read with DATA 0, is the word its disassembled line stands for (R103). -/
theorem assemble_disassemble {w : Htw} (hw : htwWr w = true ∨ htwData w = 0) :
    assemble (disassemble w) = w := by
  obtain ⟨off, data, rfl⟩ | ⟨off, rfl⟩ := htw_cases_of_admitted hw
  · rw [disassemble_write, assemble, targetOffset_targetAt]
  · rw [disassemble_read, assemble, targetOffset_targetAt]

/-- The operation a line stands for. -/
def AsmLine.operation : AsmLine → Instr
  | .wr t imm => decodeWrite (targetOffset t) imm
  | .rd t => decodeRead (targetOffset t)

theorem decode_assemble (l : AsmLine) : decode (assemble l) = l.operation := by
  cases l with
  | wr t imm => exact decode_write _ _
  | rd t => exact decode_read _ _

theorem map_decode_assembleAll (ps : List Pseudo) :
    (assembleAll ps).map decode = (ps.flatMap expand).map AsmLine.operation := by
  rw [assembleAll, List.map_map]
  exact List.map_congr_left fun l _ => decode_assemble l

/-! ### Operand words -/

/-- Putting one word above another is a multiplication and an addition. -/
theorem toNat_append_eq_add {m n : Nat} (x : BitVec m) (y : BitVec n) :
    (x ++ y).toNat = x.toNat * 2 ^ n + y.toNat := by
  rw [BitVec.toNat_append, ← Nat.shiftLeft_add_eq_or_of_lt y.isLt, Nat.shiftLeft_eq]

theorem toNat_pixelWord (r g b a : Byte) : (a ++ b ++ g ++ r).toNat =
    a.toNat * 2 ^ 24 + b.toNat * 2 ^ 16 + g.toNat * 2 ^ 8 + r.toNat := by
  simp only [toNat_append_eq_add]
  omega

theorem waitAgain_eq_getLsbD (status : Word) : waitAgain status = status.getLsbD 3 := by
  rw [waitAgain, show (0x8 : Word) = BitVec.twoPow 32 3 from rfl, BitVec.and_twoPow]
  cases status.getLsbD 3 <;> rfl

end Sys2Proof

namespace Sys2Proof.Machine

/-- The lanes of the word that `push` writes are the bytes it was given (R94). -/
theorem pixel_lanes (r g b a : Byte) :
    pixelR (a ++ b ++ g ++ r) = r ∧ pixelG (a ++ b ++ g ++ r) = g ∧
    pixelB (a ++ b ++ g ++ r) = b ∧ pixelA (a ++ b ++ g ++ r) = a := by
  simp only [← BitVec.toNat_inj, pixelR, pixelG, pixelB, pixelA, BitVec.extractLsb'_toNat,
    toNat_pixelWord, Nat.shiftRight_eq_div_pow]
  omega

/-- BUSY is bit 3 of STATUS (R24). -/
theorem Htb.getLsbD_statusWord_busy (h : Htb) : h.statusWord.getLsbD 3 = h.busy := by
  simp only [Htb.statusWord, zext32, BitVec.getLsbD_setWidth, BitVec.getLsbD_append]
  simp

end Sys2Proof.Machine

namespace Sys2Proof.Proofs

open Sys2Proof.Machine

/-- Settles O5: a target keeps its offset, and a register's offset gives its name. -/
theorem disassembledLinesAssembleBack : Obligations.DisassembledLinesAssembleBack := by
  refine ⟨fun _ => assemble_disassemble, fun r d => ⟨?write, ?read⟩⟩
  case write => rw [disassemble_write, targetAt_offset]
  case read => rw [disassemble_read, targetAt_offset]

/-- Settles O6: each pseudo-operation decodes line by line, and its operand words are its fields put
side by side. -/
theorem pseudoOperationsExpand : Obligations.PseudoOperationsExpand := by
  have hlines := map_decode_assembleAll
  refine ⟨hlines _, hlines _, fun w h => ?dim, fun r g b a => ?push, fun _ _ _ => rfl,
    fun _ => ⟨hlines _, hlines _, hlines _, hlines _⟩, hlines _, hlines _, hlines _, ?rd64,
    hlines _, ?wait⟩
  case dim =>
    exact ⟨h ++ w, toNat_append_eq_add h w, BitVec.extractLsb'_append_eq_right,
      BitVec.extractLsb'_append_eq_left, hlines _⟩
  case push =>
    obtain ⟨hr, hg, hb, ha⟩ := pixel_lanes r g b a
    exact ⟨a ++ b ++ g ++ r, toNat_pixelWord r g b a, hr, hg, hb, ha, hlines _⟩
  case rd64 => exact fun lo hi => toNat_append_eq_add hi lo
  case wait => exact fun h => (waitAgain_eq_getLsbD _).trans h.getLsbD_statusWord_busy

end Sys2Proof.Proofs
end

section
/-! A read answers and a write commits, whatever the offset and DATA (20_memory.md R76,
30_encoding.md R98), and O15. -/

namespace Sys2Proof.Machine

theorem exec_decodeRead (off : Offset) (s : State) :
    ∃ v, exec (decodeRead off) s = s.answer v := by
  obtain hnone | ⟨r, rfl⟩ := at?_cases off
  · rw [decodeRead_of_not_readable (not_readable_of_reserved hnone)]
    exact ⟨0, rfl⟩
  · cases r <;> exact ⟨_, rfl⟩

theorem exec_decodeCmd (data : Word) (s : State) : ∃ g, exec (decodeCmd data) s = s.commit g := by
  obtain ⟨-, hcmd⟩ | ⟨-, hcmd⟩ | ⟨-, -, hcmd⟩ := decodeCmd_cases data <;> rw [hcmd] <;>
    exact ⟨_, rfl⟩

theorem exec_decodeWrite (off : Offset) (data : Word) (s : State) :
    ∃ g, exec (decodeWrite off data) s = s.commit g := by
  obtain hnone | ⟨r, rfl⟩ := at?_cases off
  · rw [decodeWrite_of_not_writable data (not_writable_of_reserved hnone)]
    exact ⟨s.htb, rfl⟩
  · cases r
    case cmd => exact exec_decodeCmd data s
    all_goals exact ⟨_, rfl⟩

end Sys2Proof.Machine

namespace Sys2Proof.Proofs

open Sys2Proof.Machine Sys2Proof.Laws

/-- Settles O15: a read only answers, and a write commits a block without an answer. -/
theorem hostOperationsAlwaysComplete : Obligations.HostOperationsAlwaysComplete := by
  intro w s
  obtain ⟨off, data, rfl⟩ | ⟨off, data, rfl⟩ := htw_cases w
  · obtain ⟨g, hg⟩ := exec_decodeWrite off data s
    rw [decode_write, htwWr_htw]
    exact ⟨_, hg, rfl, rfl, fun hwr => Bool.noConfusion hwr, fun _ => rfl⟩
  · obtain ⟨v, hv⟩ := exec_decodeRead off s
    rw [decode_read, htwWr_htw]
    exact ⟨_, hv, rfl, rfl, fun _ => ⟨v, rfl⟩, fun hwr => Bool.noConfusion hwr⟩

end Sys2Proof.Proofs
end

section
/-! What a PIXEL write does to the block (40_histogram.md): the key of a pixel word (R111), the two
cases in which CountPixel counts (R112), the end of the histogram (R113), and O34 to O37 and O40. -/

namespace Sys2Proof.Machine

variable {c : Config} {h g : Htb} {y : Key} {data : Word}

/-! ### The key (R111) -/

theorem toNat_key (d : Word) : (key d).toNat =
    (pixelR d).toNat * 2 ^ 16 + (pixelG d).toNat * 2 ^ 8 + (pixelB d).toNat := by
  simp only [key, toNat_append_eq_add]
  omega

/-- Bits 23:0 of a pixel word are its three colour lanes, B above G above R (R94). -/
theorem colour_bits (d : Word) :
    d.extractLsb' 0 24 = pixelB d ++ pixelG d ++ pixelR d := by
  simp only [← BitVec.toNat_inj, toNat_append_eq_add, pixelR, pixelG, pixelB,
    BitVec.extractLsb'_toNat, Nat.shiftRight_eq_div_pow]
  omega

/-- Three bytes side by side are equal exactly when each of them is. -/
theorem append_bytes_inj (a b e a' b' e' : Byte) :
    a ++ b ++ e = a' ++ b' ++ e' ↔ a = a' ∧ b = b' ∧ e = e' := by
  simp only [← BitVec.toNat_inj, toNat_append_eq_add]
  omega

/-- Alpha takes no part: the symbol says exactly what bits 23:0 say (R111, R115). -/
theorem key_eq_iff (d e : Word) : key d = key e ↔ d.extractLsb' 0 24 = e.extractLsb' 0 24 := by
  rw [colour_bits, colour_bits, key, key, append_bytes_inj, append_bytes_inj]
  tauto

/-! ### Counting a pixel (R112) -/

/-- The keys of the slots below n are distinct (R114). -/
theorem Htb.HistInv.slot_unique (hh : h.HistInv c) {i j : Nat} (hi : i < h.n) (hj : j < h.n)
    (hkey : (h.poolAt i).key = (h.poolAt j).key) : i = j := by
  obtain hlt | heq | hgt := lt_trichotomy i j
  · exact absurd hkey (hh.keysDistinct j hj i hlt)
  · exact heq
  · exact absurd hkey.symm (hh.keysDistinct i hi j hgt)

theorem Htb.HistInv.countPixel_known (hh : h.HistInv c) {s : Nat} (hs : s < h.n)
    (hkey : (h.poolAt s).key = y) : h.countPixel c y = h.countKnown s := by
  obtain ⟨i, hi, hikey, heq⟩ | ⟨hnone, -⟩ := h.countPixel_cases c y
  · rw [heq, hh.slot_unique hi hs (hikey.trans hkey.symm)]
  · exact absurd hkey (hnone s hs)

theorem Htb.countPixel_new (hy : ∀ s, s < h.n → (h.poolAt s).key ≠ y) (hn : h.n < c.poolCap) :
    h.countPixel c y = h.countNew y := by
  obtain ⟨i, hi, hikey, -⟩ | ⟨-, ⟨-, heq⟩ | ⟨hfull, -⟩⟩ := h.countPixel_cases c y
  · exact absurd hikey (hy i hi)
  · exact heq
  · exact absurd hn hfull

theorem Htb.poolAt_countKnown_same {s : Nat} (hkey : (h.poolAt s).key = y) :
    (h.countKnown s).poolAt s = ⟨y, (h.poolAt s).freq + 1⟩ := by
  rw [Htb.poolAt_countKnown, if_pos rfl, ← hkey]

theorem Htb.poolAt_countKnown_other {s i : Nat} (hi : i ≠ s) :
    (h.countKnown s).poolAt i = h.poolAt i := by
  rw [Htb.poolAt_countKnown, if_neg hi]

theorem Htb.poolAt_countNew_same : (h.countNew y).poolAt h.n = ⟨y, 1⟩ := by
  rw [Htb.poolAt_countNew, if_pos rfl]

theorem Htb.poolAt_countNew_other {i : Nat} (hi : i ≠ h.n) :
    (h.countNew y).poolAt i = h.poolAt i := by
  rw [Htb.poolAt_countNew, if_neg hi]

/-- `g` is `h` with one pixel of symbol `y` counted, at the slot of `y` or at slot n (R112). -/
structure Htb.CountsPixel (h : Htb) (y : Key) (g : Htb) : Prop where
  pixCount : g.pixCount.toNat = h.pixCount.toNat + 1
  others : ∀ i, i < h.n → (h.poolAt i).key ≠ y → g.poolAt i = h.poolAt i
  known : ∀ i, i < h.n → (h.poolAt i).key = y →
    g.poolAt i = ⟨y, (h.poolAt i).freq + 1⟩ ∧ g.n = h.n ∧ g.poolAt h.n = h.poolAt h.n
  new : (∀ i, i < h.n → (h.poolAt i).key ≠ y) → g.poolAt h.n = ⟨y, 1⟩ ∧ g.n = h.n + 1
  above : ∀ i, h.n < i → g.poolAt i = h.poolAt i
  frame : g = { h with pool := g.pool, symCount := g.symCount, pixCount := g.pixCount }

theorem Htb.HistInv.countKnown_countsPixel (hh : h.HistInv c)
    (hpix : h.pixCount.toNat < 65535 * 65535) {s : Nat} (hs : s < h.n)
    (hkey : (h.poolAt s).key = y) : h.CountsPixel y (h.countKnown s) where
  pixCount := toNat_pixCount_add_one hpix
  others i _ hne := Htb.poolAt_countKnown_other fun his => hne (his ▸ hkey)
  known i hi hikey := by
    obtain rfl := hh.slot_unique hi hs (hikey.trans hkey.symm)
    exact ⟨Htb.poolAt_countKnown_same hkey, rfl, Htb.poolAt_countKnown_other hi.ne'⟩
  new hnone := absurd hkey (hnone s hs)
  above _ hi := Htb.poolAt_countKnown_other (hs.trans hi).ne'
  frame := rfl

theorem Htb.HistInv.countNew_countsPixel (hh : h.HistInv c)
    (hpix : h.pixCount.toNat < 65535 * 65535) (hy : ∀ s, s < h.n → (h.poolAt s).key ≠ y) :
    h.CountsPixel y (h.countNew y) where
  pixCount := toNat_pixCount_add_one hpix
  others _ hi _ := Htb.poolAt_countNew_other hi.ne
  known i hi hkey := absurd hkey (hy i hi)
  new _ := ⟨Htb.poolAt_countNew_same, hh.toNat_symCount_add_one⟩
  above _ hi := Htb.poolAt_countNew_other hi.ne'
  frame := rfl

/-- A symbol that is known, or new with room in the pool, is counted (R112). -/
theorem Htb.HistInv.countPixel_countsPixel (hh : h.HistInv c)
    (hpix : h.pixCount.toNat < 65535 * 65535)
    (hroom : (∃ i, i < h.n ∧ (h.poolAt i).key = y) ∨ h.n < c.poolCap) :
    h.CountsPixel y (h.countPixel c y) := by
  obtain ⟨s, hs, hkey, heq⟩ | ⟨hy, ⟨-, heq⟩ | ⟨hfull, -⟩⟩ := h.countPixel_cases c y
  · rw [heq]; exact hh.countKnown_countsPixel hpix hs hkey
  · rw [heq]; exact hh.countNew_countsPixel hpix hy
  · obtain ⟨i, hi, hkey⟩ | hn := hroom
    · exact absurd hkey (hy i hi)
    · exact absurd hn hfull

/-! ### The PIXEL write (R110, R113) -/

/-- Outside HIST the pixel is dropped (R110). -/
theorem Htb.pixel_of_not_hist (hp : h.phase ≠ .hist) : h.pixel c data = h.signal .accErr :=
  if_neg hp

/-- A pixel that is not the last of the raster is counted and no more (R110). -/
theorem Htb.pixel_of_more (hp : h.phase = .hist) (hg : h.countPixel c (key data) = g)
    (hmore : g.pixCount.toNat ≠ rasterSize g.dim) : h.pixel c data = g := by
  rw [Htb.pixel, if_pos hp, hg, Htb.endHistIfLast, if_neg fun hlast => hmore hlast.2]

/-- The last pixel of the raster ends the histogram too (R110, R113). -/
theorem Htb.pixel_of_last (hp : h.phase = .hist) (hg : h.countPixel c (key data) = g)
    (hgp : g.phase = .hist) (hlast : g.pixCount.toNat = rasterSize g.dim) :
    h.pixel c data = g.endHist := by
  rw [Htb.pixel, if_pos hp, hg, Htb.endHistIfLast, if_pos ⟨hgp, hlast⟩]

theorem Htb.endHist_evPending_eq (h : Htb) : h.endHist.evPending = h.evPending ||| 0x003 := by
  rw [Htb.endHist_evPending, BitVec.or_assoc]
  rfl

/-- A PIXEL write gives the block its new state and no answer. -/
theorem exec_wrPixel (data : Word) (s : State) (hg : s.htb.pixel s.config data = g) :
    exec (.wrPixel data) s = .next { s with htb := g, reply := none } :=
  hg ▸ rfl

end Sys2Proof.Machine

namespace Sys2Proof.Proofs

open Sys2Proof.Machine

/-- Settles O34: outside HIST a PIXEL write only signals the access error. -/
theorem pixelsOutsideHistAreDropped : Obligations.PixelsOutsideHistAreDropped :=
  fun data s hp => exec_wrPixel data s (Htb.pixel_of_not_hist hp)

/-- Settles O35: the key and bits 23:0 hold the same three lanes, and the write uses the key
alone. -/
theorem alphaTakesNoPart : Obligations.AlphaTakesNoPart := by
  refine ⟨toNat_key, key_eq_iff, fun d e s hbits => exec_wrPixel d s ?_⟩
  rw [Htb.pixel, (key_eq_iff d e).mpr hbits]
  rfl

/-- Settles O36: the keys are distinct, so the pixel is counted at this slot, and the invariant
leaves room in its frequency and in PIX_COUNT. -/
theorem knownPixelAddsOneToItsSlot : Obligations.KnownPixelAddsOneToItsSlot := by
  intro data s slot hi hp hslot hkey hmore
  have hpix := Htb.Inv.pixCount_lt hi hp
  have hcount : (s.htb.pixCount + 1).toNat = s.htb.pixCount.toNat + 1 :=
    toNat_pixCount_add_one hpix
  have hfreq : ((s.htb.poolAt slot).freq + 1).toNat = (s.htb.poolAt slot).freq.toNat + 1 := by
    have := hi.hist.freq_le hslot
    exact toNat_add_one (by omega)
  have hpool := Htb.poolAt_countKnown_same hkey
  exact ⟨_, exec_wrPixel data s (Htb.pixel_of_more hp (hi.hist.countPixel_known hslot hkey)
      (hcount.trans_ne hmore.ne)),
    congrArg PoolEntry.key hpool, (congrArg (·.freq.toNat) hpool).trans hfreq,
    fun _ => Htb.poolAt_countKnown_other, hcount, rfl⟩

/-- Settles O37: with room in the pool the new symbol gets slot n, and the invariant leaves room in
SYM_COUNT and in PIX_COUNT. -/
theorem newPixelTakesTheNextSlot : Obligations.NewPixelTakesTheNextSlot := by
  intro data s hi hp hy hn hmore
  have hcount : (s.htb.pixCount + 1).toNat = s.htb.pixCount.toNat + 1 :=
    toNat_pixCount_add_one (Htb.Inv.pixCount_lt hi hp)
  exact ⟨_, exec_wrPixel data s (Htb.pixel_of_more hp (Htb.countPixel_new hy hn)
      (hcount.trans_ne hmore.ne)),
    Htb.poolAt_countNew_same, fun _ => Htb.poolAt_countNew_other,
    hi.hist.toNat_symCount_add_one, hcount, rfl⟩

/-- Settles O40: the pixel is counted, that makes PIX_COUNT the raster's size, and EndHist and
BuildInit follow in the same write. -/
theorem lastPixelStartsTheBuild : Obligations.LastPixelStartsTheBuild := by
  intro data s hi hp hroom hlast
  generalize hg : s.htb.countPixel s.config (key data) = g
  have hc : s.htb.CountsPixel (key data) g :=
    hg ▸ hi.hist.countPixel_countsPixel (Htb.Inv.pixCount_lt hi hp) hroom
  have hphase : g.phase = .hist := by rw [hc.frame]; exact hp
  have hdim : g.dim = s.htb.dim := by rw [hc.frame]
  have hpend : g.evPending = s.htb.evPending := by rw [hc.frame]
  have hnode (i : Nat) : g.nodeAt i = s.htb.nodeAt i := by rw [hc.frame]; rfl
  have hend : s.htb.pixel s.config data = g.endHist :=
    Htb.pixel_of_last hp hg hphase (by rw [hc.pixCount, hdim]; exact hlast)
  refine ⟨_, exec_wrPixel data s hend, rfl, hc.pixCount, ?pending, rfl, fun i hlt => ?leaves,
    fun i hle => ?nodesAbove, hc.others, hc.known, hc.new, hc.above, ?frame⟩
  case pending => exact g.endHist_evPending_eq.trans (congrArg (· ||| 0x003) hpend)
  case leaves => exact (g.nodeAt_endHist i).trans (if_pos hlt)
  case nodesAbove => exact ((g.nodeAt_endHist i).trans (if_neg hle.not_gt)).trans (hnode i)
  case frame => rw [hc.frame]; rfl

end Sys2Proof.Proofs
end

section
/-! The tree build (41_tree_build.md): which engine step BUILD enables and what the step does to the
machine (R121 to R124), the tree that is left (R125), and O41 to O44 and O53. -/

namespace Sys2Proof.Machine

variable {c : Config} {h : Htb} {s : State} {a b : Nat} {e : EngineStep}

/-! ### Selection (R121, R233) -/

/-- ≺ with the tie said as the equality of the frequency fields (R121). -/
theorem Htb.precedes_iff_freq_eq {i j : Nat} :
    h.precedes i j = true ↔ (h.nodeAt i).freq.toNat < (h.nodeAt j).freq.toNat ∨
      ((h.nodeAt i).freq = (h.nodeAt j).freq ∧ i < j) := by
  rw [h.precedes_iff, BitVec.toNat_inj]

theorem Htb.exists_least {l : List Nat} (hl : 0 < l.length) : ∃ i, h.least l = some i :=
  Option.ne_none_iff_exists'.mp fun hnone => List.ne_nil_of_length_pos hl (h.least_eq_none.mp hnone)

theorem Htb.enabled_of_build (hp : h.phase = .build) : h.enabled = h.enabledInBuild := by
  rw [Htb.enabled, hp]

theorem Htb.enabled_merge (hp : h.phase = .build) (ha : h.least h.live = some a)
    (hb : h.least (liveWithout a h.live) = some b) : h.enabled = some (.merge a b) := by
  simp only [Htb.enabled_of_build hp, Htb.enabledInBuild, ha, hb]

theorem Htb.enabled_buildEnd (hp : h.phase = .build) (hlive : h.live = [a]) :
    h.enabled = some (.buildEnd a) := by
  simp [Htb.enabled_of_build hp, Htb.enabledInBuild, hlive, Htb.least, liveWithout]

/-- The merge enabled is of two nodes selected by R121. -/
theorem Htb.selects_of_enabled (he : h.enabled = some (.merge a b)) : h.Selects a b := by
  obtain ⟨a', b', -, ha, hb, heq⟩ | ⟨r, -, -, -, heq⟩ | ⟨-, heq⟩ | ⟨-, heq⟩ := h.enabled_cases he
  · cases heq
    exact Htb.selects_of_least ha hb
  all_goals cases heq

/-! ### The engine's turn (R78, R233) -/

/-- The enabled engine step acts on the block, and its event is taken off the agenda. -/
theorem step_of_enabled (hnext : s.engineNext) (he : s.htb.enabled = some e)
    (hg : s.htb.engine e = .ok g) :
    step s = .next { s with agenda := s.agenda.tail, htb := g } := by
  have hmove : step s = State.engineMove { s with agenda := s.agenda.tail } := by
    obtain hnil | ⟨rest, hrest⟩ := hnext
    · exact step_of_engineNext (.inl (by simp [hnil]))
    · exact step_of_engineNext (.inr (by rw [hrest, List.tail_cons]))
  rw [hmove]
  simp only [State.engineMove, he, hg]

theorem step_merge (hnext : s.engineNext) (he : s.htb.enabled = some (.merge a b)) :
    step s = .next { s with agenda := s.agenda.tail, htb := s.htb.engMerge a b } :=
  step_of_enabled hnext he rfl

/-! ### ENG_MERGE (R122, R123) -/

theorem Htb.progressCheck_frame (h : Htb) :
    h.progressCheck = { h with evPending := h.progressCheck.evPending } := by
  unfold Htb.progressCheck
  split <;> rfl

/-- ENG_MERGE writes the node pool, LIVE, MERGE_COUNT and EV_PENDING (R122, R123). -/
theorem Htb.engMerge_frame (h : Htb) (a b : Nat) :
    h.engMerge a b = { h with
      node := (h.engMerge a b).node, live := (h.engMerge a b).live
      mergeCount := (h.engMerge a b).mergeCount, evPending := (h.engMerge a b).evPending } := by
  rw [Htb.engMerge_node, Htb.engMerge_live, Htb.engMerge_mergeCount]
  exact Htb.progressCheck_frame _

/-- The count that PROGRESS is asked of is the one after the increment (R123). -/
theorem Htb.engMerge_evPending (h : Htb) (a b : Nat) :
    (h.engMerge a b).evPending =
      if h.progInterval ≠ 0 ∧ (h.mergeCount + 1).toNat % h.progInterval.toNat = 0 then
        h.evPending ||| 0x004
      else h.evPending := by
  rw [Htb.engMerge, Htb.progressCheck, apply_ite Htb.evPending]
  rfl

/-! ### The last live node (R124, R125) -/

/-- With all merges made, LIVE is the last node of the run. -/
theorem Htb.ForestInv.live_eq_last (hf : h.ForestInv) (hk : h.k + 1 = h.n) :
    h.live = [2 * h.n - 2] := by
  have hcount := hf.liveCount
  obtain ⟨r, hr⟩ := List.length_eq_one_iff.mp (show h.live.length = 1 by omega)
  have hlast := hf.last_live
  rw [hr, List.mem_singleton] at hlast
  rw [hr, ← hlast]
  congr 1
  omega

/-- ENG_BUILD_END signals two events, BUILD_DONE and WALK_START, which are bits 3 and 4 (R124). -/
theorem Htb.engBuildEnd_eq (h : Htb) (r : Nat) :
    h.engBuildEnd r = { h with
      phase := .walk, rootI := BitVec.ofNat 25 r, evPending := h.evPending ||| 0x018 } := by
  have hbits : h.evPending ||| 0x018 = h.evPending ||| evMask .buildDone ||| evMask .walkStart := by
    rw [BitVec.or_assoc]
    rfl
  rw [hbits]
  rfl

/-- The highest node index of a run fits its field (R144). -/
theorem Htb.HistInv.toNat_lastNode (hh : h.HistInv c) :
    (BitVec.ofNat 25 (2 * h.n - 2)).toNat = 2 * h.n - 2 := by
  have := hh.n_le
  rw [BitVec.toNat_ofNat, Nat.mod_eq_of_lt (by omega)]

/-! ### The complete tree (R125) -/

theorem Htb.RootInv.root_eq (hr : h.RootInv) : h.rootI.toNat = 2 * h.n - 2 := by
  have := hr.root
  omega

/-- Once the tree is complete the root alone is live. -/
theorem Htb.RootInv.live_eq (hr : h.RootInv) (hf : h.ForestInv) : h.live = [h.rootI.toNat] := by
  rw [hf.live_eq_last hr.merges, hr.root_eq]

/-- A node that is not live has exactly one parent (R52, R125). -/
theorem Htb.ForestInv.parent_unique_of_not_live (hf : h.ForestInv) {j : Nat} (hj : j < h.n + h.k)
    (hlive : j ∉ h.live) : ∃ p, h.IsParent p j ∧ ∀ q, h.IsParent q j → q = p := by
  rw [hf.liveIffNoParent j hj] at hlive
  push Not at hlive
  obtain ⟨p, hlt, hp⟩ := hlive
  exact ⟨p, hp, fun q hq => hf.oneParent j hj q hq.2.1 hq p hlt hp⟩

end Sys2Proof.Machine

namespace Sys2Proof.Proofs

open Sys2Proof.Machine

/-- Settles O41: the two nodes taken are the least of LIVE and the least of LIVE without it. -/
theorem mergeTakesTheTwoLeastLiveNodes : Obligations.MergeTakesTheTwoLeastLiveNodes := by
  intro h hp hnodup hlen
  obtain ⟨a, ha⟩ := h.exists_least (l := h.live) (by omega)
  have hmemA := h.least_mem ha
  have hrest := length_liveWithout hnodup hmemA
  obtain ⟨b, hb⟩ := h.exists_least (l := liveWithout a h.live) (by omega)
  obtain ⟨hmemB, hne⟩ := mem_liveWithout.mp (h.least_mem hb)
  refine ⟨a, b, Htb.enabled_merge hp ha hb, hmemA, hmemB, hne.symm, fun i hi hia => ?first,
    fun i hi hia hib => ?second⟩
  case first => exact Htb.precedes_iff_freq_eq.mp (h.least_precedes ha i hi hia)
  case second =>
    exact Htb.precedes_iff_freq_eq.mp (h.least_precedes hb i (mem_liveWithout.mpr ⟨hi, hia⟩) hib)

/-- Settles O42: the step is `engMerge` of the two selected nodes, and the invariant leaves room for
the sum, the indices and the count. -/
theorem mergeStepJoinsTheTwoNodes : Obligations.MergeStepJoinsTheTwoNodes := by
  intro s a b hi hp hnext he
  have hs := Htb.selects_of_enabled he
  have hf : s.htb.ForestInv := hi.forest (by rw [hp]; rfl)
  have hnew := s.htb.nodeAt_engMerge_newNode a b
  refine ⟨_, step_merge hnext he, congrArg NodeEntry.kind hnew,
    (congrArg (·.freq.toNat) hnew).trans (hs.parentOf_freq hf hi.hist),
    (congrArg (·.left.toNat) hnew).trans (hs.parentOf_left hf hi.hist),
    (congrArg (·.right.toNat) hnew).trans (hs.parentOf_right hf hi.hist),
    fun i hne => (s.htb.nodeAt_engMerge a b i).trans (if_neg hne),
    fun i => Htb.mem_live_engMerge, hs.k_engMerge hf hi.hist, ?frame⟩
  case frame => rw [← s.htb.engMerge_frame a b]

/-- Settles O43: PROGRESS is asked of the incremented count, which the invariant keeps from
wrapping. -/
theorem progressEveryIntervalMerges : Obligations.ProgressEveryIntervalMerges := by
  intro s t a b hi hp hnext he hstep
  have hs := Htb.selects_of_enabled he
  have hf : s.htb.ForestInv := hi.forest (by rw [hp]; rfl)
  rw [step_merge hnext he] at hstep
  injection hstep with hstep
  have hpend := s.htb.engMerge_evPending a b
  rw [hs.toNat_mergeCount_add_one hf hi.hist] at hpend
  rw [← hstep]
  exact ⟨fun hprog => hpend.trans (if_pos hprog), fun hnone => hpend.trans (if_neg hnone)⟩

/-- Settles O44: with one node live all merges are made, and the last node of the run is the one
left. -/
theorem buildEndFindsTheRoot : Obligations.BuildEndFindsTheRoot := by
  intro s hi hp hone hnext
  have hf : s.htb.ForestInv := hi.forest (by rw [hp]; rfl)
  have hlive := hf.live_eq_last (by have := hf.liveCount; omega)
  have hroot := hi.hist.toNat_lastNode
  refine ⟨_, hroot, hlive.trans (by rw [hroot]), ?_⟩
  rw [step_of_enabled hnext (Htb.enabled_buildEnd hp hlive) rfl, Htb.engBuildEnd_eq]

/-- Settles O53: the root is the one live node, and a node has a parent exactly where it is not
live. -/
theorem theTreeHasOneRoot : Obligations.TheTreeHasOneRoot := by
  intro c h hi hp
  have hf := hi.forest (hasNodes_of_hasTree hp)
  have hr := hi.root hp
  have hmerges := hr.merges
  have hlive := hr.live_eq hf
  refine ⟨by omega, hr.root_eq, fun j hj => ?lower,
    hf.not_isParent_of_live (by simp [hlive]), ?freq⟩
  case lower =>
    refine hf.parent_unique_of_not_live (by omega) ?_
    rw [hlive, List.mem_singleton, hr.root_eq]
    exact hj.ne
  case freq => simpa [hlive] using hf.liveSum

end Sys2Proof.Proofs
end

section
/-! The packed codeword (42_code_walk.md R133): its bits, and that it stands for one codeword; O47. -/

namespace Sys2Proof.Machine

variable {p q : List Bool}

/-- The last bit of a codeword is bit 0 of its value. -/
theorem codewordValue_snoc_eq_bit (p : List Bool) (b : Bool) :
    codewordValue (p ++ [b]) = Nat.bit b (codewordValue p) := by
  rw [codewordValue_snoc, Nat.bit_val]

/-- b_i, counted from 1, is bit L − i of the codeword's value (R133). -/
theorem testBit_codewordValue {i : Nat} (hi : i < p.length) :
    (codewordValue p).testBit (p.length - 1 - i) = p[i] := by
  induction p using List.reverseRecOn with
  | nil => cases hi
  | append_singleton p b ih =>
    rw [codewordValue_snoc_eq_bit, List.length_append, List.length_singleton, Nat.add_sub_cancel]
    by_cases hip : i < p.length
    · have hpos : p.length - i = (p.length - 1 - i).succ := by omega
      rw [hpos, Nat.testBit_bit_succ, ih hip, List.getElem_append_left hip]
    · have hip : i = p.length := by rw [List.length_append, List.length_singleton] at hi; omega
      subst hip
      rw [Nat.sub_self, Nat.testBit_bit_zero, List.getElem_concat_length rfl]

/-- Codewords of one length with one value are one codeword. -/
theorem codewordValue_inj (hlen : p.length = q.length) (hval : codewordValue p = codewordValue q) :
    p = q :=
  List.ext_getElem hlen fun i hp hq => by
    rw [← testBit_codewordValue hp, ← testBit_codewordValue hq, hlen, hval]

/-- The value without the last bits is that of the codeword without them. -/
theorem codewordValue_append_div (p q : List Bool) :
    codewordValue (p ++ q) / 2 ^ q.length = codewordValue p := by
  induction q using List.reverseRecOn with
  | nil => simp
  | append_singleton q b ih =>
    rw [← List.append_assoc, codewordValue_snoc_eq_bit, List.length_append, List.length_singleton,
      pow_succ', ← Nat.div_div_eq_div_mul, Nat.bit_div_two, ih]

/-- A codeword whose value is that of another's first bits begins it (R134). -/
theorem isPrefix_of_codewordValue_div (hlen : p.length ≤ q.length)
    (hval : codewordValue q / 2 ^ (q.length - p.length) = codewordValue p) : p <+: q := by
  have htake : codewordValue (q.take p.length) = codewordValue p := by
    rw [← hval, ← List.length_drop, ← codewordValue_append_div (q.take p.length) (q.drop p.length),
      List.take_append_drop]
  exact List.prefix_iff_eq_take.mpr
    (codewordValue_inj (List.length_take_of_le hlen).symm htake.symm)

/-- The codeword written in an entry is the one that is packed into it (R133). -/
theorem pack_inj (hp : p.length ≤ 64) (hq : q.length ≤ 64) (heq : pack q = pack p) : q = p :=
  codewordValue_inj (by rw [← pack_len hq, ← pack_len hp, heq])
    (by rw [← pack_bits hq, ← pack_bits hp, heq])

end Sys2Proof.Machine

namespace Sys2Proof.Proofs

open Sys2Proof.Machine

/-- Settles O47: the bits of the entry are the digits of the codeword's value. -/
theorem codewordsArePackedFirstBitHighest : Obligations.CodewordsArePackedFirstBitHighest := by
  intro p hp
  have hbit (j : Nat) : (pack p).bits.getLsbD j = (codewordValue p).testBit j := by
    rw [← BitVec.testBit_toNat, pack_bits hp]
  refine ⟨pack_len hp, fun i b hb => ?bits, fun j hj => ?above, fun q hq => pack_inj hp hq⟩
  case bits =>
    obtain ⟨hi, rfl⟩ := List.getElem?_eq_some_iff.mp hb
    rw [hbit, testBit_codewordValue hi]
  case above =>
    rw [hbit]
    exact Nat.testBit_lt_two_pow
      ((codewordValue_lt p).trans_le (Nat.pow_le_pow_right (by decide) hj))

end Sys2Proof.Proofs
end

section
/-! The tree below a node (42_code_walk.md R130), and that the tree of a run has every slot as exactly
one leaf: following parents from a slot leads to the root, and to one of two siblings at most (R125).
O46, and O14, which rests on that. -/

namespace Sys2Proof.Machine

variable {c : Config} {h : Htb} {s : State} {tree l r : Tree} {fuel i j : Nat}

/-! ### Reading the tree out of the node pool (R130) -/

/-- A leaf is read out at a leaf node alone, and is that node's. -/
theorem Htb.treeBelow_eq_leaf (ht : h.treeBelow fuel i = some (.leaf j)) :
    (h.nodeAt i).kind = .leaf ∧ j = i := by
  cases fuel with
  | zero => cases ht
  | succ fuel =>
    simp only [Htb.treeBelow] at ht
    split at ht
    · rename_i hkind
      cases ht
      exact ⟨hkind, rfl⟩
    · split at ht <;> cases ht

/-- Two subtrees are read out at an internal node alone, and are its children's. -/
theorem Htb.treeBelow_eq_node (ht : h.treeBelow fuel i = some (.node l r)) :
    (h.nodeAt i).kind = .internal ∧ ∃ f, h.treeBelow f (h.nodeAt i).left.toNat = some l ∧
      h.treeBelow f (h.nodeAt i).right.toNat = some r := by
  cases fuel with
  | zero => cases ht
  | succ fuel =>
    simp only [Htb.treeBelow] at ht
    split at ht
    · cases ht
    · rename_i hkind
      split at ht
      · rename_i hl hr
        cases ht
        exact ⟨hkind, fuel, hl, hr⟩
      · cases ht

theorem Htb.treeBelow_of_leaf (hkind : (h.nodeAt i).kind = .leaf) :
    h.treeBelow (fuel + 1) i = some (.leaf i) := by
  simp only [Htb.treeBelow, hkind]

theorem Htb.treeBelow_of_internal (hkind : (h.nodeAt i).kind = .internal)
    (hl : h.treeBelow fuel (h.nodeAt i).left.toNat = some l)
    (hr : h.treeBelow fuel (h.nodeAt i).right.toNat = some r) :
    h.treeBelow (fuel + 1) i = some (.node l r) := by
  simp only [Htb.treeBelow, hkind, hl, hr]

theorem Tree.path?_leaf_eq_some {p : List Bool} :
    (Tree.leaf i).path? j = some p ↔ j = i ∧ p = [] := by
  rw [Tree.path?_leaf]
  split <;> simp_all [eq_comm]

theorem Tree.path?_node_left {p : List Bool} (hl : l.path? j = some p) :
    (Tree.node l r).path? j = some (false :: p) := by
  simp only [Tree.path?, hl]

theorem Tree.path?_node_right (hl : l.path? j = none) {p : List Bool} (hr : r.path? j = some p) :
    (Tree.node l r).path? j = some (true :: p) := by
  simp only [Tree.path?, hl, hr]

theorem Tree.path?_node_eq_some {p : List Bool} :
    (Tree.node l r).path? j = some p ↔ (∃ q, l.path? j = some q ∧ p = false :: q) ∨
      (l.path? j = none ∧ ∃ q, r.path? j = some q ∧ p = true :: q) := by
  refine ⟨Tree.path?_node, ?_⟩
  rintro (⟨q, hq, rfl⟩ | ⟨hl, q, hq, rfl⟩)
  · exact Tree.path?_node_left hq
  · exact Tree.path?_node_right hl hq

/-! ### The leaves of a tree -/

/-- The slots of a tree's leaves, from left to right. -/
def Tree.leaves : Tree → List Nat
  | .leaf slot => [slot]
  | .node left right => left.leaves ++ right.leaves

/-- The slots with a path are those of the leaves (R130). -/
theorem Tree.exists_path?_iff {slot : Nat} :
    (∃ p, tree.path? slot = some p) ↔ slot ∈ tree.leaves := by
  induction tree with
  | leaf i => simp [Tree.path?_leaf_eq_some, Tree.leaves]
  | node l r ihl ihr =>
    rw [Tree.leaves, List.mem_append, ← ihl, ← ihr]
    constructor
    · rintro ⟨p, hp⟩
      obtain ⟨q, hq, -⟩ | ⟨-, q, hq, -⟩ := Tree.path?_node hp
      · exact .inl ⟨q, hq⟩
      · exact .inr ⟨q, hq⟩
    · intro hsome
      cases hl : l.path? slot with
      | some p => exact ⟨_, Tree.path?_node_left hl⟩
      | none =>
        rw [hl] at hsome
        obtain ⟨p, hp⟩ | ⟨p, hp⟩ := hsome
        · cases hp
        · exact ⟨_, Tree.path?_node_right hl hp⟩

/-! ### Following parents (R125) -/

/-- Node `i` is `j` or an ancestor of `j` in this run. -/
abbrev Htb.Above (h : Htb) (j i : Nat) : Prop :=
  Relation.ReflTransGen (fun child parent => h.IsParent parent child) j i

theorem Htb.ForestInv.le_of_above (hf : h.ForestInv) (hji : h.Above j i) : j ≤ i := by
  induction hji with
  | refl => exact le_rfl
  | tail _ hp ih => exact ih.trans (hf.lt_of_isParent hp).le

/-- No node has two parents (R125). -/
theorem Htb.ForestInv.parent_eq (hf : h.ForestInv) {p q : Nat} (hp : h.IsParent p j)
    (hq : h.IsParent q j) : p = q :=
  hf.oneParent j ((hf.lt_of_isParent hp).trans hp.2.1) p hp.2.1 hp q hq.2.1 hq

/-- An ancestor of a node other than itself is an ancestor of its parent. -/
theorem Htb.ForestInv.above_parent (hf : h.ForestInv) {p a b : Nat} (hp : h.IsParent p a)
    (hab : h.Above a b) (hne : a ≠ b) : h.Above p b := by
  obtain heq | ⟨q, hq, hqb⟩ := hab.cases_head
  · exact absurd heq hne
  · rwa [hf.parent_eq hp hq]

/-- No node is below both of two siblings: of two ancestors of it the one would be above the other,
and so above their parent. -/
theorem Htb.ForestInv.not_above_siblings (hf : h.ForestInv) {p a b : Nat} (ha : h.IsParent p a)
    (hb : h.IsParent p b) (hne : a ≠ b) (hja : h.Above j a) : ¬ h.Above j b := by
  intro hjb
  have hunique : Relator.RightUnique fun child parent => h.IsParent parent child :=
    fun _ _ _ => hf.parent_eq
  obtain hab | hba := Relation.ReflTransGen.total_of_right_unique hunique hja hjb
  · exact (hf.lt_of_isParent hb).not_ge (hf.le_of_above (hf.above_parent ha hab hne))
  · exact (hf.lt_of_isParent ha).not_ge (hf.le_of_above (hf.above_parent hb hba hne.symm))

/-- Following parents from any node of the complete tree leads to the root (R125). -/
theorem Htb.ForestInv.above_root (hf : h.ForestInv) (hr : h.RootInv) (hj : j < h.n + h.k) :
    h.Above j h.rootI.toNat := by
  induction hd : h.n + h.k - j using Nat.strong_induction_on generalizing j with
  | _ d ih =>
    by_cases hroot : j = h.rootI.toNat
    · exact hroot ▸ .refl
    · obtain ⟨p, hp, -⟩ := hf.parent_unique_of_not_live hj (by simpa [hr.live_eq hf])
      have hjp := hf.lt_of_isParent hp
      have hplt := hp.2.1
      exact .head hp (ih _ (by omega) hplt rfl)

/-! ### The tree of a run (R125, R130) -/

/-- The leaf nodes of a run are its slots (R51). -/
theorem Htb.ForestInv.kind_eq_leaf_iff (hf : h.ForestInv) (hi : i < h.n + h.k) :
    (h.nodeAt i).kind = .leaf ↔ i < h.n := by
  refine ⟨fun hkind => ?_, fun hin => by rw [hf.leaves i hin, Htb.leafOf]⟩
  by_contra hin
  rw [(hf.merges i hi (not_lt.mp hin)).1] at hkind
  cases hkind

/-- A child's index being lower, i + 1 levels suffice for the tree below node i (log 14). -/
theorem Htb.ForestInv.exists_treeBelow (hf : h.ForestInv) (hfuel : i < fuel) (hi : i < h.n + h.k) :
    ∃ tree, h.treeBelow fuel i = some tree := by
  induction fuel generalizing i with
  | zero => omega
  | succ fuel ih =>
    obtain hkind | ⟨hkind, hleft, hright⟩ := hf.leaf_or_below hi
    · exact ⟨_, Htb.treeBelow_of_leaf hkind⟩
    · obtain ⟨l, hl⟩ := ih (by omega) (hleft.trans hi)
      obtain ⟨r, hr⟩ := ih (by omega) (hright.trans hi)
      exact ⟨_, Htb.treeBelow_of_internal hkind hl hr⟩

/-- An internal node of the run is the parent of both its children, and has a higher index. -/
theorem Htb.ForestInv.children (hf : h.ForestInv) (hi : i < h.n + h.k)
    (hkind : (h.nodeAt i).kind = .internal) :
    h.n ≤ i ∧ h.IsParent i (h.nodeAt i).left.toNat ∧ h.IsParent i (h.nodeAt i).right.toNat := by
  have hni : h.n ≤ i := by
    by_contra hin
    rw [(hf.kind_eq_leaf_iff hi).mpr (by omega)] at hkind
    cases hkind
  exact ⟨hni, ⟨hni, hi, .inl rfl⟩, ⟨hni, hi, .inr rfl⟩⟩

/-- The leaves below a node of the run are the slots it is above. -/
theorem Htb.ForestInv.mem_leaves_treeBelow (hf : h.ForestInv) (hi : i < h.n + h.k)
    (ht : h.treeBelow fuel i = some tree) {slot : Nat} :
    slot ∈ tree.leaves ↔ slot < h.n ∧ h.Above slot i := by
  induction tree generalizing fuel i with
  | leaf j =>
    obtain ⟨hkind, rfl⟩ := Htb.treeBelow_eq_leaf ht
    have hin := (hf.kind_eq_leaf_iff hi).mp hkind
    rw [Tree.leaves, List.mem_singleton]
    refine ⟨by rintro rfl; exact ⟨hin, .refl⟩, fun ⟨_, habove⟩ => ?_⟩
    obtain heq | ⟨child, -, hp⟩ := habove.cases_tail
    · exact heq.symm
    · exact absurd hp.1 hin.not_ge
  | node l r ihl ihr =>
    obtain ⟨hkind, f, hl, hr⟩ := Htb.treeBelow_eq_node ht
    obtain ⟨hni, hpl, hpr⟩ := hf.children hi hkind
    rw [Tree.leaves, List.mem_append, ihl ((hf.lt_of_isParent hpl).trans hi) hl,
      ihr ((hf.lt_of_isParent hpr).trans hi) hr, ← and_or_left]
    refine and_congr_right fun hslot => ⟨?_, fun habove => ?_⟩
    · rintro (hbelow | hbelow)
      · exact hbelow.tail hpl
      · exact hbelow.tail hpr
    · obtain heq | ⟨child, hbelow, -, -, rfl | rfl⟩ := habove.cases_tail
      · omega
      · exact .inl hbelow
      · exact .inr hbelow

/-- No slot is two leaves below a node of the run: no node is below both of its children. -/
theorem Htb.ForestInv.nodup_leaves_treeBelow (hf : h.ForestInv) (hi : i < h.n + h.k)
    (ht : h.treeBelow fuel i = some tree) : tree.leaves.Nodup := by
  induction tree generalizing fuel i with
  | leaf j => exact List.nodup_singleton j
  | node l r ihl ihr =>
    obtain ⟨hkind, f, hl, hr⟩ := Htb.treeBelow_eq_node ht
    obtain ⟨hni, hpl, hpr⟩ := hf.children hi hkind
    have hleft := (hf.lt_of_isParent hpl).trans hi
    have hright := (hf.lt_of_isParent hpr).trans hi
    have hne : (h.nodeAt i).left.toNat ≠ (h.nodeAt i).right.toNat := fun heq => by
      obtain ⟨-, -, -, -, hprec⟩ := hf.merges i hi hni
      rw [heq, h.precedes_irrefl] at hprec
      cases hprec
    refine List.nodup_append'.mpr ⟨ihl hleft hl, ihr hright hr, fun slot hsl hsr => ?_⟩
    exact hf.not_above_siblings hpl hpr hne ((hf.mem_leaves_treeBelow hleft hl).mp hsl).2
      ((hf.mem_leaves_treeBelow hright hr).mp hsr).2

/-- The leaves of the run's tree are its slots, each once (R125). -/
theorem Htb.ForestInv.leaves_perm (hf : h.ForestInv) (hr : h.RootInv)
    (ht : h.tree? = some tree) : tree.leaves.Perm (List.range h.n) := by
  refine (List.perm_ext_iff_of_nodup (hf.nodup_leaves_treeBelow hr.root_lt ht)
    List.nodup_range).mpr fun slot => ?_
  rw [hf.mem_leaves_treeBelow hr.root_lt ht, List.mem_range]
  exact and_iff_left_of_imp fun hslot => hf.above_root hr (by omega)

/-- ENG_WALK has a tree, and it covers every slot (R125, R130). -/
theorem Htb.ForestInv.exists_runTree (hf : h.ForestInv) (hr : h.RootInv) :
    ∃ tree, h.runTree? = some tree := by
  obtain ⟨tree, ht⟩ := hf.exists_treeBelow (Nat.lt_succ_self _) hr.root_lt
  refine ⟨tree, Htb.runTree?_some.mpr ⟨ht, Tree.covers_iff.mpr fun slot hslot => ?_⟩⟩
  rw [Tree.exists_path?_iff, (hf.leaves_perm hr ht).mem_iff]
  exact List.mem_range.mpr hslot

theorem Htb.Inv.exists_runTree (hi : h.Inv c) (hp : h.phase.hasTree = true) :
    ∃ tree, h.runTree? = some tree :=
  (hi.forest (hasNodes_of_hasTree hp)).exists_runTree (hi.root hp)

/-! ### The engine goes on -/

/-- ENG_WALK is the one step that can stop, and it has a tree. -/
theorem Htb.Inv.engine_ok (hi : h.Inv c) {e : EngineStep} (he : h.enabled = some e) :
    ∃ g, h.engine e = .ok g := by
  obtain ⟨a, b, -, -, -, rfl⟩ | ⟨a, -, -, -, rfl⟩ | ⟨hp, rfl⟩ | ⟨-, rfl⟩ := h.enabled_cases he
  · exact ⟨_, rfl⟩
  · exact ⟨_, rfl⟩
  · obtain ⟨tree, ht⟩ := hi.exists_runTree (by rw [hp]; rfl)
    exact ⟨h.engWalkTree tree, by simp only [Htb.engine, ht]⟩
  · exact ⟨_, rfl⟩

theorem State.Inv.engineMove_goesOn (hi : s.Inv) : goesOn s.engineMove := by
  unfold State.engineMove
  cases he : s.htb.enabled with
  | none => exact ⟨s, rfl⟩
  | some e =>
    obtain ⟨g, hg⟩ := Htb.Inv.engine_ok hi he
    exact ⟨{ s with htb := g }, by simp only [hg]⟩

end Sys2Proof.Machine

namespace Sys2Proof.Proofs

open Sys2Proof.Machine

/-- Settles O46: the tree is a leaf at a leaf node, and a node over the children's trees at an internal
one. -/
theorem pathsFollowTheNodePool : Obligations.PathsFollowTheNodePool := by
  intro h fuel i tree ht
  cases tree with
  | leaf j =>
    obtain ⟨hkind, rfl⟩ := Htb.treeBelow_eq_leaf ht
    exact ⟨fun _ _ _ => Tree.path?_leaf_eq_some, fun hint => (nomatch hkind.symm.trans hint)⟩
  | node l r =>
    obtain ⟨hkind, f, hl, hr⟩ := Htb.treeBelow_eq_node ht
    exact ⟨fun hleaf => (nomatch hkind.symm.trans hleaf),
      fun _ => ⟨f, l, r, hl, hr, fun _ _ => Tree.path?_node_eq_some⟩⟩

/-- Settles O14: a host operation and a reset always go on, and the engine does where the invariant
holds. -/
theorem noStepStops : Obligations.NoStepStops := by
  intro s hi
  cases hagenda : s.agenda with
  | nil =>
    rw [step_of_agenda_nil hagenda]
    exact hi.engineMove_goesOn
  | cons e rest =>
    cases e with
    | host w =>
      obtain ⟨g, reply, hexec⟩ := exec_next (decode w) { s with agenda := rest }
      rw [step_of_host hagenda]
      exact ⟨_, hexec⟩
    | engine =>
      rw [step_of_engine hagenda]
      exact State.Inv.engineMove_goesOn (s := { s with agenda := rest }) hi
    | reset => exact ⟨_, step_of_reset hagenda⟩

end Sys2Proof.Proofs
end

section
/-! ENG_WALK (42_code_walk.md R131, R132) and the code table it leaves (R134): O45, O48, O51 and
O52. -/

namespace Sys2Proof.Machine

variable {c : Config} {h : Htb} {s : State} {tree l r : Tree}

/-! ### The walk step (R131, R224) -/

theorem Htb.enabled_walk (hp : h.phase = .walk) : h.enabled = some .walk := by
  rw [Htb.enabled, hp]

theorem Htb.engine_walk (ht : h.runTree? = some tree) :
    h.engine .walk = .ok (h.engWalkTree tree) := by
  simp only [Htb.engine, ht]

theorem step_walk (hnext : s.engineNext) (hp : s.htb.phase = .walk)
    (ht : s.htb.runTree? = some tree) :
    step s = .next { s with agenda := s.agenda.tail, htb := s.htb.engWalkTree tree } :=
  step_of_enabled hnext (Htb.enabled_walk hp) (Htb.engine_walk ht)

theorem Tree.tooDeep_of_path? {n slot : Nat} {p : List Bool} (hslot : slot < n)
    (hp : tree.path? slot = some p) (hlen : 64 < p.length) : tree.tooDeep n = true := by
  rw [← Bool.not_eq_false, Tree.tooDeep_eq_false]
  intro hshort
  have hle := hshort slot hslot
  rw [Tree.path_eq hp] at hle
  omega

/-- A walk that finds a codeword too long ends the run with CODE_LENGTH (R131). -/
theorem Htb.engWalkTree_of_tooDeep (hdeep : tree.tooDeep h.n = true) :
    h.engWalkTree tree = h.enterError .codeLength :=
  if_pos hdeep

/-- A walk that finds no codeword too long writes the slots' packed paths and no other entry. -/
theorem Htb.codeAt_engWalkTree (hdeep : tree.tooDeep h.n = false) (i : Nat) :
    (h.engWalkTree tree).codeAt i = if i < h.n then pack (tree.path i) else h.codeAt i := by
  obtain ⟨htrue, -⟩ | ⟨-, -, hcode⟩ := h.engWalkTree_cases tree
  · exact nomatch hdeep.symm.trans htrue
  · exact hcode i

/-! ### One symbol (R132) -/

/-- The codeword of a tree that is one leaf is the empty one. -/
theorem pack_path_leaf (i : Nat) : pack ((Tree.leaf i).path i) = ⟨0, 0⟩ := by
  rw [Tree.path_eq (Tree.path?_leaf_eq_some.mpr ⟨rfl, rfl⟩)]
  rfl

/-- With one symbol the root is the one leaf. -/
theorem Htb.Inv.root_of_one_symbol (hi : h.Inv c) (hp : h.phase.hasTree = true) (hn : h.n = 1) :
    (h.nodeAt h.rootI.toNat).kind = .leaf ∧ h.tree? = some (.leaf 0) := by
  have hf := hi.forest (hasNodes_of_hasTree hp)
  have hroot : h.rootI.toNat = 0 := by rw [(hi.root hp).root_eq, hn]
  have hkind : (h.nodeAt 0).kind = .leaf := (hf.kind_eq_leaf_iff (by omega)).mpr (by omega)
  rw [Htb.tree?, hroot]
  exact ⟨hkind, Htb.treeBelow_of_leaf hkind⟩

theorem Htb.Inv.runTree?_of_one_symbol (hi : h.Inv c) (hp : h.phase.hasTree = true)
    (hn : h.n = 1) : h.runTree? = some (.leaf 0) := by
  obtain ⟨tree, hrun⟩ := hi.exists_runTree hp
  have htree := (Htb.runTree?_some.mp hrun).1
  rw [(hi.root_of_one_symbol hp hn).2] at htree
  cases htree
  exact hrun

/-! ### Prefixes and the Kraft sum in a tree (R134) -/

/-- A path that begins another ends at the same leaf. -/
theorem Tree.eq_of_path?_isPrefix {i j : Nat} {p q : List Bool} (hp : tree.path? i = some p)
    (hq : tree.path? j = some q) (hpq : p <+: q) : i = j := by
  induction tree generalizing p q with
  | leaf k =>
    obtain ⟨rfl, -⟩ := Tree.path?_leaf_eq_some.mp hp
    obtain ⟨rfl, -⟩ := Tree.path?_leaf_eq_some.mp hq
    rfl
  | node l r ihl ihr =>
    obtain ⟨p', hp', rfl⟩ | ⟨-, p', hp', rfl⟩ := Tree.path?_node hp <;>
      obtain ⟨q', hq', rfl⟩ | ⟨-, q', hq', rfl⟩ := Tree.path?_node hq <;>
      obtain ⟨hbit, hpq'⟩ := List.cons_prefix_cons.mp hpq
    · exact ihl hp' hq' hpq'
    · cases hbit
    · cases hbit
    · exact ihr hp' hq' hpq'

theorem Tree.path_node_left {slot : Nat} (hslot : slot ∈ l.leaves) :
    (Tree.node l r).path slot = false :: l.path slot := by
  obtain ⟨p, hp⟩ := Tree.exists_path?_iff.mpr hslot
  rw [Tree.path_eq hp, Tree.path_eq (Tree.path?_node_left hp)]

theorem Tree.path_node_right {slot : Nat} (hl : slot ∉ l.leaves) (hslot : slot ∈ r.leaves) :
    (Tree.node l r).path slot = true :: r.path slot := by
  obtain ⟨p, hp⟩ := Tree.exists_path?_iff.mpr hslot
  have hnone : l.path? slot = none := by
    rw [← Tree.exists_path?_iff, ← Option.ne_none_iff_exists', not_not] at hl
    exact hl
  rw [Tree.path_eq hp, Tree.path_eq (Tree.path?_node_right hnone hp)]

/-- Σ 2^(m − length) over some slots of a tree. -/
def Tree.kraftSum (m : Nat) (slots : List Nat) (tree : Tree) : Nat :=
  (slots.map fun slot => 2 ^ (m - (tree.path slot).length)).sum

/-- One bit in front of every path takes up the one bit more of the bound. -/
theorem Tree.kraftSum_of_cons {m : Nat} {slots : List Nat} {t : Tree}
    (hpath : ∀ slot ∈ slots, ∃ b, t.path slot = b :: tree.path slot) :
    t.kraftSum (m + 1) slots = tree.kraftSum m slots := by
  refine congrArg List.sum (List.map_congr_left fun slot hslot => ?_)
  obtain ⟨b, hb⟩ := hpath slot hslot
  rw [hb, List.length_cons, Nat.add_sub_add_right]

theorem Tree.exists_mem_leaves (tree : Tree) : ∃ slot, slot ∈ tree.leaves := by
  induction tree with
  | leaf i => exact ⟨i, List.mem_singleton_self i⟩
  | node l r ihl ihr => exact ihl.imp fun _ => List.mem_append_left _

/-- The Kraft sum of a tree whose leaves are distinct is 1: each of its two subtrees, whose paths are
one bit shorter, gives one half. -/
theorem Tree.kraftSum_leaves {m : Nat} (hnodup : tree.leaves.Nodup)
    (hlen : ∀ slot ∈ tree.leaves, (tree.path slot).length ≤ m) :
    tree.kraftSum m tree.leaves = 2 ^ m := by
  induction tree generalizing m with
  | leaf i => simp [Tree.kraftSum, Tree.leaves, Tree.path, Tree.path?_leaf]
  | node l r ihl ihr =>
    obtain ⟨hl, hr, hdisjoint⟩ := List.nodup_append'.mp hnodup
    have hleft (slot) (hslot : slot ∈ l.leaves) := Tree.path_node_left (r := r) hslot
    have hright (slot) (hslot : slot ∈ r.leaves) :=
      Tree.path_node_right (fun hsl => hdisjoint hsl hslot) hslot
    have hlenl (slot) (hslot : slot ∈ l.leaves) : (l.path slot).length + 1 ≤ m := by
      simpa [hleft slot hslot] using hlen slot (List.mem_append_left _ hslot)
    have hlenr (slot) (hslot : slot ∈ r.leaves) : (r.path slot).length + 1 ≤ m := by
      simpa [hright slot hslot] using hlen slot (List.mem_append_right _ hslot)
    cases m with
    | zero =>
      obtain ⟨slot, hslot⟩ := l.exists_mem_leaves
      exact absurd (hlenl slot hslot) (Nat.not_succ_le_zero _)
    | succ m =>
      have hsuml := ihl hl fun slot hslot => Nat.le_of_succ_le_succ (hlenl slot hslot)
      have hsumr := ihr hr fun slot hslot => Nat.le_of_succ_le_succ (hlenr slot hslot)
      calc (l.node r).kraftSum (m + 1) (l.leaves ++ r.leaves)
          = (l.node r).kraftSum (m + 1) l.leaves + (l.node r).kraftSum (m + 1) r.leaves := by
            simp only [Tree.kraftSum, List.map_append, List.sum_append]
        _ = l.kraftSum m l.leaves + r.kraftSum m r.leaves := by
            rw [Tree.kraftSum_of_cons fun slot hslot => ⟨_, hleft slot hslot⟩,
              Tree.kraftSum_of_cons fun slot hslot => ⟨_, hright slot hslot⟩]
        _ = 2 ^ (m + 1) := by rw [hsuml, hsumr, pow_succ', Nat.two_mul]

/-! ### The code table (R134) -/

/-- The code table in terms of the paths of the run's tree: none longer than 64, each packed. -/
theorem Htb.CodeInv.exists_paths (hc : h.CodeInv) : ∃ tree, h.tree? = some tree ∧
    ∀ slot, slot < h.n → tree.path? slot = some (tree.path slot) ∧ (tree.path slot).length ≤ 64 ∧
      (h.codeAt slot).len.toNat = (tree.path slot).length ∧
      (h.codeAt slot).bits.toNat = codewordValue (tree.path slot) := by
  obtain ⟨tree, hrun, hdeep, hcode⟩ := hc
  obtain ⟨ht, hcovers⟩ := Htb.runTree?_some.mp hrun
  refine ⟨tree, ht, fun slot hslot => ?_⟩
  obtain ⟨p, hp⟩ := Tree.covers_iff.mp hcovers slot hslot
  have hlen := Tree.tooDeep_eq_false.mp hdeep slot hslot
  rw [hcode slot hslot, pack_len hlen, pack_bits hlen]
  exact ⟨by rw [Tree.path_eq hp, hp], hlen, rfl, rfl⟩

theorem hasCodes_of_size_or_done {p : Phase} (hp : p = .size ∨ p = .done) : p.hasCodes = true := by
  obtain rfl | rfl := hp <;> rfl

end Sys2Proof.Machine

namespace Sys2Proof.Proofs

open Sys2Proof.Machine

/-- Settles O45: ENG_WALK has a tree with all paths, and packs them where none is too long. -/
theorem walkAssignsEveryCodeword : Obligations.WalkAssignsEveryCodeword := by
  refine ⟨fun s hi hp hnext => ?fits, fun s tree hp hnext ht hcovers hdeep => ?tooLong⟩
  case fits =>
    obtain ⟨tree, hrun⟩ := Htb.Inv.exists_runTree hi (by rw [hp]; rfl)
    obtain ⟨ht, hcovers⟩ := Htb.runTree?_some.mp hrun
    have hpaths := Tree.covers_iff.mp hcovers
    refine ⟨tree, ht, hpaths, fun hshort => ?_⟩
    have hnotDeep : tree.tooDeep s.htb.n = false := Tree.tooDeep_eq_false.mpr fun slot hslot => by
      obtain ⟨p, hpath⟩ := hpaths slot hslot
      rw [Tree.path_eq hpath]
      exact hshort slot p hslot hpath
    have hcode := Htb.codeAt_engWalkTree hnotDeep
    refine ⟨_, step_walk hnext hp hrun, fun i p hslot hpath => ?_,
      fun i hslot => (hcode i).trans (if_neg hslot.not_gt), ?_⟩
    · rw [← Tree.path_eq hpath]
      exact (hcode i).trans (if_pos hslot)
    · rw [Htb.engWalkTree_of_not_tooDeep hnotDeep]
      rfl
  case tooLong =>
    obtain ⟨i, p, hslot, hpath, hlen⟩ := hdeep
    have hrun := Htb.runTree?_some.mpr ⟨ht, Tree.covers_iff.mpr hcovers⟩
    rw [step_walk hnext hp hrun,
      Htb.engWalkTree_of_tooDeep (Tree.tooDeep_of_path? hslot hpath hlen)]
    rfl

/-- Settles O48: the tree of one symbol is the leaf of slot 0, whose path is empty. -/
theorem oneSymbolGetsTheEmptyCodeword : Obligations.OneSymbolGetsTheEmptyCodeword := by
  refine ⟨fun s hi hp hn hnext => ?walk, fun s hi hp hn => ?done⟩
  case walk =>
    have hphase : s.htb.phase.hasTree = true := by rw [hp]; rfl
    have hshort : (Tree.leaf 0).tooDeep s.htb.n = false := by rw [hn]; rfl
    have herr : s.htb.err = .noError := Htb.Inv.err_eq hi (by rw [hp]; decide)
    refine ⟨(Htb.Inv.root_of_one_symbol hi hphase hn).1, _,
      step_walk hnext hp (Htb.Inv.runTree?_of_one_symbol hi hphase hn), ?_, ?_, ?_⟩
    · rw [Htb.engWalkTree_of_not_tooDeep hshort]
    · rw [Htb.engWalkTree_of_not_tooDeep hshort]
      exact herr
    · rw [Htb.codeAt_engWalkTree hshort, if_pos (by omega), pack_path_leaf]
  case done =>
    have hphase : s.htb.phase.hasTree = true := by rw [hp]; rfl
    obtain ⟨tree, hrun, -, hcodes⟩ := Htb.Inv.codes hi (by rw [hp]; rfl)
    rw [Htb.Inv.runTree?_of_one_symbol hi hphase hn] at hrun
    cases hrun
    have hcode : s.htb.codeAt 0 = ⟨0, 0⟩ := (hcodes 0 (by omega)).trans (pack_path_leaf 0)
    have htotal : s.htb.totalBits = 0 := by simp [Htb.totalBits, hn, sumBelow, hcode]
    have hresults := Htb.Inv.results hi hp
    refine ⟨(Htb.Inv.root_of_one_symbol hi hphase hn).1, hcode, ?_, ?_⟩
    · exact BitVec.eq_of_toNat_eq (hresults.tbits.trans htotal)
    · exact BitVec.eq_of_toNat_eq (hresults.comp.trans (by rw [htotal]; rfl))

/-- Settles O51: an entry that begins another is the packed path of a leaf on the way to another
leaf. -/
theorem noCodewordBeginsAnother : Obligations.NoCodewordBeginsAnother := by
  rintro c h hi hp i j hin hjn hne ⟨hlen, hbits⟩
  obtain ⟨tree, -, hpaths⟩ := (hi.codes (hasCodes_of_size_or_done hp)).exists_paths
  obtain ⟨hpathi, -, hleni, hbitsi⟩ := hpaths i hin
  obtain ⟨hpathj, -, hlenj, hbitsj⟩ := hpaths j hjn
  rw [hleni, hlenj] at hlen
  rw [hleni, hlenj, hbitsi, hbitsj] at hbits
  exact hne (Tree.eq_of_path?_isPrefix hpathi hpathj (isPrefix_of_codewordValue_div hlen hbits))

/-- Settles O52: the slots are the leaves of the run's tree, each once, and the tree's Kraft sum
is 1. -/
theorem kraftSumIsOne : Obligations.KraftSumIsOne := by
  intro c h hi hp
  have hcodes := hasCodes_of_size_or_done hp
  have hphase := hasTree_of_hasCodes hcodes
  obtain ⟨tree, ht, hpaths⟩ := (hi.codes hcodes).exists_paths
  have hperm := (hi.forest (hasNodes_of_hasTree hphase)).leaves_perm (hi.root hphase) ht
  calc ((List.range h.n).map fun i => 2 ^ (64 - (h.codeAt i).len.toNat)).sum
      = tree.kraftSum 64 (List.range h.n) :=
        congrArg List.sum (List.map_congr_left fun i hin => by
          obtain ⟨-, -, hlen, -⟩ := hpaths i (List.mem_range.mp hin)
          rw [hlen])
    _ = tree.kraftSum 64 tree.leaves := (hperm.map _).sum_eq.symm
    _ = 2 ^ 64 := Tree.kraftSum_leaves (hperm.nodup_iff.mpr List.nodup_range) fun slot hslot =>
        (hpaths slot (List.mem_range.mp (hperm.mem_iff.mp hslot))).2.1

end Sys2Proof.Proofs
end

section
/-! The size estimate (43_size_estimate.md R140 to R143), the bounds that keep every stored
value within its field (R144), and that a run that has ended stays (R145, R228, R229); O49, O50 and
O58. -/

namespace Sys2Proof.Machine

variable {c : Config} {h : Htb} {s t : State}

/-! ### ENG_SIZE (R140) -/

theorem Htb.enabled_size (hp : h.phase = .size) : h.enabled = some .size := by
  rw [Htb.enabled, hp]

/-- Rounding up to whole bytes leaves less than a byte unused (R142). -/
theorem compressedBytes_rounds_up (bits : Nat) :
    bits ≤ 8 * compressedBytes bits ∧ 8 * compressedBytes bits < bits + 8 := by
  rw [compressedBytes]
  omega

theorem compressedBytes_le (bits : Nat) : compressedBytes bits ≤ bits := by
  rw [compressedBytes]
  omega

/-! ### Bounds of the histogram (R144) -/

/-- Every slot counts at least one pixel. -/
theorem Htb.HistInv.n_le_pixCount (hh : h.HistInv c) : h.n ≤ h.pixCount.toNat := by
  rw [← hh.freqSum, Htb.freqSum]
  have hpos := hh.freqPositive
  generalize h.n = n at hpos
  induction n with
  | zero => exact Nat.zero_le _
  | succ n ih =>
    rw [sumBelow]
    exact Nat.add_le_add (ih fun i hi => hpos i (by omega)) (hpos n (by omega))

/-- With no code longer than `m` bits the bit sum is at most `m` for each pixel (R141). -/
theorem Htb.HistInv.totalBits_le_of_len (hh : h.HistInv c) {m : Nat}
    (hlen : ∀ i, i < h.n → (h.codeAt i).len.toNat ≤ m) :
    h.totalBits ≤ m * h.pixCount.toNat := by
  rw [← hh.freqSum, Htb.totalBits, Htb.freqSum]
  generalize h.n = n at hlen
  induction n with
  | zero => exact Nat.zero_le _
  | succ n ih =>
    rw [sumBelow, sumBelow, Nat.mul_add, Nat.mul_comm m (h.poolAt n).freq.toNat]
    exact Nat.add_le_add (ih fun i hi => hlen i (by omega))
      (Nat.mul_le_mul_left _ (hlen n (by omega)))

/-! ### Bounds of the forest (R125, R144) -/

/-- The nodes of a run are fewer than twice its slots, so every index of one fits its field. -/
theorem Htb.Inv.nodeCount_lt (hi : h.Inv c) (hf : h.ForestInv) : h.n + h.k < 2 ^ 25 := by
  have := hi.hist.n_le
  have := hf.someSlot
  have := hi.mergesBelow
  omega

/-- A child's frequency is part of its parent's. -/
theorem Htb.ForestInv.freq_le_of_isParent (hf : h.ForestInv) {p j : Nat} (hp : h.IsParent p j) :
    (h.nodeAt j).freq.toNat ≤ (h.nodeAt p).freq.toNat := by
  obtain ⟨hn, hlt, hchild⟩ := hp
  obtain ⟨-, -, -, hfreq, -⟩ := hf.merges p hlt hn
  obtain rfl | rfl := hchild <;> omega

/-- A live node's frequency is one of those that add up to PIX_COUNT. -/
theorem Htb.ForestInv.freq_le_of_live (hf : h.ForestInv) {j : Nat} (hj : j ∈ h.live) :
    (h.nodeAt j).freq.toNat ≤ h.pixCount.toNat :=
  hf.liveSum ▸ List.le_sum_of_mem (List.mem_map_of_mem hj)

/-- No node has a frequency above PIX_COUNT: a live one by the sum over LIVE, another one by its
parent, which stands higher. -/
theorem Htb.ForestInv.freq_le (hf : h.ForestInv) {j : Nat} (hj : j < h.n + h.k) :
    (h.nodeAt j).freq.toNat ≤ h.pixCount.toNat := by
  by_cases hlive : j ∈ h.live
  · exact hf.freq_le_of_live hlive
  · obtain ⟨p, hp, -⟩ := hf.parent_unique_of_not_live hj hlive
    have := hf.lt_of_isParent hp
    exact (hf.freq_le_of_isParent hp).trans (hf.freq_le hp.2.1)
termination_by h.n + h.k - j

/-- Two selected nodes have at most PIX_COUNT together. -/
theorem Htb.Selects.freq_add_le {a b : Nat} (hs : h.Selects a b) (hf : h.ForestInv) :
    (h.nodeAt a).freq.toNat + (h.nodeAt b).freq.toNat ≤ h.pixCount.toNat := by
  have := hs.sum_live hf fun i => (h.nodeAt i).freq.toNat
  have := hf.liveSum
  omega

/-- The phase of an enabled merge is BUILD (R233). -/
theorem Htb.build_of_enabled_merge {a b : Nat} (he : h.enabled = some (.merge a b)) :
    h.phase = .build := by
  obtain ⟨_, _, hp, -⟩ | ⟨_, hp, -⟩ | ⟨-, heq⟩ | ⟨-, heq⟩ := h.enabled_cases he
  · exact hp
  · exact hp
  all_goals cases heq

/-! ### Bounds of the codes and the results (R144) -/

theorem Htb.CodeInv.len_le (hc : h.CodeInv) {i : Nat} (hin : i < h.n) :
    (h.codeAt i).len.toNat ≤ 64 := by
  obtain ⟨tree, -, hpaths⟩ := hc.exists_paths
  obtain ⟨-, hshort, hlen, -⟩ := hpaths i hin
  exact hlen.trans_le hshort

theorem Htb.Inv.totalBits_lt (hi : h.Inv c) (hc : h.CodeInv) : h.totalBits < 2 ^ 38 := by
  have := hi.hist.totalBits_le_of_len fun i => hc.len_le (i := i)
  have := hi.hist.pixBounded
  omega

theorem originalBytes_le (dim : Word) : originalBytes dim ≤ 17179344900 :=
  Nat.mul_le_mul_left 4 (rasterSize_le dim)

/-- The three results, which are 0 outside DONE (R59, R144). -/
theorem Htb.Inv.results_le (hi : h.Inv c) :
    h.orig.toNat ≤ 17179344900 ∧ h.tbits.toNat < 2 ^ 38 ∧ h.comp.toNat ≤ h.tbits.toNat := by
  by_cases hp : h.phase = .done
  · obtain ⟨horig, htbits, hcomp⟩ := hi.results hp
    rw [horig, htbits, hcomp]
    exact ⟨Nat.mul_le_mul_left 4 hi.hist.pixBounded, hi.totalBits_lt (hi.codes (by rw [hp]; rfl)),
      compressedBytes_le _⟩
  · obtain ⟨horig, hcomp, htbits⟩ := hi.noResult hp
    rw [horig, hcomp, htbits]
    decide

/-! ### A run that has ended (R145, R228, R229) -/

/-- ACCERR is its own event: signalling it sets no other bit (R230). -/
theorem Htb.evIn_of_signal_accErr {e : Ev} (hne : e ≠ .accErr)
    (hset : evIn (h.signal .accErr).evPending e = true) : evIn h.evPending e = true := by
  rw [Htb.signal_evPending, evIn_or_evMask] at hset
  simpa [hne.symm] using hset

/-- A write that waits for not BUSY sets no event but ACCERR (R171, R172). -/
theorem Htb.evIn_of_unlessBusy {g : Htb} {e : Ev} (hne : e ≠ .accErr)
    (hset : evIn (h.unlessBusy g).evPending e = true) (hg : g.evPending = h.evPending) :
    evIn h.evPending e = true := by
  obtain ⟨-, heq⟩ | ⟨-, heq⟩ := h.unlessBusy_cases g <;> rw [heq] at hset
  · exact Htb.evIn_of_signal_accErr hne hset
  · rwa [hg] at hset

theorem Htb.evIn_of_ack {m : Events} {e : Ev} (hset : evIn (h.ack m).evPending e = true) :
    evIn h.evPending e = true := by
  rw [Htb.ack_evPending, evIn_ack, Bool.and_eq_true] at hset
  exact hset.1

theorem Htb.enabled_eq_none_of_ended (hp : h.phase = .done ∨ h.phase = .error) :
    h.enabled = none := by
  obtain hp | hp := hp <;> rw [Htb.enabled, hp]

/-- A host operation that sets an event other than ACCERR is START, or a PIXEL write in HIST
(R225, R230). -/
theorem exec_event_source {i : Instr} (ht : exec i s = .next t) {e : Ev} (hne : e ≠ .accErr)
    (hset : evIn t.htb.evPending e = true) :
    evIn s.htb.evPending e = true ∨ i = .cmdStart ∨
    ((∃ data, i = .wrPixel data) ∧ s.htb.phase = .hist) := by
  cases i <;> injection ht with ht <;> subst ht
  case cmdStart => exact .inr (.inl rfl)
  case cmdAbort => exact nomatch (evIn_zero e).symm.trans hset
  case rsvdCmd => exact .inl (Htb.evIn_of_signal_accErr hne hset)
  case wrDim => exact .inl (Htb.evIn_of_unlessBusy hne hset rfl)
  case wrProgInterval => exact .inl (Htb.evIn_of_unlessBusy hne hset rfl)
  case wrPixel data =>
    by_cases hp : s.htb.phase = .hist
    · exact .inr (.inr ⟨⟨data, rfl⟩, hp⟩)
    · exact .inl (Htb.evIn_of_signal_accErr hne (Htb.pixel_of_not_hist hp ▸ hset))
  case wrEvPending => exact .inl (Htb.evIn_of_ack hset)
  all_goals exact .inl hset

/-- What a step leaves of a run that has ended, START, ABORT and reset apart. -/
theorem step_keeps_ended_run (ht : step s = .next t)
    (hp : s.htb.phase = .done ∨ s.htb.phase = .error)
    (hstart : ¬ s.nextIs .cmdStart) (habort : ¬ s.nextIs .cmdAbort) (hreset : ¬ s.resetNext) :
    s.htb.SameRun t.htb ∧
    ∀ e, e ≠ .accErr → evIn t.htb.evPending e = true → evIn s.htb.evPending e = true := by
  have hhist : s.htb.phase ≠ .hist := by obtain hp | hp := hp <;> rw [hp] <;> decide
  obtain ⟨w, rest, hagenda, hexec⟩ | ⟨rest, -, hmove⟩ | ⟨rest, hagenda, -⟩ := step_cases ht
  · have notNext {i : Instr} (hnot : ¬ s.nextIs i) : decode w ≠ i :=
      fun hi => hnot ⟨w, rest, hagenda, hi⟩
    constructor
    · obtain ⟨hi, -⟩ | ⟨hi, -⟩ | ⟨data, -, heq⟩ | hsame := exec_cases hexec
      · exact absurd hi (notNext hstart)
      · exact absurd hi (notNext habort)
      · rw [heq, Htb.pixel_of_not_hist hhist]
        exact s.htb.sameRun_signal .accErr
      · exact hsame
    · intro e hne hset
      obtain hold | hi | ⟨-, hp⟩ := exec_event_source hexec hne hset
      · exact hold
      · exact absurd hi (notNext hstart)
      · exact absurd hp hhist
  · obtain rfl | ⟨e, he, -⟩ := State.engineMove_enabled_cases hmove
    · exact ⟨⟨rfl, fun _ => ⟨rfl, rfl⟩⟩, fun _ _ hset => hset⟩
    · exact nomatch (Htb.enabled_eq_none_of_ended hp).symm.trans he
  · exact absurd ⟨rest, hagenda⟩ hreset

end Sys2Proof.Machine

namespace Sys2Proof.Proofs

open Sys2Proof.Machine

/-- Settles O49: the step is `engSize`, and the invariant leaves room for what it stores. -/
theorem sizeStepGivesTheEstimate : Obligations.SizeStepGivesTheEstimate := by
  intro s hi hp hnext
  obtain ⟨-, htbits, hcomp⟩ := Htb.Inv.engSize_resultInv hi hp
  have horig : s.htb.engSize.orig.toNat = originalBytes s.htb.dim := by
    rw [Htb.engSize_orig, BitVec.toNat_ofNat, Nat.mod_eq_of_lt]
    exact (originalBytes_le s.htb.dim).trans_lt (by decide)
  have hround := compressedBytes_rounds_up s.htb.engSize.totalBits
  rw [← hcomp, ← htbits] at hround
  exact ⟨_, step_of_enabled hnext (Htb.enabled_size hp) rfl,
    htbits.trans (sumBelow_eq_sum_range _ _), hround.1, hround.2, horig, rfl⟩

/-- Settles O50: the bounds of the histogram, the forest, the codes and the results in turn. -/
theorem noArithmeticWraps : Obligations.NoArithmeticWraps := by
  intro c h hi
  have hn := hi.hist.n_le
  have hk := hi.mergesBelow
  refine ⟨⟨hi.hist.pixBounded, hi.pixCount_lt, fun i => hi.hist.freq_le⟩,
    ⟨hn, hi.hist.n_le_pixCount, by omega⟩, fun hp i hin => ?nodes, fun a b he => ?merge,
    fun hp => ?root, fun hp => ?codes, originalBytes_le h.dim, hi.results_le⟩
  case nodes =>
    have hf := hi.forest hp
    have hcount := hi.nodeCount_lt hf
    refine ⟨by omega, hf.freq_le hin, fun hkind => ?_⟩
    obtain hleaf | ⟨-, hleft, hright⟩ := hf.leaf_or_below hin
    · exact nomatch hleaf.symm.trans hkind
    · omega
  case merge =>
    have hs := Htb.selects_of_enabled he
    have hf := hi.forest (by rw [Htb.build_of_enabled_merge he]; rfl)
    have hroom := hs.k_add_two_le hf
    exact ⟨by rw [Htb.newNode]; omega, by omega, hs.freq_add_le hf⟩
  case root =>
    have hroot := (hi.root hp).root_eq
    omega
  case codes => exact ⟨hi.totalBits_lt (hi.codes hp), fun i => (hi.codes hp).len_le⟩

/-- Settles O58: the host's operations but START and ABORT leave an ended run alone, and no engine
step is enabled. -/
theorem terminalStatesStay : Obligations.TerminalStatesStay := by
  intro s t hstep hp hstart habort hreset
  obtain ⟨hsame, hevents⟩ := step_keeps_ended_run hstep hp hstart habort hreset
  rw [hsame.frame]
  exact ⟨rfl, rfl, rfl, rfl, rfl, rfl, rfl, rfl, rfl, rfl, rfl, rfl, rfl, hevents⟩

end Sys2Proof.Proofs
end

section
/-! The commands and the event registers (44_commands.md): which bits a write of an event register
names (R96), what START and ABORT make of the block (R151 to R153), and O28 to O32. -/

namespace Sys2Proof.Machine

variable {h g : Htb} {c : Config}

/-! ### The event registers (R96, R155, R156) -/

theorem evBit_lt (e : Ev) : evBit e < 9 := by
  cases e <;> decide

/-- The mask of a write names an event exactly when DATA has the event's bit (R96). -/
theorem evIn_eventMask (data : Word) (e : Ev) :
    evIn (eventMask data) e = data.getLsbD (evBit e) := by
  rw [evIn, eventMask, BitVec.getLsbD_setWidth, decide_eq_true (evBit_lt e), Bool.true_and]

/-! ### The commands (R151, R152, R153) -/

/-- W·H = 0 exactly when a side of the raster is 0 (R222). -/
theorem rasterSize_eq_zero_iff (dim : Word) :
    rasterSize dim = 0 ↔ dimWidth dim = 0 ∨ dimHeight dim = 0 := by
  rw [rasterSize, Nat.mul_eq_zero, BitVec.toNat_eq, BitVec.toNat_eq]
  rfl

/-- START with pixels to count goes to HIST (R151). -/
theorem Htb.start_of_raster (hraster : rasterSize h.dim ≠ 0) :
    h.start = { h.clearRun with phase := .hist } :=
  if_neg hraster

/-- START with nothing to count is an error, and ERROR its only event (R151, R222). -/
theorem Htb.start_of_empty (hempty : rasterSize h.dim = 0) :
    h.start =
      { h.clearRun with phase := .error, err := .emptyInput, evPending := 0x080 } := by
  have hpend : (0 : Events) ||| evMask .error = 0x080 := by decide
  rw [← hpend]
  exact if_pos hempty

/-- START gives the block its new state and no answer. -/
theorem exec_cmdStart (s : State) (hg : s.htb.start = g) :
    exec .cmdStart s = .next { s with htb := g, reply := none } :=
  hg ▸ rfl

/-- ABORT gives the block its cleared run and no answer. -/
theorem exec_cmdAbort (s : State) (hg : s.htb.clearRun = g) :
    exec .cmdAbort s = .next { s with htb := g, reply := none } :=
  hg ▸ rfl

/-- An idle block has no run (R59). -/
theorem Htb.Inv.cleared_of_idle (hi : h.Inv c) (hp : h.phase = .idle) : h.Cleared := by
  obtain ⟨hpix, hsym⟩ := hi.idleEmpty hp
  obtain ⟨hmerge, hlive⟩ := hi.noMergeYet (.inl hp)
  exact ⟨hpix, hsym, hmerge, hlive, hi.noResult (by rw [hp]; decide)⟩

/-- An idle block holds no error (R59). -/
theorem Htb.Inv.err_of_idle (hi : h.Inv c) (hp : h.phase = .idle) : h.err = .noError := by
  by_contra herr
  exact nomatch hp.symm.trans (hi.errIffError.mp herr)

/-- Where there is no run to clear, ClearRun clears the events alone (R152). -/
theorem Htb.Cleared.clearRun_eq (hc : h.Cleared) (hp : h.phase = .idle) (herr : h.err = .noError) :
    h.clearRun = { h with evPending := 0 } := by
  obtain ⟨hpix, hsym, hmerge, hlive, horig, hcomp, htbits⟩ := hc
  simp only [Htb.clearRun, hp, herr, hpix, hsym, hmerge, hlive, horig, hcomp, htbits]

end Sys2Proof.Machine

namespace Sys2Proof.Proofs

open Sys2Proof.Machine Sys2Proof.Laws

/-- Settles O30: the run is cleared, and W·H decides between HIST and the error; ClearRun left no
event beside ERROR. -/
theorem startBeginsARun : Obligations.StartBeginsARun := by
  refine fun s => ⟨fun hraster => ?hist, fun hempty => ?error⟩
  case hist => exact exec_cmdStart s (Htb.start_of_raster hraster)
  case error =>
    have hzero := (rasterSize_eq_zero_iff s.htb.dim).mpr hempty
    exact exec_cmdStart s (Htb.start_of_empty hzero)

/-- Settles O28: the mask of the write is DATA's nine bits, and its bits are cleared. -/
theorem ackClearsExactlyItsBits : Obligations.AckClearsExactlyItsBits :=
  fun data _ => ⟨_, rfl, fun e => by rw [evIn_ack, evIn_eventMask]⟩

/-- Settles O29: the mask of the write is stored, and the interrupt is an event both pending and
enabled. -/
theorem enableWriteStoresItsMask : Obligations.EnableWriteStoresItsMask := by
  refine fun data s => ⟨eventMask data, rfl, evIn_eventMask data, ?interrupt⟩
  case interrupt => simp only [Htb.irq_iff, evIn_eventMask]

/-- Settles O31: ABORT is ClearRun, and an idle block has no run and no error to clear. -/
theorem abortClearsTheRun : Obligations.AbortClearsTheRun :=
  fun s => ⟨exec_cmdAbort s rfl, fun hi hp =>
    exec_cmdAbort s ((Htb.Inv.cleared_of_idle hi hp).clearRun_eq hp (Htb.Inv.err_of_idle hi hp))⟩

/-- Settles O32: 0x008 is the offset of CMD, and any DATA but 1 and 2 is a reserved command. -/
theorem reservedCommandsSignalAccErr : Obligations.ReservedCommandsSignalAccErr := by
  intro data s hstart habort
  refine ⟨?decodes, rfl⟩
  calc decode (htw true 0x008 data)
      = decodeCmd data := decode_write _ _
    _ = .rsvdCmd data := by rw [decodeCmd, if_neg hstart, if_neg habort]

end Sys2Proof.Proofs
end

section
/-! The register reads (45_register_access.md R176 to R205): the fields of STATUS, the halves of a
64-bit value, the two windows open and closed, and the offsets that read 0. O16 to O23. -/

namespace Sys2Proof

/-- The registers a read returns are aligned, below 0x07C, and neither CMD nor PIXEL (R20, R205). -/
theorem Reg.offset_of_givesRead {r : Reg} (hr : r.givesRead = true) :
    r.offset ≠ 0x008 ∧ r.offset ≠ 0x018 ∧ r.offset.toNat < 0x07C ∧ r.offset.toNat % 4 = 0 := by
  cases r
  case cmd | pixel => cases hr
  all_goals decide

theorem offset_of_readable {off : Offset} (ho : readableOffset off = true) :
    off ≠ 0x008 ∧ off ≠ 0x018 ∧ off.toNat < 0x07C ∧ off.toNat % 4 = 0 := by
  obtain hnone | ⟨r, rfl⟩ := at?_cases off
  · exact nomatch (not_readable_of_reserved hnone).symm.trans ho
  · rw [readableOffset, Laws.at?_offset] at ho
    exact Reg.offset_of_givesRead ho

end Sys2Proof

namespace Sys2Proof.Machine

variable {c : Config} {h : Htb}

/-- A read that finds the value `w` answers it and changes nothing else (R76). -/
theorem State.answer_of_eq (s : State) {v w : Word} (hv : v = w) :
    s.answer v = .next { s with reply := some w } :=
  hv ▸ rfl

/-! ### STATUS (R24, R178) -/

theorem phaseBusy_iff {p : Phase} :
    phaseBusy p = true ↔ p = .hist ∨ p = .build ∨ p = .walk ∨ p = .size := by
  cases p <;> simp [phaseBusy]

theorem Htb.resultValid_iff (h : Htb) : h.resultValid = true ↔ h.phase = .done :=
  beq_iff_eq

/-- STATE is bits 2:0 of STATUS. -/
theorem Htb.extractLsb'_statusWord_state (h : Htb) :
    h.statusWord.extractLsb' 0 3 = phaseCode h.phase := by
  rw [Htb.statusWord, BitVec.extractLsb'_setWidth_of_le (by decide)]
  exact BitVec.extractLsb'_append_eq_right

/-- RESULT_VALID is bit 4 of STATUS. -/
theorem Htb.getLsbD_statusWord_resultValid (h : Htb) :
    h.statusWord.getLsbD 4 = h.resultValid := by
  simp only [Htb.statusWord, zext32, BitVec.getLsbD_setWidth, BitVec.getLsbD_append]
  simp

/-- IRQ is bit 5 of STATUS. -/
theorem Htb.getLsbD_statusWord_irq (h : Htb) : h.statusWord.getLsbD 5 = h.irq := by
  simp only [Htb.statusWord, zext32, BitVec.getLsbD_setWidth, BitVec.getLsbD_append]
  simp

/-- Zero extension leaves the bits above the value at 0 (R11). -/
theorem extractLsb'_zext32_above {w : Nat} (v : BitVec w) (len : Nat) :
    (zext32 v).extractLsb' w len = 0 := by
  apply BitVec.eq_of_getLsbD_eq
  intro i _
  rw [BitVec.getLsbD_extractLsb', BitVec.getLsbD_setWidth,
    BitVec.getLsbD_of_ge v (w + i) (Nat.le_add_right w i)]
  simp

/-! ### ERR and the results (R179, R187 to R192) -/

/-- The two halves of a 64-bit value are the value (R74). -/
theorem highHalf_append_lowHalf (q : Quad) : highHalf q ++ lowHalf q = q :=
  BitVec.extractLsb'_append_extractLsb'

theorem halves_of_eq_zero {q : Quad} (hq : q = 0) : lowHalf q = 0 ∧ highHalf q = 0 :=
  hq ▸ by decide

/-- Outside ERROR there is no error (R26). -/
theorem Htb.Inv.err_of_not_error (hi : h.Inv c) (hp : h.phase ≠ .error) : h.err = .noError :=
  by_contra fun herr => hp (hi.errIffError.mp herr)

/-! ### The windows (R170) -/

theorem Htb.slotPool?_of_open (hp : h.phase = .done) (hlt : h.slotSel.toNat < h.n) :
    h.slotPool? = some (h.poolAt h.slotSel.toNat) :=
  if_pos (h.slotValid_iff.mpr ⟨hp, hlt⟩)

theorem Htb.slotCode?_of_open (hp : h.phase = .done) (hlt : h.slotSel.toNat < h.n) :
    h.slotCode? = some (h.codeAt h.slotSel.toNat) :=
  if_pos (h.slotValid_iff.mpr ⟨hp, hlt⟩)

theorem Htb.node?_of_open (hp : h.phase = .done) (hlt : h.nodeSel.toNat < 2 * h.n - 1) :
    h.node? = some (h.nodeAt h.nodeSel.toNat) :=
  if_pos (h.nodeValid_iff.mpr ⟨hp, hlt⟩)

/-- An open window answers the field of the entry it finds. -/
theorem State.answer_of_open (s : State) {α : Type} {entry : Option α} {e : α} {field : α → Word}
    {w : Word} (he : entry = some e) (hw : field e = w) :
    s.answer (windowWord entry field) = .next { s with reply := some w } :=
  s.answer_of_eq (by rw [he, windowWord, hw])

/-- A closed window answers 0, whatever the field. -/
theorem State.answer_of_closed (s : State) {α : Type} {entry : Option α} {field : α → Word}
    (he : entry = none) : s.answer (windowWord entry field) = .next { s with reply := some 0 } :=
  s.answer_of_eq (by rw [he, windowWord])

/-- A closed slot window reads 0 at each of its registers. -/
theorem exec_slotWindow_closed (s : State)
    (hclosed : ¬ (s.htb.phase = .done ∧ s.htb.slotSel.toNat < s.htb.n)) :
    ∀ i ∈ [Instr.rdSlotKey, .rdSlotFreq, .rdSlotClen, .rdSlotCbitsLo, .rdSlotCbitsHi],
      exec i s = .next { s with reply := some 0 } := by
  have hvalid : ¬ s.htb.slotValid = true := fun hv => hclosed (s.htb.slotValid_iff.mp hv)
  have hpool : s.htb.slotPool? = none := if_neg hvalid
  have hcode : s.htb.slotCode? = none := if_neg hvalid
  simp only [List.forall_mem_cons]
  exact ⟨s.answer_of_closed hpool, s.answer_of_closed hpool, s.answer_of_closed hcode,
    s.answer_of_closed hcode, s.answer_of_closed hcode, List.forall_mem_nil _⟩

/-- A closed node window reads 0 at each of its registers. -/
theorem exec_nodeWindow_closed (s : State)
    (hclosed : ¬ (s.htb.phase = .done ∧ s.htb.nodeSel.toNat < 2 * s.htb.n - 1)) :
    ∀ i ∈ [Instr.rdNodeKind, .rdNodeFreq, .rdNodeLeft, .rdNodeRight],
      exec i s = .next { s with reply := some 0 } := by
  have hnode : s.htb.node? = none := if_neg fun hv => hclosed (s.htb.nodeValid_iff.mp hv)
  simp only [List.forall_mem_cons]
  exact ⟨s.answer_of_closed hnode, s.answer_of_closed hnode, s.answer_of_closed hnode,
    s.answer_of_closed hnode, List.forall_mem_nil _⟩

theorem childWord_of_leaf {e : NodeEntry} (he : e.kind = .leaf) (child : Index) :
    childWord e child = 0 := by
  rw [childWord, he]

theorem childWord_of_internal {e : NodeEntry} (he : e.kind = .internal) (child : Index) :
    childWord e child = zext32 child := by
  rw [childWord, he]

end Sys2Proof.Machine

namespace Sys2Proof.Proofs

open Sys2Proof.Machine Sys2Proof.Laws

/-- Settles O16: ID is a constant, and PARAM puts CW_MAX above a capacity that fits its 25 bits. -/
theorem idAndParamRead : Obligations.IdAndParamRead :=
  fun s => ⟨rfl, s.answer_of_eq (paramWord_eq s.config)⟩

/-- Settles O17: the fields of the STATUS word one by one, and zeros above its six bits. -/
theorem statusReadGivesEveryField : Obligations.StatusReadGivesEveryField := by
  intro s
  have hstate {p : Phase} {code : BitVec 3} (hcode : phaseCode p = code) (hp : s.htb.phase = p) :
      s.htb.statusWord.extractLsb' 0 3 = code := by
    rw [s.htb.extractLsb'_statusWord_state, hp, hcode]
  have hirq := s.htb.getLsbD_statusWord_irq
  refine ⟨s.htb.statusWord, rfl, hstate rfl, hstate rfl, hstate rfl, hstate rfl, hstate rfl,
    hstate rfl, hstate rfl, ?busy, ?resultValid, ?irq, hirq, extractLsb'_zext32_above _ 26⟩
  case busy => rw [s.htb.getLsbD_statusWord_busy, Htb.busy, phaseBusy_iff]
  case resultValid => rw [s.htb.getLsbD_statusWord_resultValid, s.htb.resultValid_iff]
  case irq => rw [hirq, s.htb.irq_iff]

/-- Settles O23: none of these offsets is one that a read returns. -/
theorem zeroReads : Obligations.ZeroReads := by
  intro off data s hoff
  have hzero : readableOffset off = false := by
    refine Bool.eq_false_of_not_eq_true fun hread => ?_
    obtain ⟨hcmd, hpixel, hbelow, haligned⟩ := offset_of_readable hread
    obtain hoff | hoff | hoff | hoff := hoff
    · exact hcmd hoff
    · exact hpixel hoff
    · exact absurd hbelow hoff.not_gt
    · exact hoff haligned
  exact ⟨(decode_read off data).trans (decodeRead_of_not_readable hzero), rfl⟩

/-- Settles O18: each read answers its register, and outside ERROR the code is that of no error. -/
theorem plainRegistersRead : Obligations.PlainRegistersRead := by
  intro s
  have herr {e : ErrCode} {v : Word} (hv : zext32 (errCode e) = v) (he : s.htb.err = e) :
      exec .rdErr s = .next { s with reply := some v } :=
    s.answer_of_eq (by rw [he, hv])
  exact ⟨rfl, herr rfl, herr rfl, herr rfl, herr rfl,
    fun hi hp => herr rfl (Htb.Inv.err_of_not_error hi hp), rfl, rfl, rfl, rfl, rfl, rfl, rfl⟩

/-- Settles O19: the halves are those of the result, which the invariant has at 0 outside DONE. -/
theorem resultsReadInHalves : Obligations.ResultsReadInHalves := by
  intro s
  refine ⟨⟨_, _, highHalf_append_lowHalf _, rfl, rfl, fun hi hp => ?orig⟩,
    ⟨_, _, highHalf_append_lowHalf _, rfl, rfl, fun hi hp => ?comp⟩,
    ⟨_, _, highHalf_append_lowHalf _, rfl, rfl, fun hi hp => ?tbits⟩⟩
  all_goals obtain ⟨horig, hcomp, htbits⟩ := Htb.Inv.noResult hi hp
  case orig => exact halves_of_eq_zero horig
  case comp => exact halves_of_eq_zero hcomp
  case tbits => exact halves_of_eq_zero htbits

/-- Settles O20: ROOT asks for DONE, and the selectors answer as they stand. -/
theorem rootAndSelectorsRead : Obligations.RootAndSelectorsRead :=
  fun s => ⟨fun hp => s.answer_of_eq (if_pos hp), fun hp => s.answer_of_eq (if_neg hp), rfl, rfl⟩

/-- Settles O21: the open window finds the pool and code entries of the slot, the closed one none. -/
theorem slotWindowReads : Obligations.SlotWindowReads := by
  refine fun s => ⟨fun hp hlt => ?opened, exec_slotWindow_closed s⟩
  have hpool := Htb.slotPool?_of_open hp hlt
  have hcode := Htb.slotCode?_of_open hp hlt
  exact ⟨s.answer_of_open hpool rfl, s.answer_of_open hpool rfl, s.answer_of_open hcode rfl,
    _, _, highHalf_append_lowHalf _, s.answer_of_open hcode rfl, s.answer_of_open hcode rfl⟩

/-- Settles O22: the open window finds the node, whose kind decides what its children read; the
closed one finds none. -/
theorem nodeWindowReads : Obligations.NodeWindowReads := by
  rintro s e rfl
  refine ⟨fun hp hlt => ?opened, exec_nodeWindow_closed s⟩
  have hnode := Htb.node?_of_open hp hlt
  refine ⟨s.answer_of_open hnode rfl, fun hkind => ?leaf, fun hkind => ?internal⟩
  case leaf =>
    have hchild := childWord_of_leaf hkind
    exact ⟨s.answer_of_open hnode (congrArg kindCode hkind), s.answer_of_open hnode (hchild _),
      s.answer_of_open hnode (hchild _)⟩
  case internal =>
    have hchild := childWord_of_internal hkind
    exact ⟨s.answer_of_open hnode (congrArg kindCode hkind), s.answer_of_open hnode (hchild _),
      s.answer_of_open hnode (hchild _)⟩

end Sys2Proof.Proofs
end

section
/-! The register writes that are no command (45_register_access.md R171 to R175): DIM and
PROG_INTERVAL, the two selectors with the windows they close, and the ignored writes. O25 to O27. -/

namespace Sys2Proof

/-- The offsets of the registers that take a write (R20, R175). -/
theorem Reg.offset_of_takesWrite {r : Reg} (hr : r.takesWrite = true) :
    r.offset ∈ [0x008, 0x014, 0x018, 0x028, 0x02C, 0x030, 0x050, (0x068 : Offset)] := by
  cases r
  case cmd | dim | pixel | progInterval | evPending | evEnable | slotSel | nodeSel => decide
  all_goals cases hr

theorem offset_of_writable {off : Offset} (ho : writableOffset off = true) :
    off ∈ [0x008, 0x014, 0x018, 0x028, 0x02C, 0x030, 0x050, (0x068 : Offset)] := by
  obtain hnone | ⟨r, rfl⟩ := at?_cases off
  · exact nomatch (not_writable_of_reserved hnone).symm.trans ho
  · rw [writableOffset, Laws.at?_offset] at ho
    exact Reg.offset_of_takesWrite ho

end Sys2Proof

namespace Sys2Proof.Machine

variable {h g : Htb}

/-! ### DIM and PROG_INTERVAL (R171, R172) -/

theorem phaseBusy_eq_false {p : Phase} (hp : p = .idle ∨ p = .done ∨ p = .error) :
    phaseBusy p = false := by
  obtain rfl | rfl | rfl := hp <;> rfl

/-- The two sides of the raster are DIM (R27). -/
theorem toNat_dim (dim : Word) :
    dim.toNat = (dimHeight dim).toNat * 2 ^ 16 + (dimWidth dim).toNat := by
  have hsides : dimHeight dim ++ dimWidth dim = dim := BitVec.extractLsb'_append_extractLsb'
  rw [← toNat_append_eq_add, hsides]

/-- A write refused while BUSY sets bit 8 of EV_PENDING and changes nothing else (R171, R225). -/
theorem Htb.unlessBusy_of_busy (hb : h.busy = true) (written : Htb) :
    h.unlessBusy written = { h with evPending := h.evPending ||| 0x100 } :=
  if_pos hb

theorem Htb.unlessBusy_of_not_busy (hb : h.busy = false) (written : Htb) :
    h.unlessBusy written = written :=
  if_neg (Bool.not_eq_true _ ▸ hb)

/-- A write gives the block its new state and no answer (R76). -/
theorem State.commit_of_eq (s : State) (hg : h = g) :
    s.commit h = .next { s with htb := g, reply := none } :=
  hg ▸ rfl

/-! ### The selectors (R173, R174) -/

theorem toNat_selIndex (data : Word) : (selIndex data).toNat = data.toNat % 2 ^ 25 :=
  BitVec.toNat_setWidth 25 data

/-- A stored index reads back as DATA without its bits 31:25 (R97). -/
theorem zext32_selIndex (data : Word) : zext32 (selIndex data) = data &&& 0x01FFFFFF := by
  have hmask : (0x01FFFFFF : Word).toNat = 2 ^ 25 - 1 := rfl
  apply BitVec.eq_of_toNat_eq
  rw [BitVec.toNat_setWidth_of_le (by decide), toNat_selIndex, BitVec.toNat_and, hmask,
    Nat.and_two_pow_sub_one_eq_mod]

end Sys2Proof.Machine

namespace Sys2Proof.Proofs

open Sys2Proof.Machine Sys2Proof.Laws

/-- Settles O26: the index is DATA mod 2^25, and one out of range leaves its window closed. -/
theorem selectorWritesKeepTwentyFiveBits : Obligations.SelectorWritesKeepTwentyFiveBits := by
  refine fun data s => ⟨
    ⟨selIndex data, toNat_selIndex data, _, rfl, rfl, ?readSlotSel, fun hout => ?slotWindow⟩,
    ⟨selIndex data, toNat_selIndex data, _, rfl, rfl, ?readNodeSel, fun hout => ?nodeWindow⟩⟩
  case slotWindow => exact exec_slotWindow_closed _ fun hopen => absurd hopen.2 hout.not_gt
  case nodeWindow => exact exec_nodeWindow_closed _ fun hopen => absurd hopen.2 hout.not_gt
  case readSlotSel | readNodeSel => exact State.answer_of_eq _ (zext32_selIndex data)

/-- Settles O27: no register that takes a write has such an offset, and the ignored write commits
the block as it is. -/
theorem otherWritesAreIgnored : Obligations.OtherWritesAreIgnored := by
  intro off data s hoff
  have hignored : writableOffset off = false :=
    Bool.eq_false_of_not_eq_true fun hwrite => hoff (offset_of_writable hwrite)
  exact ⟨(decode_write off data).trans (decodeWrite_of_not_writable data hignored), rfl⟩

/-- Settles O25: BUSY decides between the register and ACCERR, and DIM is its two sides. -/
theorem configWritesWaitForNotBusy : Obligations.ConfigWritesWaitForNotBusy := by
  refine fun data s => ⟨fun hp => ?stored, fun hp => ?refused, toNat_dim data⟩
  case stored =>
    have hwritten := Htb.unlessBusy_of_not_busy (h := s.htb) (phaseBusy_eq_false hp)
    exact ⟨s.commit_of_eq (hwritten _), s.commit_of_eq (hwritten _)⟩
  case refused =>
    have hrefused := Htb.unlessBusy_of_busy (h := s.htb) (phaseBusy_iff.mpr hp)
    exact ⟨s.commit_of_eq (hrefused _), s.commit_of_eq (hrefused _)⟩

end Sys2Proof.Proofs
end

section
/-! The exceptions (60_exceptions.md): which engine step is enabled (R233), the full pool (R223), the
step that sets each event bit (R221, R230) and the accesses that signal ACCERR (R225). O9, O38, O39,
O55 and O56. -/

namespace Sys2Proof.Machine

variable {c : Config} {g h : Htb} {y : Key} {data : Word} {e f : Ev} {s t : State}

/-! ### Which engine step is enabled (R233) -/

theorem Htb.enabled_eq_none (hp : h.phase = .idle ∨ h.phase = .hist ∨ h.phase = .done ∨
    h.phase = .error) : h.enabled = none := by
  obtain hp | hp | hp | hp := hp <;> rw [Htb.enabled, hp]

/-- The engine's turn takes its event, if there is one, off the agenda. -/
theorem step_of_engine_turn (hnext : s.engineNext) :
    step s = State.engineMove { s with agenda := s.agenda.tail } := by
  obtain hnil | ⟨rest, hrest⟩ := hnext
  · exact step_of_engineNext (.inl (by simp [hnil]))
  · exact step_of_engineNext (.inr (by rw [hrest, List.tail_cons]))

theorem State.engineMove_of_not_enabled (hnone : s.htb.enabled = none) :
    s.engineMove = .next s := by
  simp only [State.engineMove, hnone]

/-! ### The full pool (R112, R223) -/

theorem Htb.countPixel_full (hy : ∀ s, s < h.n → (h.poolAt s).key ≠ y)
    (hfull : ¬ h.n < c.poolCap) : h.countPixel c y = h.enterError .poolOverflow := by
  obtain ⟨i, hi, hkey, -⟩ | ⟨-, ⟨hroom, -⟩ | ⟨-, heq⟩⟩ := h.countPixel_cases c y
  · exact absurd hkey (hy i hi)
  · exact absurd hroom hfull
  · exact heq

/-- A pixel that ends the run in ERROR does not end the histogram too, whatever the count
(R110). -/
theorem Htb.pixel_of_error (hp : h.phase = .hist) (hg : h.countPixel c (key data) = g)
    (herror : g.phase = .error) : h.pixel c data = g := by
  have hended : g.phase ≠ .hist := herror.trans_ne (by decide)
  rw [Htb.pixel, if_pos hp, hg, Htb.endHistIfLast, if_neg fun hlast => hended hlast.1]

/-- The keys of the slots are distinct, so a key at none of them leaves fewer than 2^24 slots. -/
theorem Htb.HistInv.n_lt_of_new_key (hh : h.HistInv c)
    (hy : ∀ s, s < h.n → (h.poolAt s).key ≠ y) : h.n < 2 ^ 24 := by
  have hinj : Function.Injective fun i : Fin h.n => (h.poolAt i).key :=
    fun i j hij => Fin.ext (hh.slot_unique i.isLt j.isLt hij)
  have hnew : y ∉ Set.range fun i : Fin h.n => (h.poolAt i).key :=
    fun ⟨i, hi⟩ => hy i i.isLt hi
  simpa [← FinEnum.card_eq_fintypeCard] using Fintype.card_lt_of_injective_of_notMem _ hinj hnew

/-- With a slot for every key, counting a pixel raises no error (R223). -/
theorem Htb.HistInv.countPixel_err (hh : h.HistInv c) (hcap : c.poolCap = 2 ^ 24) (y : Key) :
    (h.countPixel c y).err = h.err := by
  obtain ⟨s, -, -, heq⟩ | ⟨hy, ⟨-, heq⟩ | ⟨hfull, -⟩⟩ := h.countPixel_cases c y
  · rw [heq, Htb.countKnown_err]
  · rw [heq, Htb.countNew_err]
  · exact absurd (hcap ▸ hh.n_lt_of_new_key hy) hfull

theorem Htb.HistInv.pixel_err (hh : h.HistInv c) (hcap : c.poolCap = 2 ^ 24) (data : Word) :
    (h.pixel c data).err = h.err := by
  obtain ⟨-, heq⟩ | ⟨-, g, rfl, ⟨-, -, heq⟩ | ⟨-, heq⟩⟩ := h.pixel_cases c data <;> rw [heq]
  · rw [Htb.signal_err]
  · rw [Htb.endHist_err, hh.countPixel_err hcap]
  · rw [hh.countPixel_err hcap]

/-- START raises EMPTY_INPUT or no error (R151). -/
theorem Htb.start_err (h : Htb) : h.start.err = .emptyInput ∨ h.start.err = .noError := by
  obtain ⟨-, heq⟩ | ⟨-, heq⟩ := h.start_cases
  · exact .inl (by rw [heq, Htb.enterError_err])
  · exact .inr (by rw [heq, Htb.clearRun_err])

/-- The engine raises CODE_LENGTH or no error (R131). -/
theorem Htb.engine_err {move : EngineStep} (hg : h.engine move = .ok g) :
    g.err = .codeLength ∨ g.err = h.err := by
  obtain ⟨a, b, -, rfl⟩ | ⟨r, -, rfl⟩ | ⟨tree, -, -, rfl⟩ | ⟨-, rfl⟩ := h.engine_cases hg
  · exact .inr (h.engMerge_err a b)
  · exact .inr (h.engBuildEnd_err r)
  · cases hdeep : tree.tooDeep h.n with
    | true => exact .inl (by rw [Htb.engWalkTree_of_tooDeep hdeep, Htb.enterError_err])
    | false => exact .inr (by rw [Htb.engWalkTree_of_not_tooDeep hdeep, Htb.signal_err])
  · exact .inr h.engSize_err

/-! ### New events (R230) -/

/-- The update of the block from `h` to `g` sets the bit of `e`, which was clear. -/
def Htb.NewEvent (h g : Htb) (e : Ev) : Prop :=
  evIn h.evPending e = false ∧ evIn g.evPending e = true

theorem Htb.not_newEvent_of_eq (heq : g.evPending = h.evPending) : ¬ h.NewEvent g e := by
  rintro ⟨hclear, hset⟩
  rw [heq, hclear] at hset
  cases hset

theorem Htb.not_newEvent_of_zero (hzero : g.evPending = 0) : ¬ h.NewEvent g e := by
  rintro ⟨-, hset⟩
  rw [hzero, evIn_zero] at hset
  cases hset

/-- Where one event is signalled, it is the new one. -/
theorem Htb.NewEvent.eq_of_or (hnew : h.NewEvent g e)
    (heq : g.evPending = h.evPending ||| evMask f) : e = f := by
  obtain ⟨hclear, hset⟩ := hnew
  rw [heq, evIn_or_evMask, hclear, Bool.false_or, decide_eq_true_iff] at hset
  exact hset.symm

/-- Where two events are signalled, it is one of them. -/
theorem Htb.NewEvent.eq_of_or_or {f' : Ev} (hnew : h.NewEvent g e)
    (heq : g.evPending = h.evPending ||| evMask f ||| evMask f') : e = f ∨ e = f' := by
  obtain ⟨hclear, hset⟩ := hnew
  rw [heq, evIn_or_evMask, evIn_or_evMask, hclear, Bool.false_or, Bool.or_eq_true,
    decide_eq_true_iff, decide_eq_true_iff] at hset
  exact hset.imp Eq.symm Eq.symm

/-- A clear bit is set by signalling its event. -/
theorem Htb.newEvent_signal (hclear : evIn h.evPending e = false) :
    h.NewEvent (h.signal e) e :=
  ⟨hclear, by rw [Htb.signal_evPending, evIn_or_evMask]; simp⟩

/-- START signals ERROR alone, where there is nothing to count (R151, R222). -/
theorem Htb.start_newEvent (hnew : h.NewEvent h.start e) :
    e = .error ∧ h.start.phase = .error ∧ h.start.err = .emptyInput := by
  obtain ⟨-, heq⟩ | ⟨-, heq⟩ := h.start_cases <;> rw [heq] at hnew ⊢
  · refine ⟨?_, rfl, rfl⟩
    have hset := hnew.2
    rw [Htb.enterError_evPending, Htb.clearRun_evPending, evIn_or_evMask, evIn_zero,
      Bool.false_or, decide_eq_true_iff] at hset
    exact hset.symm
  · exact absurd hnew (Htb.not_newEvent_of_zero rfl)

/-- Counting a pixel signals ERROR alone, where the pool is full (R112, R223). -/
theorem Htb.countPixel_evPending (h : Htb) (c : Config) (y : Key) :
    (h.countPixel c y).evPending = h.evPending ∨
    h.countPixel c y = h.enterError .poolOverflow := by
  obtain ⟨s, -, -, heq⟩ | ⟨-, ⟨-, heq⟩ | ⟨-, heq⟩⟩ := h.countPixel_cases c y
  · exact .inl (by rw [heq, Htb.countKnown_evPending])
  · exact .inl (by rw [heq, Htb.countNew_evPending])
  · exact .inr heq

/-- A PIXEL write in HIST signals the end of the histogram or the overflow of the pool (R110,
R113, R223). -/
theorem Htb.pixel_newEvent (hp : h.phase = .hist) (hnew : h.NewEvent (h.pixel c data) e) :
    ((e = .histDone ∨ e = .buildStart) ∧ (h.pixel c data).phase = .build) ∨
    (e = .error ∧ (h.pixel c data).phase = .error ∧ (h.pixel c data).err = .poolOverflow) := by
  obtain ⟨hne, -⟩ | ⟨-, g, rfl, hend⟩ := h.pixel_cases c data
  · exact absurd hp hne
  obtain hpend | herror := h.countPixel_evPending c (key data)
  · obtain ⟨-, -, heq⟩ | ⟨-, heq⟩ := hend <;> rw [heq] at hnew ⊢
    · exact .inl ⟨hnew.eq_of_or_or (by rw [Htb.endHist_evPending, hpend]), rfl⟩
    · exact absurd hnew (Htb.not_newEvent_of_eq hpend)
  · rw [Htb.pixel_of_error hp herror rfl] at hnew ⊢
    exact .inr ⟨hnew.eq_of_or rfl, rfl, rfl⟩

theorem Htb.engMerge_newEvent {a b : Nat} (hnew : h.NewEvent (h.engMerge a b) e) :
    e = .progress := by
  have hpend := h.engMerge_evPending a b
  split at hpend
  · exact hnew.eq_of_or hpend
  · exact absurd hnew (Htb.not_newEvent_of_eq hpend)

/-- ENG_WALK signals CODE_LENGTH's error or SIZE_START (R131). -/
theorem Htb.engWalkTree_newEvent {tree : Tree} (hnew : h.NewEvent (h.engWalkTree tree) e) :
    (e = .sizeStart ∧ (h.engWalkTree tree).phase = .size) ∨
    (e = .error ∧ (h.engWalkTree tree).phase = .error ∧
      (h.engWalkTree tree).err = .codeLength) := by
  cases hdeep : tree.tooDeep h.n with
  | true =>
    rw [Htb.engWalkTree_of_tooDeep hdeep] at hnew ⊢
    exact .inr ⟨hnew.eq_of_or rfl, rfl, rfl⟩
  | false =>
    rw [Htb.engWalkTree_of_not_tooDeep hdeep] at hnew ⊢
    exact .inl ⟨hnew.eq_of_or rfl, rfl⟩

/-- What the engine signals, by the phase it is in (R122 to R124, R131, R140). -/
theorem Htb.engine_newEvent {move : EngineStep} (henabled : h.enabled = some move)
    (hg : h.engine move = .ok g) (hnew : h.NewEvent g e) :
    (h.phase = .build ∧ ((e = .progress ∧ g.phase = .build) ∨
      ((e = .buildDone ∨ e = .walkStart) ∧ g.phase = .walk))) ∨
    (h.phase = .walk ∧ ((e = .sizeStart ∧ g.phase = .size) ∨
      (e = .error ∧ g.phase = .error ∧ g.err = .codeLength))) ∨
    (h.phase = .size ∧ e = .done ∧ g.phase = .done) := by
  obtain ⟨a, b, hp, -, -, rfl⟩ | ⟨a, hp, -, -, rfl⟩ | ⟨tree, hp, -, rfl⟩ | ⟨hp, rfl⟩ :=
    Htb.enabled_engine_cases henabled hg
  · exact .inl ⟨hp, .inl ⟨Htb.engMerge_newEvent hnew, (h.engMerge_phase a b).trans hp⟩⟩
  · exact .inl ⟨hp, .inr ⟨hnew.eq_of_or_or (h.engBuildEnd_evPending a), rfl⟩⟩
  · exact .inr (.inl ⟨hp, Htb.engWalkTree_newEvent hnew⟩)
  · exact .inr (.inr ⟨hp, hnew.eq_of_or h.engSize_evPending, rfl⟩)

/-- A new event other than ACCERR comes from START or from a PIXEL write in HIST (R230). -/
theorem exec_newEvent {i : Instr} (ht : exec i s = .next t) (hne : e ≠ .accErr)
    (hnew : s.htb.NewEvent t.htb e) :
    (i = .cmdStart ∧ t.htb = s.htb.start) ∨
    (∃ data, i = .wrPixel data ∧ s.htb.phase = .hist ∧ t.htb = s.htb.pixel s.config data) := by
  obtain hold | rfl | ⟨⟨data, rfl⟩, hp⟩ := exec_event_source ht hne hnew.2
  · exact nomatch hnew.1.symm.trans hold
  · cases ht
    exact .inl ⟨rfl, rfl⟩
  · cases ht
    exact .inr ⟨data, rfl, hp, rfl⟩

/-! ### ACCERR (R225) -/

theorem Htb.unlessBusy_accErr_iff (hclear : evIn h.evPending .accErr = false)
    (hg : g.evPending = h.evPending) :
    evIn (h.unlessBusy g).evPending .accErr = true ↔ h.busy = true := by
  obtain ⟨hbusy, heq⟩ | ⟨hbusy, heq⟩ := h.unlessBusy_cases g <;> rw [heq, hbusy]
  · exact iff_of_true (Htb.newEvent_signal hclear).2 rfl
  · rw [hg, hclear]

/-- START leaves ACCERR clear: its one event is ERROR (R151). -/
theorem Htb.start_accErr (hclear : evIn h.evPending .accErr = false) :
    evIn h.start.evPending .accErr = false := by
  rw [← Bool.not_eq_true]
  intro hset
  obtain ⟨herror, -⟩ := Htb.start_newEvent ⟨hclear, hset⟩
  cases herror

theorem Htb.pixel_accErr_iff (hclear : evIn h.evPending .accErr = false) :
    evIn (h.pixel c data).evPending .accErr = true ↔ h.phase ≠ .hist := by
  by_cases hp : h.phase = .hist
  · refine iff_of_false (fun hset => ?_) (not_not_intro hp)
    obtain ⟨hend | hend, -⟩ | ⟨herror, -⟩ := Htb.pixel_newEvent hp ⟨hclear, hset⟩
    · cases hend
    · cases hend
    · cases herror
  · rw [Htb.pixel_of_not_hist hp]
    exact iff_of_true (Htb.newEvent_signal hclear).2 hp

end Sys2Proof.Machine

namespace Sys2Proof.Proofs

open Sys2Proof.Machine

/-- Settles O9: in BUILD the last node is live, and the least of LIVE and the least of the others
decide; in every other phase the phase decides alone. -/
theorem oneEngineStepIsEnabledPerState : Obligations.OneEngineStepIsEnabledPerState := by
  refine ⟨fun c h hi => ⟨Htb.enabled_eq_none, fun hp => ?someLive, fun hp hlen => ?merge,
    fun hp hlen => ?buildEnd, Htb.enabled_walk, Htb.enabled_size⟩, fun s hnext hnone => ?turn⟩
  case someLive => exact List.length_pos_of_mem (hi.forest (by rw [hp]; rfl)).last_live
  case merge =>
    have hnodup := nodup_of_rising (hi.forest (by rw [hp]; rfl)).liveRising
    obtain ⟨a, b, henabled, -⟩ := mergeTakesTheTwoLeastLiveNodes h hp hnodup hlen
    exact ⟨a, b, henabled⟩
  case buildEnd =>
    obtain ⟨r, hlive⟩ := List.length_eq_one_iff.mp hlen
    exact ⟨r, hlive, Htb.enabled_buildEnd hp hlive⟩
  case turn => exact (step_of_engine_turn hnext).trans (State.engineMove_of_not_enabled hnone)

/-- Settles O38: CountPixel's third case enters ERROR, where the end of the histogram is not asked
for. -/
theorem poolOverflowEndsTheRun : Obligations.PoolOverflowEndsTheRun :=
  fun data s hp hy hfull =>
    exec_wrPixel data s (Htb.pixel_of_error hp (Htb.countPixel_full hy hfull.not_lt) rfl)

/-- Settles O39: POOL_OVERFLOW is raised by a PIXEL write alone, and a symbol that is new leaves a
slot free. -/
theorem theFullPoolNeverOverflows : Obligations.TheFullPoolNeverOverflows := by
  intro s t hi hcap herr hstep
  obtain ⟨w, rest, -, hexec⟩ | ⟨rest, -, hmove⟩ | ⟨rest, -, rfl⟩ := step_cases hstep
  · obtain ⟨-, heq⟩ | ⟨-, heq⟩ | ⟨data, -, heq⟩ | hsame := exec_cases hexec
    · rw [heq]
      obtain hempty | hno := s.htb.start_err
      · exact hempty.trans_ne (by decide)
      · exact hno.trans_ne (by decide)
    · rw [heq, Htb.clearRun_err]
      decide
    · rw [heq]
      exact (hi.hist.pixel_err hcap data).trans_ne herr
    · rw [hsame.frame]
      exact herr
  · obtain rfl | ⟨e, -, hg, -⟩ := State.engineMove_enabled_cases hmove
    · exact herr
    · obtain hlength | hsame := Htb.engine_err hg
      · exact hlength.trans_ne (by decide)
      · exact hsame.trans_ne herr
  · exact nofun

/-- Settles O55: the new events of START, of a PIXEL write in HIST and of the enabled engine step;
reset leaves none. -/
theorem eachEventHasItsOwnSource : Obligations.EachEventHasItsOwnSource := by
  intro s t hstep e hclear hset
  have hnew : s.htb.NewEvent t.htb e := ⟨hclear, hset⟩
  obtain ⟨w, rest, hagenda, hexec⟩ | ⟨rest, hagenda, hmove⟩ | ⟨rest, -, rfl⟩ := step_cases hstep
  · have hnext {i : Instr} (hi : decode w = i) : s.nextIs i := ⟨w, rest, hagenda, hi⟩
    by_cases hacc : e = .accErr
    · subst hacc
      exact ⟨w, rest, hagenda⟩
    obtain ⟨hi, heq⟩ | ⟨data, hi, hp, heq⟩ := exec_newEvent hexec hacc hnew <;>
      rw [heq] at hnew ⊢
    · obtain ⟨rfl, hphase, herr⟩ := Htb.start_newEvent hnew
      exact ⟨hphase, .inl ⟨hnext hi, herr⟩⟩
    · obtain ⟨rfl | rfl, hphase⟩ | ⟨rfl, hphase, herr⟩ := Htb.pixel_newEvent hp hnew
      · exact ⟨⟨data, hnext hi⟩, hp, hphase⟩
      · exact ⟨⟨data, hnext hi⟩, hp, hphase⟩
      · exact ⟨hphase, .inr (.inl ⟨⟨data, hnext hi⟩, hp, herr⟩)⟩
  · have hnext : s.engineNext := hagenda.imp (fun hnil => hnil.1.trans hnil.2) fun he => ⟨rest, he⟩
    obtain rfl | ⟨move, henabled, hg, -⟩ := State.engineMove_enabled_cases hmove
    · exact absurd hnew (Htb.not_newEvent_of_eq rfl)
    obtain ⟨hp, hbuild⟩ | ⟨hp, hwalk⟩ | ⟨hp, rfl, hphase⟩ := Htb.engine_newEvent henabled hg hnew
    · obtain ⟨rfl, hphase⟩ | ⟨rfl | rfl, hphase⟩ := hbuild <;> exact ⟨hp, hnext, hphase⟩
    · obtain ⟨rfl, hphase⟩ | ⟨rfl, hphase, herr⟩ := hwalk
      · exact ⟨hp, hnext, hphase⟩
      · exact ⟨hphase, .inr (.inr ⟨hnext, hp, herr⟩)⟩
    · exact ⟨hp, hnext, hphase⟩
  · exact absurd hnew (Htb.not_newEvent_of_zero rfl)

/-- Settles O56: of the other operations START and ABORT clear the events first, an acknowledgement
sets none, and the rest leave them alone. -/
theorem accErrHasFourSources : Obligations.AccErrHasFourSources := by
  intro i s t ht hclear
  cases i <;> injection ht with ht <;> subst ht
  case rsvdCmd => simpa using (Htb.newEvent_signal hclear).2
  case wrPixel => simpa using Htb.pixel_accErr_iff hclear
  case wrDim data =>
    simpa using Htb.unlessBusy_accErr_iff (g := { s.htb with dim := data }) hclear rfl
  case wrProgInterval data =>
    simpa using Htb.unlessBusy_accErr_iff (g := { s.htb with progInterval := data }) hclear rfl
  case cmdStart => simpa using Htb.start_accErr hclear
  case cmdAbort => simpa using evIn_zero .accErr
  case wrEvPending => simp [evIn_ack, hclear]
  all_goals simp [hclear]

end Sys2Proof.Proofs
end

section
/-! Reset, the reads before DONE and the end of a run (70_reset_and_hazards.md R250, R251, R254 and
R260): O10, O24 and O59. -/

namespace Sys2Proof.Machine

variable {c : Config} {g h : Htb} {s t : State} {m : Nat}

/-! ### Reads before DONE (R254) -/

/-- A result that is 0 answers 0 at both of its halves. -/
theorem State.answer_halves_of_eq_zero (s : State) {q : Quad} (hq : q = 0) :
    s.answer (lowHalf q) = .next { s with reply := some 0 } ∧
      s.answer (highHalf q) = .next { s with reply := some 0 } :=
  (halves_of_eq_zero hq).imp s.answer_of_eq s.answer_of_eq

/-- Outside DONE the result registers read 0. -/
theorem exec_results_before_done (hi : s.Inv) (hp : s.htb.phase ≠ .done) :
    ∀ i ∈ [Instr.rdOrigLo, .rdOrigHi, .rdCompLo, .rdCompHi, .rdTbitsLo, .rdTbitsHi, .rdRoot],
      exec i s = .next { s with reply := some 0 } := by
  obtain ⟨horig, hcomp, htbits⟩ := Htb.Inv.noResult hi hp
  obtain ⟨horigLo, horigHi⟩ := s.answer_halves_of_eq_zero horig
  obtain ⟨hcompLo, hcompHi⟩ := s.answer_halves_of_eq_zero hcomp
  obtain ⟨htbitsLo, htbitsHi⟩ := s.answer_halves_of_eq_zero htbits
  simp only [List.forall_mem_cons]
  exact ⟨horigLo, horigHi, hcompLo, hcompHi, htbitsLo, htbitsHi, s.answer_of_eq (if_neg hp),
    List.forall_mem_nil _⟩

/-! ### The end of a run (R157, R260) -/

/-- At most `m` steps take the machine to DONE or ERROR. -/
def State.EndsWithin (m : Nat) (s : State) : Prop :=
  ∃ i t, i ≤ m ∧ core.run i s = .next t ∧ (t.htb.phase = .done ∨ t.htb.phase = .error)

theorem State.endsWithin_of_ended (hp : s.htb.phase = .done ∨ s.htb.phase = .error) :
    s.EndsWithin m :=
  ⟨0, s, Nat.zero_le m, rfl, hp⟩

/-- A run of the machine begins with its first step. -/
theorem run_succ (hstep : step s = .next t) (i : Nat) : core.run (i + 1) s = core.run i t := by
  have hcore : core.step s = .next t := hstep
  simp only [Host.Core.run, hcore]

/-- With the agenda used up the machine takes the enabled engine step, and its agenda stays so. -/
theorem State.endsWithin_of_enabled {e : EngineStep} (hnil : s.agenda = [])
    (he : s.htb.enabled = some e) (hg : s.htb.engine e = .ok g)
    (hrest : State.EndsWithin m { s with htb := g }) : s.EndsWithin (m + 1) := by
  have hstep : step s = .next { s with htb := g } := by
    simpa [hnil] using step_of_enabled (.inl hnil) he hg
  obtain ⟨i, t, hle, hrun, hended⟩ := hrest
  exact ⟨i + 1, t, Nat.succ_le_succ hle, (run_succ hstep i).trans hrun, hended⟩

/-- From SIZE the one step left is ENG_SIZE. -/
theorem State.endsWithin_of_size (hnil : s.agenda = []) (hp : s.htb.phase = .size) :
    s.EndsWithin 1 :=
  State.endsWithin_of_enabled hnil (Htb.enabled_size hp) rfl
    (State.endsWithin_of_ended (.inl s.htb.engSize_phase))

/-- From WALK, ENG_WALK leads to SIZE or ends the run in ERROR. -/
theorem State.Inv.endsWithin_of_walk (hi : s.Inv) (hnil : s.agenda = [])
    (hp : s.htb.phase = .walk) : s.EndsWithin 2 := by
  obtain ⟨tree, htree⟩ := Htb.Inv.exists_runTree hi (by rw [hp]; rfl)
  refine State.endsWithin_of_enabled hnil (Htb.enabled_walk hp) (Htb.engine_walk htree) ?_
  obtain hsize | herror := s.htb.engWalkTree_phase tree
  · exact State.endsWithin_of_size (s := { s with htb := _ }) hnil hsize
  · exact State.endsWithin_of_ended (.inr herror)

/-- A merge leaves one live node less. -/
theorem Htb.Inv.length_live_engMerge {a b : Nat} (hi : h.Inv c) (hp : h.phase = .build)
    (he : h.enabled = some (.merge a b)) :
    (h.engMerge a b).live.length + 1 = h.live.length := by
  have hs := Htb.selects_of_enabled he
  have hf := hi.forest (by rw [hp]; rfl)
  have hmerged : (h.engMerge a b).ForestInv :=
    (hi.engMerge hp hs).forest (by rw [Htb.engMerge_phase, hp]; rfl)
  have hcount := hmerged.liveCount
  rw [hs.k_engMerge hf hi.hist, Htb.n_engMerge, ← hf.liveCount] at hcount
  omega

/-- From BUILD with `j + 1` live nodes: `j` merges, ENG_BUILD_END, ENG_WALK and ENG_SIZE. -/
theorem State.Inv.endsWithin_of_build {j : Nat} (hi : s.Inv) (hnil : s.agenda = [])
    (hp : s.htb.phase = .build) (hlive : s.htb.live.length = j + 1) : s.EndsWithin (j + 3) := by
  induction j generalizing s with
  | zero =>
    obtain ⟨r, hr⟩ := List.length_eq_one_iff.mp hlive
    have he := Htb.enabled_buildEnd hp hr
    exact State.endsWithin_of_enabled hnil he rfl
      (State.Inv.endsWithin_of_walk (Htb.Inv.engine hi he rfl) hnil (s.htb.engBuildEnd_phase r))
  | succ j ih =>
    have hnodup := nodup_of_rising (Htb.Inv.forest hi (by rw [hp]; rfl)).liveRising
    obtain ⟨a, b, he, -⟩ := Proofs.mergeTakesTheTwoLeastLiveNodes s.htb hp hnodup (by omega)
    have hlength := Htb.Inv.length_live_engMerge hi hp he
    exact State.endsWithin_of_enabled hnil he rfl
      (ih (Htb.Inv.engine hi he rfl) hnil ((s.htb.engMerge_phase a b).trans hp)
        (Nat.succ_injective (hlength.trans hlive)))

end Sys2Proof.Machine

namespace Sys2Proof.Proofs

open Sys2Proof.Machine

/-- Settles O59: LIVE holds n − k nodes, of which the last is always one, and each merge takes one
away. -/
theorem theEngineFinishesTheRun : Obligations.TheEngineFinishesTheRun := by
  intro s hi hp hnil
  have hf : s.htb.ForestInv := Htb.Inv.forest hi (by rw [hp]; rfl)
  obtain ⟨j, hj⟩ := Nat.exists_eq_add_one.mpr (List.length_pos_of_mem hf.last_live)
  obtain ⟨m, t, hle, hended⟩ := hi.endsWithin_of_build hnil hp hj
  exact ⟨m, t, by have := hf.liveCount; omega, hended⟩

/-- Settles O24: outside DONE the invariant has the results at 0, and ROOT and the windows are
closed. -/
theorem nothingIsReadBeforeDone : Obligations.NothingIsReadBeforeDone := by
  intro s hi hp
  have hslot := exec_slotWindow_closed s fun hopen => hp hopen.1
  have hnode := exec_nodeWindow_closed s fun hopen => hp hopen.1
  exact (List.forall_mem_append.mpr
    ⟨exec_results_before_done hi hp, List.forall_mem_append.mpr ⟨hslot, hnode⟩⟩ :)

/-- Settles O10: the step is the reset of the block, and its registers are compared one by one. -/
theorem resetEventPutsEveryRegister : Obligations.ResetEventPutsEveryRegister :=
  fun s _ hagenda => ⟨_, step_of_reset hagenda, rfl, rfl, rfl, rfl, rfl, rfl, rfl, rfl, rfl, rfl, rfl,
    rfl, rfl, rfl, rfl, Htb.reset_irq (s.htb.epoch + 1), rfl, rfl⟩

end Sys2Proof.Proofs
end
